-- ==== Sys2Proof/Word.lean ====
section
/-! DEFINITION. The value types of 00_scope.md R9 and R12 that carry no rule of their own: bytes, nibbles,
command words, byte sequences, agent identifiers and I/O tokens. -/

namespace Sys2Proof

/-- A `u8` (R9); a character is a byte, its ASCII code (R9, R70). -/
abbrev Byte := BitVec 8

/-- A `u4`, one hex digit (R9). -/
abbrev Nibble := BitVec 4

/-- The 16-bit command word (R74). -/
abbrev CmdWord := BitVec 16

/-- A finite sequence of bytes, indexed from 0 (R9); text is a `Bytes` of ASCII codes. -/
abbrev Bytes := List Byte

/-- The identifier of a Sink agent, which the block only passes on (R27; log 3). -/
abbrev SinkId := Nat

/-- The identifier of a Source agent, which the block only passes on (R30; log 3). -/
abbrev SourceId := Nat

/-- The payload an external Sink or Source attaches to a fault, at which `exec` and `step` run. R7 leaves the type open
("any type with decidable equality") and the machine takes it as an argument: it is the parameter `Token` of `State`,
`execWith` and `stepWith`, of which this is one value. DESIGN CHOICE: tokens of this type are told apart by a number
(log 3). -/
structure IoToken where
  id : Nat
deriving DecidableEq, Repr

end Sys2Proof
end

