-- ==== Sys2Proof/Syntax.lean ====
section
/-! DEFINITION. The commands: the one inductive with a constructor per row of spec/opcode_table.json, the operand
record a command word travels with (30_encoding.md R77), and the command as the Host issues it (R74). -/

namespace Sys2Proof

/-- A decoded command: its mnemonic, the slot handle of the command word where R76 gives one (zero-extended to
`Nat`, R75), and the operand-record fields R77 lists for it. -/
inductive Instr where
  /-- 0x01 N2C, nibble-to-character lookup (R100). -/
  | n2c (nib : Nibble)
  /-- 0x02 C2N, reverse lookup (R101). -/
  | c2n (chr : Byte)
  /-- 0x03 ENCODE into a caller-supplied buffer (R120). -/
  | encode (dst src : Bytes)
  /-- 0x04 APPEND_ENCODE to a growable buffer (R121). -/
  | appendEncode (buf src : Bytes)
  /-- 0x05 ENCODE_TO_TEXT (R122). -/
  | encodeToText (src : Bytes)
  /-- 0x06 DECODE into a caller-supplied buffer (R141). -/
  | decode (dst src : Bytes)
  /-- 0x07 APPEND_DECODE to a growable buffer (R142). -/
  | appendDecode (buf src : Bytes)
  /-- 0x08 DECODE_TEXT (R143). -/
  | decodeText (src : Bytes)
  /-- 0x09 ENCLEN (R160). -/
  | encLen (n : Nat)
  /-- 0x0A DECLEN (R161). -/
  | decLen (n : Nat)
  /-- 0x0B ENC_NEW, construct a streaming encoder (R170). -/
  | encNew (h : Nat) (sink : SinkId)
  /-- 0x0C ENC_WRITE, write on the streaming encoder (R171). -/
  | encWrite (h : Nat) (p : Bytes)
  /-- 0x0D DEC_NEW, construct a streaming decoder (R200). -/
  | decNew (h : Nat) (source : SourceId)
  /-- 0x0E DEC_READ, read on the streaming decoder (R201). -/
  | decRead (h : Nat) (n : Nat)
deriving DecidableEq, Repr

/-- The operand record (R77). DESIGN CHOICE: one record with every field of R77's table; a command reads exactly
the fields R77 lists for its opcode and no others (log 4). -/
structure Operands where
  nib : Nibble
  chr : Byte
  dst : Bytes
  buf : Bytes
  src : Bytes
  n : Nat
  sink : SinkId
  p : Bytes
  source : SourceId
deriving DecidableEq, Repr

/-- The operand record with every field zero or empty. -/
def Operands.zero : Operands where
  nib := 0
  chr := 0
  dst := []
  buf := []
  src := []
  n := 0
  sink := 0
  p := []
  source := 0

/-- A command as the Host issues it: "one 16-bit command word plus an operand record" (R74). -/
structure Command where
  word : CmdWord
  ops : Operands
deriving DecidableEq, Repr

end Sys2Proof
end

