-- ==== Sys2Proof/WellFormed.lean ====
section
/-! DEFINITION. Which terms of `Instr` a command word can spell. Every operand field's type bounds its values
(30_encoding.md R77), so the one thing left to check is that a handle fits its 8-bit field (R74, R82). -/

namespace Sys2Proof

/-- The handle of a streaming command is an unsigned 8-bit value (R82); every other command is well formed. -/
def Instr.wf : Instr → Bool
  | .n2c _ => true
  | .c2n _ => true
  | .encode _ _ => true
  | .appendEncode _ _ => true
  | .encodeToText _ => true
  | .decode _ _ => true
  | .appendDecode _ _ => true
  | .decodeText _ => true
  | .encLen _ => true
  | .decLen _ => true
  | .encNew h _ => decide (h < 256)
  | .encWrite h _ => decide (h < 256)
  | .decNew h _ => decide (h < 256)
  | .decRead h _ => decide (h < 256)

end Sys2Proof
end

