-- ==== Sys2Proof/Decode.lean ====
section
/-! DEFINITION. Decoding a command word with its operand record (30_encoding.md R74-R80), total on all 65 536
words and rejecting by name, and after it the encoder written from the same map. -/

namespace Sys2Proof

/-- Why a command word spells no command (R79). Both raise the model fault ILLEGAL_COMMAND. -/
inductive DecodeError where
  /-- `op` is 0x00 or 0x0F..0xFF: reserved. -/
  | reservedOpcode (op : Byte)
  /-- `h` is not 0x00 for an opcode whose row of R76 says 0x00. -/
  | handleNotZero (op h : Byte)
deriving DecidableEq, Repr

/-- The field `op = cmd[7:0]` (R74). -/
def cmdOp (w : CmdWord) : Byte := w.extractLsb' 0 8

/-- The field `h = cmd[15:8]` (R74). -/
def cmdHandle (w : CmdWord) : Byte := w.extractLsb' 8 8

/-- A command whose row of R76 says `0x00` in the handle column: any other handle is rejected (R79). -/
def noHandle (w : CmdWord) (i : Instr) : Except DecodeError Instr :=
  if cmdHandle w = 0x00#8 then .ok i else .error (.handleNotZero (cmdOp w) (cmdHandle w))

/-- The decoding procedure of R80 over the opcode map of R76; a streaming opcode's handle is zero-extended to
`Nat` (R75), and its range check happens at execution. -/
def decode (w : CmdWord) (o : Operands) : Except DecodeError Instr :=
  match (cmdOp w).toNat with
  | 0x01 => noHandle w (.n2c o.nib)
  | 0x02 => noHandle w (.c2n o.chr)
  | 0x03 => noHandle w (.encode o.dst o.src)
  | 0x04 => noHandle w (.appendEncode o.buf o.src)
  | 0x05 => noHandle w (.encodeToText o.src)
  | 0x06 => noHandle w (.decode o.dst o.src)
  | 0x07 => noHandle w (.appendDecode o.buf o.src)
  | 0x08 => noHandle w (.decodeText o.src)
  | 0x09 => noHandle w (.encLen o.n)
  | 0x0A => noHandle w (.decLen o.n)
  | 0x0B => .ok (.encNew (cmdHandle w).toNat o.sink)
  | 0x0C => .ok (.encWrite (cmdHandle w).toNat o.p)
  | 0x0D => .ok (.decNew (cmdHandle w).toNat o.source)
  | 0x0E => .ok (.decRead (cmdHandle w).toNat o.n)
  | _ => .error (.reservedOpcode (cmdOp w))

/-- The word `(h << 8) | op` (R170, R171, R200, R201). -/
def cmdWord (op : Byte) (h : Nat) : CmdWord := (BitVec.ofNat 16 h <<< 8) ||| op.zeroExtend 16

/-- The command word and the operand record that spell a command (R76, R77). The operand fields the command does
not have are zero or empty. -/
def encode : Instr → CmdWord × Operands
  | .n2c nib => (cmdWord 0x01#8 0, { Operands.zero with nib := nib })
  | .c2n chr => (cmdWord 0x02#8 0, { Operands.zero with chr := chr })
  | .encode dst src => (cmdWord 0x03#8 0, { Operands.zero with dst := dst, src := src })
  | .appendEncode buf src => (cmdWord 0x04#8 0, { Operands.zero with buf := buf, src := src })
  | .encodeToText src => (cmdWord 0x05#8 0, { Operands.zero with src := src })
  | .decode dst src => (cmdWord 0x06#8 0, { Operands.zero with dst := dst, src := src })
  | .appendDecode buf src => (cmdWord 0x07#8 0, { Operands.zero with buf := buf, src := src })
  | .decodeText src => (cmdWord 0x08#8 0, { Operands.zero with src := src })
  | .encLen n => (cmdWord 0x09#8 0, { Operands.zero with n := n })
  | .decLen n => (cmdWord 0x0A#8 0, { Operands.zero with n := n })
  | .encNew h sink => (cmdWord 0x0B#8 h, { Operands.zero with sink := sink })
  | .encWrite h p => (cmdWord 0x0C#8 h, { Operands.zero with p := p })
  | .decNew h source => (cmdWord 0x0D#8 h, { Operands.zero with source := source })
  | .decRead h n => (cmdWord 0x0E#8 h, { Operands.zero with n := n })

/-- The instruction the decoder reads from a table row's word: every command is one 16-bit word (R74), so more
bits than 16 spell nothing, and the operand record is zero (log 24). -/
def decodeTableWord (nbits w : Nat) : Option Instr :=
  if nbits ≤ 16 ∧ w < 2 ^ 16 then (decode (BitVec.ofNat 16 w) Operands.zero).toOption else none

end Sys2Proof
end

