-- ==== Sys2Proof/Config.lean ====
section
/-! DEFINITION. The implementation parameters of 00_scope.md R7, their constraints and the spec's defaults, and
the free values: the contents of a buffer the spec leaves unspecified (10_state.md R38). -/

namespace Sys2Proof

/-- The parameters a model takes (R7). `ENC_CHUNK` is no parameter of its own: it is `ENC_CAP / 2`
(`Params.encChunk`). `LEN_BITS` is the unbounded `Nat` (log 2). `IoToken` is a type, so it is no field here: the state
and every operation take it as the type argument `Token` (Machine/State.lean; log 3). -/
structure Params where
  /-- `ENC_CAP`: bytes of a streaming encoder's internal output buffer. -/
  encCap : Nat
  /-- `DEC_CAP`: bytes of a streaming decoder's backing buffer. -/
  decCap : Nat
  /-- `INVALID`: the C2N sentinel for "not an alphabet character". -/
  invalid : Byte
  /-- `NUM_ENC_SLOTS`: streaming-encoder instance slots. -/
  numEncSlots : Nat
  /-- `NUM_DEC_SLOTS`: streaming-decoder instance slots. -/
  numDecSlots : Nat
deriving DecidableEq, Repr

/-- `ENC_CHUNK = ENC_CAP / 2`: source bytes encoded per Sink write (R7). -/
def Params.encChunk (P : Params) : Nat := P.encCap / 2

/-- The constraints of R7's table. -/
abbrev Params.Valid (P : Params) : Prop :=
  P.encCap % 2 = 0 ∧ 2 ≤ P.encCap ∧ 2 ≤ P.decCap ∧ 15 < P.invalid.toNat ∧
  1 ≤ P.numEncSlots ∧ P.numEncSlots ≤ 256 ∧ 1 ≤ P.numDecSlots ∧ P.numDecSlots ≤ 256

/-- The defaults of R7's table, at which `exec` and `step` run (log 1). -/
def Config.params : Params where
  encCap := 1024
  decCap := 1024
  invalid := 0xFF#8
  numEncSlots := 256
  numDecSlots := 256

/-- FREE VALUE. Byte `i` of the `n`-th buffer whose contents a construction leaves unspecified ("a draw (any
value)", R38). It has no body: no proof can learn a value of it (log 12). -/
opaque Config.freeByte (n i : Nat) : Byte

end Sys2Proof
end

