-- ==== Sys2Proof/Machine/State.lean ====
section
/-! DEFINITION. The machine's state as plain data (10_state.md R20-R39), the records at its interface
(00_scope.md R12, 20_memory.md R56, R57, 30_encoding.md R78), the reasons a step can stop, and power-on. The type
`Token` is R7's open parameter `IoToken`, "any type with decidable equality": every type that holds a token takes it as
an argument, `IoToken` where none is given (log 3). -/

namespace Sys2Proof.Machine

/-- A status (00_scope.md R12; 60_exceptions.md R240). Its code, its payload fields and its 16-bit layout are in
Flags.lean. -/
inductive Status (Token : Type := IoToken) where
  | none
  | invalidByte (c : Byte)
  | oddLength
  | unexpectedEos
  | endOfStream
  | ioFault (t : Token)
deriving DecidableEq, Repr

/-- The model fault reasons recorded in `MF` (60_exceptions.md R251). -/
inductive ModelFault where
  | illegalCommand
  | badHandle
  | dstTooSmall
deriving DecidableEq, Repr

/-- One streaming-encoder instance record `ENC[h]` (10_state.md R27). -/
structure EncSlot (Token : Type := IoToken) where
  /-- The slot holds a constructed encoder. -/
  alloc : Bool
  /-- The Sink the encoder wraps, fixed at construction. -/
  sink : SinkId
  /-- The sticky fault, `none` while none is stored. -/
  fault : Status Token
  /-- The `ENC_CAP` bytes of scratch output buffer. -/
  out : Bytes
deriving DecidableEq, Repr

/-- One streaming-decoder instance record `DEC[h]` (10_state.md R30). -/
structure DecSlot (Token : Type := IoToken) where
  /-- The slot holds a constructed decoder. -/
  alloc : Bool
  /-- The Source the decoder wraps, fixed at construction. -/
  source : SourceId
  /-- The sticky fault, the stored end-of-stream condition included, `none` while none is stored. -/
  fault : Status Token
  /-- The `DEC_CAP` bytes of backing buffer. -/
  arr : Bytes
  /-- Start of the pending view in `arr`. -/
  off : Nat
  /-- Length of the pending view. -/
  len : Nat
deriving DecidableEq, Repr

/-- A Sink's answer to one call: `w` bytes accepted and a signal, NONE (`Option.none`) or IO_FAULT(t)
(20_memory.md R56). -/
structure SinkAnswer (Token : Type := IoToken) where
  w : Nat
  sig : Option Token
deriving DecidableEq, Repr

/-- The signals a Source may give (20_memory.md R57). -/
inductive SourceSig (Token : Type := IoToken) where
  | none
  | endOfStream
  | ioFault (t : Token)
deriving DecidableEq, Repr

/-- A Source's answer to one call: the bytes delivered and a signal (20_memory.md R57). -/
structure SourceAnswer (Token : Type := IoToken) where
  v : Bytes
  sig : SourceSig Token
deriving DecidableEq, Repr

/-- A call the block made to an agent, with the answer it got (20_memory.md R56, R57). -/
inductive AgentCall (Token : Type := IoToken) where
  /-- `SinkWrite(k, v)` answered `a`. -/
  | sinkWrite (k : SinkId) (v : Bytes) (a : SinkAnswer Token)
  /-- `SourceRead(k, r)` answered `a`. -/
  | sourceRead (k : SourceId) (r : Nat) (a : SourceAnswer Token)
deriving DecidableEq, Repr

/-- A response record `(count, data, status)` (30_encoding.md R78). -/
structure Response (Token : Type := IoToken) where
  count : Nat
  data : Bytes
  status : Status Token
deriving DecidableEq, Repr

/-- Why a step stops the machine. 20_memory.md R51: "Every index outside a space's size is never formed by the
rules"; these are the accesses that would form one. SAFE: no state that meets `State.Inv` reaches one
(Safety.lean), and where one is reached the model only stops (log 11, log 18). -/
inductive Fault where
  /-- Raised by ENC_WRITE for an index outside `ENC[h].out`. Safe. -/
  | outIndex
  /-- Raised by DEC_READ for an index outside `DEC[h].arr`. Safe. -/
  | arrIndex
  /-- Raised by the four streaming commands when the state holds no record for a slot the parameters give it. Safe. -/
  | slotIndex
deriving DecidableEq, Repr

/-- Why a command gets no meaning. -/
inductive Refusal where
  /-- Raised by an arm of `exec` that has no meaning yet. Safe. -/
  | notModelled (mnemonic : String)
  /-- Raised by ENC_WRITE when the Sink's next answer is `w > |v|`: "outside the model: the model's Sink oracle
  cannot give it" (70_reset_and_hazards.md R287; 93 I12 "refuse"; log 9). Safe. -/
  | sinkAnswerOutsideContract
  /-- Raised by DEC_READ when the Source's next answer is `|v| > r`: "outside the model" (R288; 93 I12 "refuse";
  log 9). Safe. -/
  | sourceAnswerOutsideContract
deriving DecidableEq, Repr

/-- The machine's state: the two slot files and the model fault record (10_state.md R27, R30, R36), the interface
to the Host and to the agents as plain data, and the model's own counter of free buffer contents. -/
structure State (Token : Type := IoToken) where
  /-- `ENC[h]`, `0 <= h < NUM_ENC_SLOTS` (R27). -/
  enc : List (EncSlot Token)
  /-- `DEC[h]`, `0 <= h < NUM_DEC_SLOTS` (R30). -/
  dec : List (DecSlot Token)
  /-- The model fault record `MF`, oldest first (R36). -/
  mf : List ModelFault
  /-- The commands the Host has issued and the block has not yet performed, oldest first (R59, R62; log 5). -/
  cmds : List Command
  /-- The responses returned, oldest first (R6; log 6). -/
  responses : List (Response Token)
  /-- The answers the Sinks give to the calls to come: Sink `k`'s next answer is the first entry for `k` (log 7). A call
  with no entry for `k` waits (log 8). -/
  sinkAnswers : List (SinkId × SinkAnswer Token)
  /-- The answers the Sources give to the calls to come, likewise (log 7). -/
  sourceAnswers : List (SourceId × SourceAnswer Token)
  /-- The agent calls made, oldest first (R60; log 10). -/
  calls : List (AgentCall Token)
  /-- The MODEL's own: how many free buffer contents have been drawn (log 12). -/
  draws : Nat
deriving DecidableEq, Repr

/-- An unallocated encoder slot at power-on: `alloc = 0` (R37). DESIGN CHOICE: the other fields, which R37 leaves
unspecified and unobservable, are zero (log 13). -/
def EncSlot.powerOn (P : Params) (Token : Type := IoToken) : EncSlot Token where
  alloc := false
  sink := 0
  fault := .none
  out := List.replicate P.encCap 0

/-- An unallocated decoder slot at power-on: `alloc = 0` (R37). DESIGN CHOICE: the other fields are zero (log 13). -/
def DecSlot.powerOn (P : Params) (Token : Type := IoToken) : DecSlot Token where
  alloc := false
  source := 0
  fault := .none
  arr := List.replicate P.decCap 0
  off := 0
  len := 0

/-- The power-on state at given parameters (R37, R280): every slot unallocated, `MF` empty; nothing issued (log 5),
nothing returned, no agent called. DESIGN CHOICE: `sinkAnswers` and `sourceAnswers` are empty. R37 and R280 give them no
value and R8 calls the answers draws; so from this state every agent call waits until answers are placed from outside, as
commands are (log 27). -/
def State.powerOn (P : Params) (Token : Type := IoToken) : State Token where
  enc := List.replicate P.numEncSlots (EncSlot.powerOn P Token)
  dec := List.replicate P.numDecSlots (DecSlot.powerOn P Token)
  mf := []
  cmds := []
  responses := []
  sinkAnswers := []
  sourceAnswers := []
  calls := []
  draws := 0

/-- The machine right after its one reset, power-on (R280), at the default parameters. -/
def State.reset : State := State.powerOn Config.params

end Sys2Proof.Machine
end

