-- ==== Sys2Proof/Machine/Ops.lean ====
section
/-! DEFINITION. The shared operations: transactions and their outcomes, the response and the model fault of a
command (00_scope.md R6, R11, 60_exceptions.md R250), buffer accesses (R11), slot files, and the two agent call
primitives (20_memory.md R56, R57). -/

namespace Sys2Proof.Machine

variable {Token : Type}

/-! ## Transactions -/

/-- What part of a transaction gives: a value, the wait for an agent that has not answered, or a stop. -/
inductive Txn (α : Type) where
  | done (a : α)
  /-- A Sink or Source has not answered yet: "the block waits" (R287, R288). -/
  | waits
  | fault (f : Fault)
  | refuse (r : Refusal)

/-- Run `x`, then `f` on its value. -/
def Txn.andThen {α β : Type} (x : Txn α) (f : α → Txn β) : Txn β :=
  match x with
  | .done a => f a
  | .waits => .waits
  | .fault e => .fault e
  | .refuse r => .refuse r

/-- The outcome of a whole transaction that began in `s`. A transaction is atomic (R6, R55): one whose agent has
not answered leaves the state as it was, the command still to be performed (log 8). -/
def conclude (s : State Token) : Txn (State Token) → Host.Outcome (State Token) Fault Refusal
  | .done t => .next t
  | .waits => .next s
  | .fault e => .fault e
  | .refuse r => .refused r

/-! ## The end of a command -/

/-- The command the block performs next: the oldest one the Host has issued (R59, R62). -/
def fetch (s : State Token) : Option Command := s.cmds.head?

/-- `return (count, data, status)`: the transaction ends with that response and the command is done (R6, R11). -/
def State.respond (s : State Token) (r : Response Token) : State Token :=
  { s with cmds := s.cmds.tail, responses := s.responses ++ [r] }

/-- `raise Fault(reason)`: no state of the block is written, no response is returned, the reason is appended to
`MF`, and the command is done; the block goes on with the next one (R36, R250; log 14). This is the one exception
entry of the block; there is no return from it (R252, R253). -/
def State.raiseFault (s : State Token) (m : ModelFault) : State Token :=
  { s with cmds := s.cmds.tail, mf := s.mf ++ [m] }

/-- A command word that spells no command (R79). -/
def illegalCommand (s : State Token) : State Token := s.raiseFault .illegalCommand

/-! ## Buffers: `MemRead` and `MemWrite` of R11 -/

/-- `MemRead(B, a, n)`, that is `B[a : a+n]`. An index outside the buffer is the fault `f` (R51; log 11). -/
def memRead (f : Fault) (B : Bytes) (a n : Nat) : Txn Bytes :=
  if a + n ≤ B.length then .done ((B.drop a).take n) else .fault f

/-- `MemRead(B, a, 1)` as the byte it gives. -/
def memByte (f : Fault) (B : Bytes) (a : Nat) : Txn Byte :=
  match B[a]? with
  | some b => .done b
  | none => .fault f

/-- `MemWrite(B, a, |v|, v)`: `B[a+i] <- v[i]` for every `i < |v|`, the rest unchanged. -/
def memWrite (f : Fault) (B : Bytes) (a : Nat) (v : Bytes) : Txn Bytes :=
  if a + v.length ≤ B.length then .done (B.take a ++ v ++ B.drop (a + v.length)) else .fault f

/-- `any n bytes`: the `d`-th free buffer contents, whose bytes are free values (R38; log 12). -/
def freeBytes (d n : Nat) : Bytes := (List.range n).map (Config.freeByte d)

/-! ## Slot files -/

/-- `ENC[h] <- E`. -/
def State.putEnc (s : State Token) (h : Nat) (E : EncSlot Token) : State Token := { s with enc := s.enc.set h E }

/-- `DEC[h] <- D`. -/
def State.putDec (s : State Token) (h : Nat) (D : DecSlot Token) : State Token := { s with dec := s.dec.set h D }

/-- One free buffer contents has been drawn. -/
def State.drew (s : State Token) : State Token := { s with draws := s.draws + 1 }

/-! ## Agent calls -/

/-- Agent `k`'s next answer, the first entry for `k`, and the answers that remain. -/
def popAnswer {α : Type} (k : Nat) : List (Nat × α) → Option (α × List (Nat × α))
  | [] => none
  | (j, a) :: rest =>
    if j = k then some (a, rest)
    else (popAnswer k rest).map fun (b, rest') => (b, (j, a) :: rest')

/-- `SinkWrite(k, v)` (R56): the Sink's next answer and the state with the call recorded. No answer yet: the block
waits (R287). An answer outside the contract is not in the Sink's answer space and is refused (R287; log 9). -/
def sinkWrite (k : SinkId) (v : Bytes) (s : State Token) : Txn (SinkAnswer Token × State Token) :=
  match popAnswer k s.sinkAnswers with
  | none => .waits
  | some (a, rest) =>
    if a.w ≤ v.length then
      .done (a, { s with sinkAnswers := rest, calls := s.calls ++ [.sinkWrite k v a] })
    else .refuse .sinkAnswerOutsideContract

/-- `SourceRead(k, r)` (R57), likewise (R288). -/
def sourceRead (k : SourceId) (r : Nat) (s : State Token) : Txn (SourceAnswer Token × State Token) :=
  match popAnswer k s.sourceAnswers with
  | none => .waits
  | some (a, rest) =>
    if a.v.length ≤ r then
      .done (a, { s with sourceAnswers := rest, calls := s.calls ++ [.sourceRead k r a] })
    else .refuse .sourceAnswerOutsideContract

end Sys2Proof.Machine
end

