-- ==== Sys2Proof/Machine/LengthHelpers.lean ====
section
/-! DEFINITION. The length helpers ENCLEN and DECLEN (43_length_helpers.md R160, R161), exact on `Nat` (log 2). -/

namespace Sys2Proof.Machine

variable {Token : Type}

/-- `EncodedLength(n) = 2 * n` (R160). -/
def encodedLength (n : Nat) : Nat := 2 * n

/-- `DecodedLength(n) = floor(n / 2)` (R161). -/
def decodedLength (n : Nat) : Nat := n / 2

/-- ENCLEN (R160). -/
def encLenWith (_P : Params) (n : Nat) (s : State Token) : Host.Outcome (State Token) Fault Refusal :=
  .next (s.respond ⟨encodedLength n, [], .none⟩)

/-- DECLEN (R161). -/
def decLenWith (_P : Params) (n : Nat) (s : State Token) : Host.Outcome (State Token) Fault Refusal :=
  .next (s.respond ⟨decodedLength n, [], .none⟩)

/-- ENCLEN at the default parameters. -/
def execEncLen (n : Nat) (s : State) : Host.Outcome State Fault Refusal := encLenWith Config.params n s

/-- DECLEN at the default parameters. -/
def execDecLen (n : Nat) (s : State) : Host.Outcome State Fault Refusal := decLenWith Config.params n s

end Sys2Proof.Machine
end

