-- ==== Sys2Proof/Machine/Tables.lean ====
section
/-! DEFINITION. The two constant lookup tables, N2C (10_state.md R20) and C2N (R21), and validity (R23). No command
writes them (R24), so they are no field of State (log 16). The codes are ASCII (R70; log 15). -/

namespace Sys2Proof.Machine

/-- The alphabet `z y x w v u t s r q p o n m l k`, indexed by nibble (R20). -/
def n2cTable : List Byte :=
  [0x7A#8, 0x79#8, 0x78#8, 0x77#8, 0x76#8, 0x75#8, 0x74#8, 0x73#8,
   0x72#8, 0x71#8, 0x70#8, 0x6F#8, 0x6E#8, 0x6D#8, 0x6C#8, 0x6B#8]

/-- `N2C[n]` (R20). -/
def n2c (n : Nibble) : Byte := n2cTable.getD n.toNat 0#8

/-- `C2N[c]` (R21): both cases of the 16 letters give the nibble, every other byte gives `INVALID`. -/
def c2n (P : Params) (c : Byte) : Byte :=
  if 0x6B ≤ c.toNat ∧ c.toNat ≤ 0x7A then 0x7A#8 - c
  else if 0x4B ≤ c.toNat ∧ c.toNat ≤ 0x5A then 0x5A#8 - c
  else P.invalid

/-- A byte is a valid character exactly when its entry is at most 15: the magnitude comparison of R23. -/
def validChar (P : Params) (c : Byte) : Bool := decide ((c2n P c).toNat ≤ 15)

end Sys2Proof.Machine
end

