-- ==== Sys2Proof/Machine/Lookup.lean ====
section
/-! DEFINITION. The lookup engines as commands: N2C and C2N (40_lookup_engines.md R100, R101). Each meaning is the
parametric operation (`…With P`) at the default parameters (log 1). -/

namespace Sys2Proof.Machine

variable {Token : Type}

/-- N2C (R100): `(1, [N2C[nib]], NONE)`. -/
def n2cWith (_P : Params) (nib : Nibble) (s : State Token) : Host.Outcome (State Token) Fault Refusal :=
  .next (s.respond ⟨1, [n2c nib], .none⟩)

/-- C2N (R101): `(1, [C2N[chr]], NONE)`; the sentinel is returned, not turned into an error. -/
def c2nWith (P : Params) (chr : Byte) (s : State Token) : Host.Outcome (State Token) Fault Refusal :=
  .next (s.respond ⟨1, [c2n P chr], .none⟩)

/-- N2C at the default parameters. -/
def execN2c (nib : Nibble) (s : State) : Host.Outcome State Fault Refusal := n2cWith Config.params nib s

/-- C2N at the default parameters. -/
def execC2n (chr : Byte) (s : State) : Host.Outcome State Fault Refusal := c2nWith Config.params chr s

end Sys2Proof.Machine
end

