-- ==== Sys2Proof/Machine/Operands.lean ====
section
/-! DEFINITION. The operand forms: the nibbles of a byte and the packing of two of them (00_scope.md R10,
20_memory.md R52), and the caller buffers that travel by value (20_memory.md R50): the destination buffer and the
growable buffer. -/

namespace Sys2Proof.Machine

/-- `b >> 4`, that is `b[7:4]` (R10). -/
def hiNibble (b : Byte) : Nibble := b.extractLsb' 4 4

/-- `b & 0x0F`, that is `b[3:0]` (R10). -/
def loNibble (b : Byte) : Nibble := b.extractLsb' 0 4

/-- `(h << 4) | l` for nibbles given as table entries at most 15 (R10, R72). -/
def packByte (h l : Byte) : Byte := (h <<< 4) ||| l

/-- A destination buffer with `t` written from its start: the bytes past `|t|` are unchanged (R120, R141). -/
def fillDst (dst t : Bytes) : Bytes := t ++ dst.drop t.length

/-- A growable buffer extended by `t`: the existing contents are neither read nor changed (R121, R142). -/
def growBuf (buf t : Bytes) : Bytes := buf ++ t

end Sys2Proof.Machine
end

