-- ==== Sys2Proof/Machine/Codec.lean ====
section
/-! DEFINITION. The two one-shot primitives over byte sequences: `enc` (30_encoding.md R71, 41_oneshot_encode.md
R120) and `dec` (42_oneshot_decode.md R140). -/

namespace Sys2Proof.Machine

/-- The two characters of a byte, high nibble first (R71). -/
def enc2 (b : Byte) : Bytes := [n2c (hiNibble b), n2c (loNibble b)]

/-- `enc(src)`: the per-byte rule, left to right (R120). -/
def enc : Bytes → Bytes
  | [] => []
  | b :: rest => enc2 b ++ enc rest

/-- `dec(src) -> (out, status)` (R140): pairs left to right, the high character checked before the low one (R144);
a trailing character is never decoded, and an invalid one takes priority over the odd length (R145). -/
def dec (P : Params) (src : Bytes) (Token : Type := IoToken) : Bytes × Status Token :=
  match src with
  | [] => ([], .none)
  | [c] => if validChar P c then ([], .oddLength) else ([], .invalidByte c)
  | p :: q :: rest =>
    if validChar P p then
      if validChar P q then
        let r := dec P rest Token
        (packByte (c2n P p) (c2n P q) :: r.1, r.2)
      else ([], .invalidByte q)
    else ([], .invalidByte p)

end Sys2Proof.Machine
end

