-- ==== Sys2Proof/Machine/OneShotDecode.lean ====
section
/-! DEFINITION. The one-shot decode commands: DECODE, APPEND_DECODE and DECODE_TEXT (42_oneshot_decode.md R141,
R142, R143). -/

namespace Sys2Proof.Machine

variable {Token : Type}

/-- DECODE (R141): the model fault DST_TOO_SMALL when `|dst| < |src| / 2`, checked before the text is read; else
the decoded bytes from the start of `dst`, partial output kept, with the primitive's status. -/
def decodeWith (P : Params) (dst src : Bytes) (s : State Token) : Host.Outcome (State Token) Fault Refusal :=
  if dst.length < src.length / 2 then .next (s.raiseFault .dstTooSmall)
  else .next (s.respond ⟨(dec P src Token).1.length, fillDst dst (dec P src Token).1, (dec P src Token).2⟩)

/-- APPEND_DECODE (R142): the decoded bytes appended, an error included. -/
def appendDecodeWith (P : Params) (buf src : Bytes) (s : State Token) : Host.Outcome (State Token) Fault Refusal :=
  .next (s.respond ⟨(growBuf buf (dec P src Token).1).length, growBuf buf (dec P src Token).1, (dec P src Token).2⟩)

/-- DECODE_TEXT (R143). -/
def decodeTextWith (P : Params) (src : Bytes) (s : State Token) : Host.Outcome (State Token) Fault Refusal :=
  .next (s.respond ⟨(dec P src Token).1.length, (dec P src Token).1, (dec P src Token).2⟩)

/-- DECODE at the default parameters. -/
def execDecode (dst src : Bytes) (s : State) : Host.Outcome State Fault Refusal :=
  decodeWith Config.params dst src s

/-- APPEND_DECODE at the default parameters. -/
def execAppendDecode (buf src : Bytes) (s : State) : Host.Outcome State Fault Refusal :=
  appendDecodeWith Config.params buf src s

/-- DECODE_TEXT at the default parameters. -/
def execDecodeText (src : Bytes) (s : State) : Host.Outcome State Fault Refusal :=
  decodeTextWith Config.params src s

end Sys2Proof.Machine
end

