-- ==== Sys2Proof/Machine/OneShotEncode.lean ====
section
/-! DEFINITION. The one-shot encode commands: ENCODE, APPEND_ENCODE and ENCODE_TO_TEXT (41_oneshot_encode.md R120,
R121, R122). -/

namespace Sys2Proof.Machine

variable {Token : Type}

/-- ENCODE (R120): the model fault DST_TOO_SMALL when `|dst| < 2 * |src|`, else the text from the start of `dst`. -/
def encodeWith (_P : Params) (dst src : Bytes) (s : State Token) : Host.Outcome (State Token) Fault Refusal :=
  if dst.length < 2 * src.length then .next (s.raiseFault .dstTooSmall)
  else .next (s.respond ⟨2 * src.length, fillDst dst (enc src), .none⟩)

/-- APPEND_ENCODE (R121): the text appended, the count the extended buffer's length. -/
def appendEncodeWith (_P : Params) (buf src : Bytes) (s : State Token) : Host.Outcome (State Token) Fault Refusal :=
  .next (s.respond ⟨(growBuf buf (enc src)).length, growBuf buf (enc src), .none⟩)

/-- ENCODE_TO_TEXT (R122). -/
def encodeToTextWith (_P : Params) (src : Bytes) (s : State Token) : Host.Outcome (State Token) Fault Refusal :=
  .next (s.respond ⟨(enc src).length, enc src, .none⟩)

/-- ENCODE at the default parameters. -/
def execEncode (dst src : Bytes) (s : State) : Host.Outcome State Fault Refusal :=
  encodeWith Config.params dst src s

/-- APPEND_ENCODE at the default parameters. -/
def execAppendEncode (buf src : Bytes) (s : State) : Host.Outcome State Fault Refusal :=
  appendEncodeWith Config.params buf src s

/-- ENCODE_TO_TEXT at the default parameters. -/
def execEncodeToText (src : Bytes) (s : State) : Host.Outcome State Fault Refusal :=
  encodeToTextWith Config.params src s

end Sys2Proof.Machine
end

