-- ==== Sys2Proof/Machine/Flags.lean ====
section
/-! DEFINITION. Status codes and the status word (60_exceptions.md R240), the fault flag (10_state.md R35), the
signals as statuses, and the phases of a streaming instance (10_state.md R33, R34). -/

namespace Sys2Proof.Machine

variable {Token : Type} [DecidableEq Token]

/-- The field `code` (R240). -/
def Status.code : Status Token → Byte
  | .none => 0#8
  | .invalidByte _ => 1#8
  | .oddLength => 2#8
  | .unexpectedEos => 3#8
  | .endOfStream => 4#8
  | .ioFault _ => 5#8

/-- The field `chr`: the offending character for INVALID_BYTE and 0 otherwise (R12). -/
def Status.chr : Status Token → Byte
  | .invalidByte c => c
  | _ => 0#8

/-- The field `io`: the pass-through token for IO_FAULT and absent otherwise (R12). -/
def Status.io : Status Token → Option Token
  | .ioFault t => some t
  | _ => Option.none

/-- The 16-bit status word: `code` in bits 7:0 and `chr` in bits 15:8 (R240). -/
def Status.word (st : Status Token) : BitVec 16 := (st.chr.zeroExtend 16 <<< 8) ||| st.code.zeroExtend 16

/-- The status a word and an `io` token spell, where they spell one: codes 6..255 are never produced (R240). -/
def statusOfWord (w : BitVec 16) (io : Option Token) : Option (Status Token) :=
  match (w.extractLsb' 0 8).toNat, (w.extractLsb' 8 8), io with
  | 0, 0#8, Option.none => some .none
  | 1, c, Option.none => some (.invalidByte c)
  | 2, 0#8, Option.none => some .oddLength
  | 3, 0#8, Option.none => some .unexpectedEos
  | 4, 0#8, Option.none => some .endOfStream
  | 5, 0#8, some t => some (.ioFault t)
  | _, _, _ => Option.none

/-- An instance's fault flag is set exactly when its `fault.code != 0` (R35). -/
def faultFlag (st : Status Token) : Bool := st.code != 0#8

/-- The fault after an agent's answer: a signal other than NONE is stored, NONE leaves the fault as it was
(R171, R173). -/
def sinkFault (sig : Option Token) (old : Status Token) : Status Token :=
  match sig with
  | Option.none => old
  | some t => .ioFault t

/-- Likewise for a Source's signal (R201, R203). -/
def sourceFault (sig : SourceSig Token) (old : Status Token) : Status Token :=
  match sig with
  | .none => old
  | .endOfStream => .endOfStream
  | .ioFault t => .ioFault t

/-- The phases of an encoder between transactions (R34). -/
inductive EncPhase where
  | active
  | faulted
deriving DecidableEq, Repr

/-- ACTIVE when the fault is NONE and FAULTED otherwise (R34). -/
def EncSlot.phase (E : EncSlot Token) : EncPhase := if E.fault = .none then .active else .faulted

/-- The phases of a decoder between transactions (R33). -/
inductive DecPhase where
  | idle
  | draining
  | faulted
deriving DecidableEq, Repr

/-- The phase table of R33. -/
def DecSlot.phase (D : DecSlot Token) : DecPhase :=
  if D.fault = .none then .idle else if 2 ≤ D.len then .draining else .faulted

end Sys2Proof.Machine
end

