-- ==== Sys2Proof/Machine/StreamDecoder.lean ====
section
/-! DEFINITION. The streaming decoder: DEC_NEW and DEC_READ (45_stream_decoder.md R200-R213). -/

namespace Sys2Proof.Machine

variable {Token : Type} [DecidableEq Token]

/-- A newly constructed decoder (R38, R200): the buffer contents are the free contents number `d` (log 12). -/
def freshDec (P : Params) (source : SourceId) (d : Nat) : DecSlot Token where
  alloc := true
  source := source
  fault := .none
  arr := freeBytes d P.decCap
  off := 0
  len := 0

/-- DEC_NEW (R200). No Source call is made; an old instance in the slot is discarded, its pending bytes and fault
included. -/
def decNewWith (P : Params) (h : Nat) (source : SourceId) (s : State Token) : Host.Outcome (State Token) Fault Refusal :=
  if P.numDecSlots ≤ h then .next (s.raiseFault .badHandle)
  else if s.dec.length ≤ h then .fault .slotIndex
  else .next ((s.drew.putDec h (freshDec P source s.draws)).respond ⟨0, [], .none⟩)

/-- The backing buffer after the refill (R202): the leftover byte, if there is one, at the front, then the bytes
the Source delivered. -/
def refill (D : DecSlot Token) (v : Bytes) : Txn Bytes :=
  (if D.len = 1 then
    (memRead .arrIndex D.arr D.off 1).andThen fun x => memWrite .arrIndex D.arr 0 x
  else .done D.arr).andThen fun arr =>
  memWrite .arrIndex arr D.len v

/-- The fault after a fill that left `len` bytes in `arr` (R203): at end of stream an odd final byte is INVALID_BYTE
when it is no character and UNEXPECTED_EOS when it is; otherwise a signal other than NONE is stored. -/
def fillFault (P : Params) (arr : Bytes) (len : Nat) (sig : SourceSig Token) (old : Status Token) : Txn (Status Token) :=
  if sig = .endOfStream ∧ len % 2 = 1 then
    (memByte .arrIndex arr (len - 1)).andThen fun c =>
    .done (if validChar P c then .unexpectedEos else .invalidByte c)
  else .done (sourceFault sig old)

/-- FILLING (R202, R203): the decoder after the Source's answer `a`; the pending view starts at index 0. -/
def fillStep (P : Params) (D : DecSlot Token) (a : SourceAnswer Token) : Txn (DecSlot Token) :=
  (refill D a.v).andThen fun arr =>
  (fillFault P arr (D.len + a.v.length) a.sig D.fault).andThen fun f =>
  .done { D with arr := arr, off := 0, len := D.len + a.v.length, fault := f }

/-- DECODING (R204-R206): `min(n, len / 2)` pairs from the front of the pending view; an error discards the rest of
the pending view and is stored. Gives the decoder and the decoded bytes. -/
def decodeStep (P : Params) (D : DecSlot Token) (n : Nat) : Txn (DecSlot Token × Bytes) :=
  let m := min n (D.len / 2)
  (memRead .arrIndex D.arr D.off (2 * m)).andThen fun src =>
  if (dec P src Token).2 = .none then
    .done ({ D with off := D.off + 2 * m, len := D.len - 2 * m }, (dec P src Token).1)
  else .done ({ D with off := 0, len := 0, fault := (dec P src Token).2 }, (dec P src Token).1)

/-- SURFACING (R207): the stored fault only when fewer than 2 bytes are pending. -/
def surfaced (D : DecSlot Token) : Status Token := if D.len < 2 then D.fault else .none

/-- The transaction of DEC_READ on the decoder `D` in slot `h` (R201). The Source is called exactly when fewer than
2 bytes are pending and no fault is stored, whatever `n` is (R210). -/
def decTransaction (P : Params) (h n : Nat) (D : DecSlot Token) (s : State Token) : Txn (State Token) :=
  (if D.len < 2 ∧ D.fault = .none then
    (sourceRead D.source (P.decCap - D.len) s).andThen fun (a, t) =>
    (fillStep P D a).andThen fun D' => .done (D', t)
  else .done (D, s)).andThen fun (D', t) =>
  (decodeStep P D' n).andThen fun (D'', out) =>
  .done ((t.putDec h D'').respond ⟨out.length, out, surfaced D''⟩)

/-- DEC_READ (R201). -/
def decReadWith (P : Params) (h n : Nat) (s : State Token) : Host.Outcome (State Token) Fault Refusal :=
  if P.numDecSlots ≤ h then .next (s.raiseFault .badHandle)
  else match s.dec[h]? with
    | none => .fault .slotIndex
    | some D =>
      if D.alloc then conclude s (decTransaction P h n D s) else .next (s.raiseFault .badHandle)

/-- DEC_NEW at the default parameters. -/
def execDecNew (h : Nat) (source : SourceId) (s : State) : Host.Outcome State Fault Refusal :=
  decNewWith Config.params h source s

/-- DEC_READ at the default parameters. -/
def execDecRead (h n : Nat) (s : State) : Host.Outcome State Fault Refusal :=
  decReadWith Config.params h n s

end Sys2Proof.Machine
end

