-- ==== Sys2Proof/Machine/StreamEncoder.lean ====
section
/-! DEFINITION. The streaming encoder: ENC_NEW and ENC_WRITE (44_stream_encoder.md R170-R179). -/

namespace Sys2Proof.Machine

variable {Token : Type} [DecidableEq Token]

/-- A newly constructed encoder (R38, R170): the buffer contents are the free contents number `d` (log 12). -/
def freshEnc (P : Params) (sink : SinkId) (d : Nat) : EncSlot Token where
  alloc := true
  sink := sink
  fault := .none
  out := freeBytes d P.encCap

/-- ENC_NEW (R170). No Sink call is made; an old instance in the slot is discarded, its fault included. -/
def encNewWith (P : Params) (h : Nat) (sink : SinkId) (s : State Token) : Host.Outcome (State Token) Fault Refusal :=
  if P.numEncSlots ≤ h then .next (s.raiseFault .badHandle)
  else if s.enc.length ≤ h then .fault .slotIndex
  else .next ((s.drew.putEnc h (freshEnc P sink s.draws)).respond ⟨0, [], .none⟩)

/-- The loop of R171 from progress `n` and remaining payload `p`, for at most `fuel` passes (a pass takes at least
one byte, so `|p|` passes are enough). Each pass takes a chunk of at most ENC_CHUNK bytes (R172), encodes it into
the buffer, hands it to the Sink, adds `w / 2` to the progress and stores a signalled fault (R173). -/
def encLoop (P : Params) : (fuel n : Nat) → (p : Bytes) →
    EncSlot Token → State Token → Txn (Nat × EncSlot Token × State Token)
  | 0, n, _, E, s => .done (n, E, s)
  | fuel + 1, n, p, E, s =>
    if 0 < p.length ∧ E.fault = .none then
      let c := min p.length P.encChunk
      (memWrite .outIndex E.out 0 (enc (p.take c))).andThen fun out =>
      (memRead .outIndex out 0 (2 * c)).andThen fun v =>
      (sinkWrite E.sink v s).andThen fun (a, t) =>
      encLoop P fuel (n + a.w / 2) (p.drop c) { E with out := out, fault := sinkFault a.sig E.fault } t
    else .done (n, E, s)

/-- The transaction of ENC_WRITE on the encoder `E` in slot `h`: the loop, then the response `(n, [], fault)` (R175). -/
def encTransaction (P : Params) (h : Nat) (p : Bytes) (E : EncSlot Token) (s : State Token) : Txn (State Token) :=
  (encLoop P p.length 0 p E s).andThen fun (n, E', t) =>
  .done ((t.putEnc h E').respond ⟨n, [], E'.fault⟩)

/-- ENC_WRITE (R171). -/
def encWriteWith (P : Params) (h : Nat) (p : Bytes) (s : State Token) : Host.Outcome (State Token) Fault Refusal :=
  if P.numEncSlots ≤ h then .next (s.raiseFault .badHandle)
  else match s.enc[h]? with
    | none => .fault .slotIndex
    | some E =>
      if E.alloc then conclude s (encTransaction P h p E s) else .next (s.raiseFault .badHandle)

/-- ENC_NEW at the default parameters. -/
def execEncNew (h : Nat) (sink : SinkId) (s : State) : Host.Outcome State Fault Refusal :=
  encNewWith Config.params h sink s

/-- ENC_WRITE at the default parameters. -/
def execEncWrite (h : Nat) (p : Bytes) (s : State) : Host.Outcome State Fault Refusal :=
  encWriteWith Config.params h p s

end Sys2Proof.Machine
end

