-- ==== Sys2Proof/Machine/Dispatch.lean ====
section
/-! DEFINITION. One arm per command. -/

namespace Sys2Proof.Machine

def exec (i : Instr) (s : State) : Host.Outcome State Fault Refusal :=
  match i with
  | .n2c nib => Sys2Proof.Machine.execN2c nib s
  | .c2n chr => Sys2Proof.Machine.execC2n chr s
  | .encode dst src => Sys2Proof.Machine.execEncode dst src s
  | .appendEncode buf src => Sys2Proof.Machine.execAppendEncode buf src s
  | .encodeToText src => Sys2Proof.Machine.execEncodeToText src s
  | .decode dst src => Sys2Proof.Machine.execDecode dst src s
  | .appendDecode buf src => Sys2Proof.Machine.execAppendDecode buf src s
  | .decodeText src => Sys2Proof.Machine.execDecodeText src s
  | .encLen n => Sys2Proof.Machine.execEncLen n s
  | .decLen n => Sys2Proof.Machine.execDecLen n s
  | .encNew h sink => Sys2Proof.Machine.execEncNew h sink s
  | .encWrite h p => Sys2Proof.Machine.execEncWrite h p s
  | .decNew h source => Sys2Proof.Machine.execDecNew h source s
  | .decRead h n => Sys2Proof.Machine.execDecRead h n s

end Sys2Proof.Machine
end

