-- ==== Sys2Proof/Machine/Parametric.lean ====
section
/-! DEFINITION. The machine at any parameters: 00_scope.md R7 has the model take them as an argument, the numbers as
`P : Params` and the open type `IoToken` as `Token`. `exec` is
`execWith` at the defaults (Laws/Parametric.lean), and `step` is `stepWith` at the defaults. -/

namespace Sys2Proof.Machine

variable {Token : Type} [DecidableEq Token]

/-- One command at the parameters `P` and the token type `Token` (R7). -/
def execWith (P : Params) (i : Instr) (s : State Token) : Host.Outcome (State Token) Fault Refusal :=
  match i with
  | .n2c nib => n2cWith P nib s
  | .c2n chr => c2nWith P chr s
  | .encode dst src => encodeWith P dst src s
  | .appendEncode buf src => appendEncodeWith P buf src s
  | .encodeToText src => encodeToTextWith P src s
  | .decode dst src => decodeWith P dst src s
  | .appendDecode buf src => appendDecodeWith P buf src s
  | .decodeText src => decodeTextWith P src s
  | .encLen n => encLenWith P n s
  | .decLen n => decLenWith P n s
  | .encNew h sink => encNewWith P h sink s
  | .encWrite h p => encWriteWith P h p s
  | .decNew h source => decNewWith P h source s
  | .decRead h n => decReadWith P h n s

/-- One transaction: the oldest issued command is decoded and run by `run`; a word that spells no command raises
ILLEGAL_COMMAND (R79); with no command issued the block is idle (R292; log 5). -/
def transact (run : Instr → State Token → Host.Outcome (State Token) Fault Refusal) (s : State Token) :
    Host.Outcome (State Token) Fault Refusal :=
  match fetch s with
  | none => .next s
  | some c =>
    match decode c.word c.ops with
    | .error _ => .next (illegalCommand s)
    | .ok i => run i s

/-- One step at the parameters `P` and the token type `Token` (R7). -/
def stepWith (P : Params) (s : State Token) : Host.Outcome (State Token) Fault Refusal := transact (execWith P) s

/-- The state in which the Host's next command is the word `w` with a zero operand record (log 24): it takes the
place of the command that would have been performed next. -/
def issueWord (s : State Token) (w : Nat) : State Token :=
  { s with cmds := ⟨BitVec.ofNat 16 w, Operands.zero⟩ :: s.cmds.tail }

end Sys2Proof.Machine
end

