-- ==== Sys2Proof/Machine/Step.lean ====
section
/-! DEFINITION. One step of the machine: one transaction (70_reset_and_hazards.md R291), at the default parameters;
and the placing of one command word where the step takes its next command. -/

namespace Sys2Proof.Machine

/-- One step: the oldest issued command as one atomic transaction (R6, R59, R62). -/
def step (s : State) : Host.Outcome State Fault Refusal := transact exec s

/-- `s` with the command word `w` as the Host's next command. A command has one 16-bit word (R74), so `nbits` adds
nothing to `w`. -/
def State.withFetchWord (s : State) (_nbits w : Nat) : State := issueWord s w

end Sys2Proof.Machine
end

