-- ==== Sys2Proof/Machine/Asm.lean ====
section
/-! DEFINITION. The assembler syntax of 30_encoding.md R81: writing a command as text and reading one line of text
as a command. It is no part of a step. A line is a list of characters. -/

namespace Sys2Proof.Machine

/-! ## Writing -/

/-- A number in decimal. -/
def asmNat (n : Nat) : List Char := Nat.toDigits 10 n

/-- `, b1, b2, ...` after the first byte of a byte operand. -/
def asmTail : Bytes → List Char
  | [] => []
  | b :: rest => ',' :: ' ' :: (asmNat b.toNat ++ asmTail rest)

/-- A byte operand `[b0, b1, ...]` (R81). -/
def asmBytes : Bytes → List Char
  | [] => ['[', ']']
  | b :: rest => '[' :: (asmNat b.toNat ++ asmTail rest ++ [']'])

/-- The mnemonic of a command, as R76 has it. -/
def mnemonic : Instr → List Char
  | .n2c _ => "N2C".toList
  | .c2n _ => "C2N".toList
  | .encode _ _ => "ENCODE".toList
  | .appendEncode _ _ => "APPEND_ENCODE".toList
  | .encodeToText _ => "ENCODE_TO_TEXT".toList
  | .decode _ _ => "DECODE".toList
  | .appendDecode _ _ => "APPEND_DECODE".toList
  | .decodeText _ => "DECODE_TEXT".toList
  | .encLen _ => "ENCLEN".toList
  | .decLen _ => "DECLEN".toList
  | .encNew _ _ => "ENC_NEW".toList
  | .encWrite _ _ => "ENC_WRITE".toList
  | .decNew _ _ => "DEC_NEW".toList
  | .decRead _ _ => "DEC_READ".toList

/-- The operands of a command, separated by commas (R81). -/
def asmOperands : Instr → List Char
  | .n2c nib => asmNat nib.toNat
  | .c2n chr => asmNat chr.toNat
  | .encode dst src => asmBytes dst ++ ',' :: ' ' :: asmBytes src
  | .appendEncode buf src => asmBytes buf ++ ',' :: ' ' :: asmBytes src
  | .encodeToText src => asmBytes src
  | .decode dst src => asmBytes dst ++ ',' :: ' ' :: asmBytes src
  | .appendDecode buf src => asmBytes buf ++ ',' :: ' ' :: asmBytes src
  | .decodeText src => asmBytes src
  | .encLen n => asmNat n
  | .decLen n => asmNat n
  | .encNew h sink => 'e' :: (asmNat h ++ ',' :: ' ' :: ("sink".toList ++ asmNat sink))
  | .encWrite h p => 'e' :: (asmNat h ++ ',' :: ' ' :: asmBytes p)
  | .decNew h source => 'd' :: (asmNat h ++ ',' :: ' ' :: ("source".toList ++ asmNat source))
  | .decRead h n => 'd' :: (asmNat h ++ ',' :: ' ' :: asmNat n)

/-- A command is written as its mnemonic followed by its operands (R81). -/
def asm (i : Instr) : List Char := mnemonic i ++ ' ' :: asmOperands i

/-! ## Reading -/

/-- A token of a line. -/
inductive AsmTok where
  /-- A mnemonic, a slot or an agent. -/
  | name (cs : List Char)
  /-- A number, decimal or `0x..`. -/
  | num (n : Nat)
  /-- A double-quoted ASCII string. -/
  | text (bs : Bytes)
  | opening
  | closing
  | comma
deriving DecidableEq, Repr

/-- The characters of names and numbers. -/
def isWordChar (c : Char) : Bool := c.isAlphanum || c == '_'

/-- The word a line begins with, and the rest of the line. -/
def spanWord : List Char → List Char × List Char
  | [] => ([], [])
  | c :: cs => if isWordChar c then (c :: (spanWord cs).1, (spanWord cs).2) else ([], c :: cs)

/-- The bytes of an ASCII string up to its closing quote, and the rest of the line. -/
def spanText : List Char → Option (Bytes × List Char)
  | [] => none
  | c :: cs =>
    if c = Char.ofNat 34 then some ([], cs)
    else if c.toNat < 128 then
      (spanText cs).map fun (bs, rest) => (BitVec.ofNat 8 c.toNat :: bs, rest)
    else none

/-- The value of a hexadecimal digit. -/
def hexDigit (c : Char) : Option Nat :=
  if '0' ≤ c ∧ c ≤ '9' then some (c.toNat - 48)
  else if 'a' ≤ c ∧ c ≤ 'f' then some (c.toNat - 87)
  else if 'A' ≤ c ∧ c ≤ 'F' then some (c.toNat - 55)
  else none

/-- Hexadecimal digits after the ones that gave `n`. -/
def readHex : Nat → List Char → Option Nat
  | n, [] => some n
  | n, c :: cs =>
    match hexDigit c with
    | some d => readHex (16 * n + d) cs
    | none => none

/-- A decimal number: at least one digit and nothing else. -/
def readDec (cs : List Char) : Option Nat :=
  if cs ≠ [] ∧ cs.all Char.isDigit then some (Nat.ofDigitChars 10 cs 0) else none

/-- A word that begins with a digit is a number, any other word a name. -/
def wordTok (w : List Char) : Option AsmTok :=
  match w with
  | [] => none
  | c :: cs =>
    if c.isDigit then
      match c, cs with
      | '0', 'x' :: d :: ds => (readHex 0 (d :: ds)).map .num
      | _, _ => (readDec (c :: cs)).map .num
    else some (.name (c :: cs))

/-- The tokens of a line of at most `fuel` characters; a comment starts with `;` (R81). -/
def lex : (fuel : Nat) → List Char → Option (List AsmTok)
  | 0, [] => some []
  | 0, _ :: _ => none
  | _ + 1, [] => some []
  | fuel + 1, c :: cs =>
    if c = ';' then some []
    else if c = ' ' then lex fuel cs
    else if c = '[' then (lex fuel cs).map (AsmTok.opening :: ·)
    else if c = ']' then (lex fuel cs).map (AsmTok.closing :: ·)
    else if c = ',' then (lex fuel cs).map (AsmTok.comma :: ·)
    else if c = Char.ofNat 34 then
      match spanText cs with
      | some (bs, rest) => (lex fuel rest).map (AsmTok.text bs :: ·)
      | none => none
    else
      match wordTok (spanWord (c :: cs)).1 with
      | some t => (lex fuel (spanWord (c :: cs)).2).map (t :: ·)
      | none => none

/-- The rest of a byte operand after one of its bytes. -/
def readTail : List AsmTok → Option (Bytes × List AsmTok)
  | .closing :: rest => some ([], rest)
  | .comma :: .num b :: rest =>
    if b < 256 then (readTail rest).map fun (bs, r) => (BitVec.ofNat 8 b :: bs, r) else none
  | _ => none

/-- A byte or text operand, and the tokens after it. -/
def readBytes : List AsmTok → Option (Bytes × List AsmTok)
  | .text bs :: rest => some (bs, rest)
  | .opening :: .closing :: rest => some ([], rest)
  | .opening :: .num b :: rest =>
    if b < 256 then (readTail rest).map fun (bs, r) => (BitVec.ofNat 8 b :: bs, r) else none
  | _ => none

/-- One byte or text operand and nothing after it. -/
def readOne (k : Bytes → Instr) (ts : List AsmTok) : Option Instr :=
  match readBytes ts with
  | some (bs, []) => some (k bs)
  | _ => none

/-- Two byte or text operands separated by a comma. -/
def readTwo (k : Bytes → Bytes → Instr) (ts : List AsmTok) : Option Instr :=
  match readBytes ts with
  | some (a, .comma :: rest) => readOne (k a) rest
  | _ => none

/-- The decimal number after the letters `lead` of a name: `e<h>`, `d<h>`, `sink<k>`, `source<k>`. -/
def readIndexed (lead cs : List Char) : Option Nat :=
  if cs.take lead.length = lead then readDec (cs.drop lead.length) else none

/-- One number below `bound` (where there is one) and nothing after it. -/
def readNum (bound : Option Nat) (k : Nat → Instr) (ts : List AsmTok) : Option Instr :=
  match ts with
  | [.num n] => if bound.all (fun b => decide (n < b)) then some (k n) else none
  | _ => none

/-- A slot, whose handle is an unsigned 8-bit value (R82), and a comma, then what `k` reads. -/
def readSlot (lead : List Char) (k : Nat → List AsmTok → Option Instr) (ts : List AsmTok) : Option Instr :=
  match ts with
  | .name cs :: .comma :: rest =>
    match readIndexed lead cs with
    | some h => if h < 256 then k h rest else none
    | none => none
  | _ => none

/-- An agent and nothing after it. -/
def readAgent (lead : List Char) (k : Nat → Instr) (ts : List AsmTok) : Option Instr :=
  match ts with
  | [.name cs] => (readIndexed lead cs).map k
  | _ => none

/-- The command with the mnemonic `m` and the operand tokens `ts` (R81). -/
def readCommand (m : List Char) (ts : List AsmTok) : Option Instr :=
  if m = "N2C".toList then readNum (some 16) (fun n => .n2c (BitVec.ofNat 4 n)) ts
  else if m = "C2N".toList then readNum (some 256) (fun n => .c2n (BitVec.ofNat 8 n)) ts
  else if m = "ENCODE".toList then readTwo .encode ts
  else if m = "APPEND_ENCODE".toList then readTwo .appendEncode ts
  else if m = "ENCODE_TO_TEXT".toList then readOne .encodeToText ts
  else if m = "DECODE".toList then readTwo .decode ts
  else if m = "APPEND_DECODE".toList then readTwo .appendDecode ts
  else if m = "DECODE_TEXT".toList then readOne .decodeText ts
  else if m = "ENCLEN".toList then readNum none .encLen ts
  else if m = "DECLEN".toList then readNum none .decLen ts
  else if m = "ENC_NEW".toList then readSlot ['e'] (fun h => readAgent "sink".toList (.encNew h)) ts
  else if m = "ENC_WRITE".toList then readSlot ['e'] (fun h => readOne (.encWrite h)) ts
  else if m = "DEC_NEW".toList then readSlot ['d'] (fun h => readAgent "source".toList (.decNew h)) ts
  else if m = "DEC_READ".toList then readSlot ['d'] (fun h => readNum none (.decRead h)) ts
  else none

/-- The command a line of assembler text spells, if it spells one. -/
def assemble (line : List Char) : Option Instr :=
  match lex line.length line with
  | some (.name m :: ts) => readCommand m ts
  | _ => none

end Sys2Proof.Machine
end

