-- ==== Sys2Proof/Safety.lean ====
section
/-! DEFINITION. What counts as a well-formed state and as a safe run, in the terms the statements use. -/

namespace Sys2Proof.Machine

variable {Token : Type}

/-- A buffer of exactly its capacity (10_state.md R27, R30): the canonical form of a buffer (log 11). -/
abbrev bufferWf (cap : Nat) (B : Bytes) : Prop := B.length = cap

/-- An encoder record as R27 has it: a buffer of ENC_CAP bytes, and a fault only a Sink can have given (R173). -/
abbrev EncSlot.Wf (P : Params) (E : EncSlot Token) : Prop :=
  bufferWf P.encCap E.out ∧ (E.fault.code = 0#8 ∨ E.fault.code = 5#8)

/-- A decoder record as R30 has it: a buffer of DEC_CAP bytes, the pending view inside it (R31), and never
ODD_LENGTH for a fault (60_exceptions.md R242). -/
abbrev DecSlot.Wf (P : Params) (D : DecSlot Token) : Prop :=
  bufferWf P.decCap D.arr ∧ D.off + D.len ≤ P.decCap ∧ D.fault ≠ .oddLength

/-- The invariant between transactions (10_state.md R27, R30, R31): one record for every slot the parameters give,
each well formed. -/
abbrev State.Inv (P : Params) (s : State Token) : Prop :=
  s.enc.length = P.numEncSlots ∧ s.dec.length = P.numDecSlots ∧
  (∀ E ∈ s.enc, E.Wf P) ∧ (∀ D ∈ s.dec, D.Wf P)

/-- A command that reads and writes no slot and calls no agent (20_memory.md R61): a lookup engine, a one-shot
command or a length helper. -/
def oneShot : Instr → Bool
  | .n2c _ => true
  | .c2n _ => true
  | .encode _ _ => true
  | .appendEncode _ _ => true
  | .encodeToText _ => true
  | .decode _ _ => true
  | .appendDecode _ _ => true
  | .decodeText _ => true
  | .encLen _ => true
  | .decLen _ => true
  | .encNew _ _ => false
  | .encWrite _ _ => false
  | .decNew _ _ => false
  | .decRead _ _ => false

/-- A run that has not gone wrong: the model fault record is empty (60_exceptions.md R250). -/
abbrev State.Safe (s : State Token) : Prop := s.mf = []

/-- The pending view `arr[off : off+len]` of a decoder (10_state.md R30). -/
def DecSlot.pending (D : DecSlot Token) : Bytes := (D.arr.drop D.off).take D.len

/-- The text Sink `k` has accepted: the first `w` bytes of each of its calls, in order (70 R292 "a claim about
delivered text speaks of what the Sink accepted"). -/
def accepted (k : SinkId) : List (AgentCall Token) → Bytes
  | [] => []
  | .sinkWrite j v a :: rest => (if j = k then v.take a.w else []) ++ accepted k rest
  | .sourceRead _ _ _ :: rest => accepted k rest

/-- The text Sink `k` has been sent: the whole payload of each of its calls, in order (44 R178). -/
def sent (k : SinkId) : List (AgentCall Token) → Bytes
  | [] => []
  | .sinkWrite j v _ :: rest => (if j = k then v else []) ++ sent k rest
  | .sourceRead _ _ _ :: rest => sent k rest

end Sys2Proof.Machine
end

