-- ==== Sys2Proof/Certificates/Slice0/Obligations.lean ====
section
/-! DEFINITION. The statements for the provers. Each docstring names the rule of spec/ it formalises. A next state
is written out as the record it is, so that a statement about an instruction is its frame too: a field that is not
named is unchanged. -/

open Sys2Proof Sys2Proof.Machine

namespace Sys2Proof.Machine

variable {Token : Type} [DecidableEq Token]

/-- A byte is one of the 32 alphabet characters, by its ASCII code (10_state.md R20, R21, where the codes are marked
[from general knowledge, not in source]: log 15). -/
abbrev isAlphabet (c : Byte) : Prop :=
  (0x4B ≤ c.toNat ∧ c.toNat ≤ 0x5A) ∨ (0x6B ≤ c.toNat ∧ c.toNat ≤ 0x7A)

/-- The nibble an alphabet character stands for, by its code (10_state.md R20): `0x7A - c` or `0x5A - c`. -/
def nibbleOf (c : Byte) : Nat := if 0x6B ≤ c.toNat then 0x7A - c.toNat else 0x5A - c.toNat

/-- Two characters differ at most in the case of an alphabet letter (40_lookup_engines.md R102). -/
abbrev sameUpToCase (c d : Byte) : Prop :=
  c = d ∨ (isAlphabet c ∧ isAlphabet d ∧ (c.toNat = d.toNat + 0x20 ∨ d.toNat = c.toNat + 0x20))

/-- An upper-case alphabet character as its lowercase form, any other byte as it is (30_encoding.md R73). -/
def lowerCase (c : Byte) : Byte := if 0x4B ≤ c.toNat ∧ c.toNat ≤ 0x5A then c + 0x20#8 else c

/-- Well-formed text: an even number of bytes, every one of them valid (30_encoding.md R73, 10_state.md R23). -/
abbrev wellFormedText (P : Params) (S : Bytes) : Prop := S.length % 2 = 0 ∧ ∀ c ∈ S, validChar P c = true

/-- The fault after a fill that left the bytes `S` pending, none having been stored before (45_stream_decoder.md
R203). -/
def fillVerdict (S : Bytes) (sig : SourceSig Token) : Status Token :=
  match sig with
  | .none => .none
  | .ioFault t => .ioFault t
  | .endOfStream =>
    if S.length % 2 = 0 then .endOfStream
    else if isAlphabet (S.getLastD 0#8) then .unexpectedEos
    else .invalidByte (S.getLastD 0#8)

/-- Writing the payloads `ps` one after another to encoder slot `h`, as long as each is answered with full progress
and no fault (44_stream_encoder.md R179). -/
def writeAll (P : Params) (h : Nat) : List Bytes → State Token → Option (State Token)
  | [], s => some s
  | p :: ps, s =>
    match execWith P (.encWrite h p) s with
    | .next t => if t.responses = s.responses ++ [⟨p.length, [], .none⟩] then writeAll P h ps t else none
    | _ => none

/-- Reading decoder slot `h` with the requests `ns` until the first response whose status is not NONE: the data of
all responses, that status and the state after it (45_stream_decoder.md R213). -/
def readUntilStatus (P : Params) (h : Nat) : List Nat → State Token → Option (Bytes × Status Token × State Token)
  | [], _ => none
  | n :: ns, s =>
    match execWith P (.decRead h n) s with
    | .next t =>
      match t.responses.drop s.responses.length with
      | [r] =>
        if r.status = .none then (readUntilStatus P h ns t).map fun (d, st, u) => (r.data ++ d, st, u)
        else some (r.data, r.status, t)
      | _ => none
    | _ => none

/-- The answers of agent `k`, in the order it gives them. -/
def answersOf {α : Type} (k : Nat) (q : List (Nat × α)) : List α :=
  q.filterMap fun (j, a) => if j = k then some a else none

/-- Two encoder records agree in everything a rule lets be seen: an unallocated slot shows nothing more (10_state.md
R37), and the scratch buffer is never seen (R29). -/
abbrev EncSlot.alike (E F : EncSlot Token) : Prop :=
  E.alloc = F.alloc ∧ (E.alloc = true → E.sink = F.sink ∧ E.fault = F.fault)

/-- Likewise two decoder records: the bytes outside the pending view are never seen (10_state.md R31). -/
abbrev DecSlot.alike (D G : DecSlot Token) : Prop :=
  D.alloc = G.alloc ∧
  (D.alloc = true → D.source = G.source ∧ D.fault = G.fault ∧ D.len = G.len ∧ D.pending = G.pending)

/-- Two states agree in everything but the contents the spec leaves unspecified (10_state.md R37, R38). -/
abbrev State.alike (s t : State Token) : Prop :=
  List.Forall₂ EncSlot.alike s.enc t.enc ∧ List.Forall₂ DecSlot.alike s.dec t.dec ∧ s.mf = t.mf ∧
  s.cmds = t.cmds ∧ s.responses = t.responses ∧ s.sinkAnswers = t.sinkAnswers ∧
  s.sourceAnswers = t.sourceAnswers ∧ s.calls = t.calls

end Sys2Proof.Machine

/-! ## Command words -/

/-- 95_test_vectors.md 2.1 and one word of every other row of 30_encoding.md R76: words written out from the map
decode to the commands they stand for. -/
def Obligations.SampleWordsDecodeAsTheMapSays : Prop :=
  ∀ o : Operands,
    decode 0x0001#16 o = .ok (.n2c o.nib) ∧ decode 0x0002#16 o = .ok (.c2n o.chr) ∧
    decode 0x0003#16 o = .ok (.encode o.dst o.src) ∧ decode 0x0004#16 o = .ok (.appendEncode o.buf o.src) ∧
    decode 0x0005#16 o = .ok (.encodeToText o.src) ∧ decode 0x0006#16 o = .ok (.decode o.dst o.src) ∧
    decode 0x0007#16 o = .ok (.appendDecode o.buf o.src) ∧ decode 0x0008#16 o = .ok (.decodeText o.src) ∧
    decode 0x0009#16 o = .ok (.encLen o.n) ∧ decode 0x000A#16 o = .ok (.decLen o.n) ∧
    decode 0x000B#16 o = .ok (.encNew 0 o.sink) ∧ decode 0x2A0C#16 o = .ok (.encWrite 42 o.p) ∧
    decode 0x070D#16 o = .ok (.decNew 7 o.source) ∧ decode 0xFF0E#16 o = .ok (.decRead 255 o.n) ∧
    (∀ w ∈ [0x0000#16, 0x000F#16, 0x00FF#16, 0x0109#16, 0x8003#16, 0xFFFF#16], (decode w o).toOption = none)

/-- 30_encoding.md R80: the decoding procedure on every word, and how many words are legal. -/
def Obligations.DecodeFollowsTheProcedure : Prop :=
  (∀ (w : CmdWord) (o : Operands),
    let op := w.toNat % 256
    let h := w.toNat / 256
    (op = 0x0B → decode w o = .ok (.encNew h o.sink)) ∧
    (op = 0x0C → decode w o = .ok (.encWrite h o.p)) ∧
    (op = 0x0D → decode w o = .ok (.decNew h o.source)) ∧
    (op = 0x0E → decode w o = .ok (.decRead h o.n)) ∧
    (h = 0 →
      (op = 0x01 → decode w o = .ok (.n2c o.nib)) ∧ (op = 0x02 → decode w o = .ok (.c2n o.chr)) ∧
      (op = 0x03 → decode w o = .ok (.encode o.dst o.src)) ∧
      (op = 0x04 → decode w o = .ok (.appendEncode o.buf o.src)) ∧
      (op = 0x05 → decode w o = .ok (.encodeToText o.src)) ∧
      (op = 0x06 → decode w o = .ok (.decode o.dst o.src)) ∧
      (op = 0x07 → decode w o = .ok (.appendDecode o.buf o.src)) ∧
      (op = 0x08 → decode w o = .ok (.decodeText o.src)) ∧
      (op = 0x09 → decode w o = .ok (.encLen o.n)) ∧ (op = 0x0A → decode w o = .ok (.decLen o.n))) ∧
    (((1 ≤ op ∧ op ≤ 0x0A ∧ h ≠ 0) ∨ op = 0 ∨ 0x0F ≤ op) → ∃ e, decode w o = .error e)) ∧
  ((List.range 65536).filter fun w => (decode (BitVec.ofNat 16 w) Operands.zero).toOption.isSome).length =
    10 + 4 * 256

/-- 30_encoding.md R74, R76, R77, R82: no bit of a command and no operand field is dropped. -/
def Obligations.DecodeOfEncodeIsTheInstruction : Prop :=
  ∀ i : Instr, i.wf = true → decode (encode i).1 (encode i).2 = .ok i

/-- 30_encoding.md R74, R76, R82: where each word has one meaning, encoding what a word spells gives the word back,
and what it spells is well formed. -/
def Obligations.EncodeOfDecodeIsTheWord : Prop :=
  ∀ (w : CmdWord) (o : Operands) (i : Instr), decode w o = .ok i → i.wf = true ∧ (encode i).1 = w

/-- 30_encoding.md R81: reading a command's assembler text gives the command. -/
def Obligations.AssemblerReadsWhatItWrites : Prop :=
  ∀ i : Instr, i.wf = true → assemble (asm i) = some i

/-- 60_exceptions.md R240: the status word and the token beside it lose nothing, and codes 6..255 are never
produced. -/
def Obligations.StatusWordLosesNothing : Prop :=
  ∀ (Token : Type) (st : Status Token), statusOfWord st.word st.io = some st ∧ st.code.toNat ≤ 5 ∧
    (st.word.toNat % 256 = st.code.toNat ∧ st.word.toNat / 256 = st.chr.toNat)

/-! ## The step -/

/-- 00_scope.md R6, 20_memory.md R62, 10_state.md R26: the step performs the oldest issued command; with none issued
the block is idle (log 5); a placed word is the command performed next (log 24). -/
def Obligations.StepRunsTheDecodedCommand : Prop :=
  (∀ (s : State) (c : Command) (rest : List Command) (i : Instr),
    s.cmds = c :: rest → decode c.word c.ops = .ok i → step s = exec i s) ∧
  (∀ s : State, s.cmds = [] → step s = .next s) ∧
  (∀ (s : State) (nbits w : Nat) (i : Instr), decodeTableWord nbits w = some i →
    step (s.withFetchWord nbits w) = exec i (s.withFetchWord nbits w))

/-- 30_encoding.md R79: an illegal word writes no state but the model fault record, and there is no other illegal
word. -/
def Obligations.IllegalWordsAreRecordedAndSkipped : Prop :=
  ∀ (s : State) (c : Command) (rest : List Command), s.cmds = c :: rest →
    let op := c.word.toNat % 256
    let h := c.word.toNat / 256
    ((op = 0x00 ∨ 0x0F ≤ op ∨ (op ≤ 0x0A ∧ h ≠ 0)) →
      step s = .next { s with cmds := rest, mf := s.mf ++ [.illegalCommand] }) ∧
    (¬(op = 0x00 ∨ 0x0F ≤ op ∨ (op ≤ 0x0A ∧ h ≠ 0)) → ∃ i, decode c.word c.ops = .ok i ∧ step s = exec i s)

/-- 00_scope.md R6, R7: `exec` and `step` are the machine at the spec's defaults (log 1) and at one token type
(log 3). -/
def Obligations.StepIsTheDefaultInstance : Prop :=
  (∀ i s, exec i s = execWith Config.params i s) ∧ (∀ s, step s = stepWith Config.params s) ∧
  Config.params.Valid ∧ Config.params.encChunk = 512

/-- 00_scope.md R6, 20_memory.md R62, 10_state.md R36, 60_exceptions.md R250: a step that answers a next state
leaves the transaction unfinished, or performs exactly one command and ends it in one response, or in one model fault
that writes no state of the block. -/
def Obligations.EachTransactionEndsInOneResponseOrOneModelFault : Prop :=
  ∀ (s t : State) (c : Command) (rest : List Command), s.cmds = c :: rest → step s = .next t →
    t = s ∨
    (∃ m, t = { s with cmds := rest, mf := s.mf ++ [m] }) ∨
    (∃ r, t.cmds = rest ∧ t.responses = s.responses ++ [r] ∧ t.mf = s.mf)

/-- 10_state.md R37, 70_reset_and_hazards.md R280: the power-on state. -/
def Obligations.ResetIsPowerOn : Prop :=
  State.reset.mf = [] ∧ State.reset.enc.length = 256 ∧ State.reset.dec.length = 256 ∧
  (∀ E ∈ State.reset.enc, E.alloc = false) ∧ (∀ D ∈ State.reset.dec, D.alloc = false) ∧
  (∀ n : Nibble, n2c n = 0x7A#8 - n.zeroExtend 8) ∧
  (∀ c : Byte, c2n Config.params c = if isAlphabet c then BitVec.ofNat 8 (nibbleOf c) else 0xFF#8)

/-- 10_state.md R27, R30, R31: the power-on state is well formed. -/
def Obligations.ResetMeetsTheInvariant : Prop := State.reset.Inv Config.params

/-- 10_state.md R27, R30, R31, 60_exceptions.md R242: every step keeps every slot's record well formed: buffers of
exactly their capacity, the pending view inside its buffer, no fault an adapter cannot have stored. -/
def Obligations.StepKeepsTheInvariant : Prop :=
  ∀ s t : State, s.Inv Config.params → step s = .next t → t.Inv Config.params

/-- 00_scope.md R7, 20_memory.md R51: the same at every choice of the parameters, and no index outside a buffer or a
slot file is ever formed. -/
def Obligations.NoIndexOutsideABufferAtAnyParameters : Prop :=
  ∀ (Token : Type) [DecidableEq Token] (P : Params), P.Valid → (State.powerOn P Token).Inv P ∧
    ∀ s : State Token, s.Inv P → (∀ f, stepWith P s ≠ .fault f) ∧ (∀ t, stepWith P s = .next t → t.Inv P)

/-- 60_exceptions.md R251, 30_encoding.md R75, 70_reset_and_hazards.md R282, R284, at every choice of the parameters:
BAD_HANDLE and DST_TOO_SMALL are raised exactly when the table says. With fewer than 256 slots a word can spell a handle
past them (95_test_vectors.md S-E11). -/
def Obligations.ModelFaultsAreRaisedExactlyAsTheTableSays : Prop :=
  ∀ (Token : Type) [DecidableEq Token] (P : Params) (i : Instr) (s : State Token), P.Valid → s.Inv P →
    (execWith P i s = .next { s with cmds := s.cmds.tail, mf := s.mf ++ [.badHandle] } ↔
      (∃ h k, i = .encNew h k ∧ P.numEncSlots ≤ h) ∨ (∃ h k, i = .decNew h k ∧ P.numDecSlots ≤ h) ∨
      (∃ h p, i = .encWrite h p ∧ (P.numEncSlots ≤ h ∨ ∃ E, s.enc[h]? = some E ∧ E.alloc = false)) ∨
      (∃ h n, i = .decRead h n ∧ (P.numDecSlots ≤ h ∨ ∃ D, s.dec[h]? = some D ∧ D.alloc = false))) ∧
    (execWith P i s = .next { s with cmds := s.cmds.tail, mf := s.mf ++ [.dstTooSmall] } ↔
      (∃ dst src, i = .encode dst src ∧ dst.length < 2 * src.length) ∨
      (∃ dst src, i = .decode dst src ∧ dst.length < src.length / 2))

/-- 70_reset_and_hazards.md R287, R288, 93_implementation_defined.md I12: the only commands refused are those whose
agent's answer is outside its contract: the answer to chunk `j` of an ENC_WRITE accepts more bytes than that chunk's text
has, after answers to the chunks before it that keep their contract and signal nothing; or the answer to the one call of
a DEC_READ delivers more bytes than it asked for. That such an answer is refused is the model's choice (log 9). -/
def Obligations.OnlyContractBreachesAreRefused : Prop :=
  ∀ (i : Instr) (s : State) (r : Refusal), s.Inv Config.params → exec i s = .refused r →
    (r = .sinkAnswerOutsideContract ∧ ∃ h p E a j, i = .encWrite h p ∧ s.enc[h]? = some E ∧ E.alloc = true ∧
      E.fault = .none ∧ (answersOf E.sink s.sinkAnswers)[j]? = some a ∧ 512 * j < p.length ∧
      2 * min 512 (p.length - 512 * j) < a.w ∧
      ∀ k < j, ∃ b, (answersOf E.sink s.sinkAnswers)[k]? = some b ∧ b.w ≤ 1024 ∧ b.sig = none) ∨
    (r = .sourceAnswerOutsideContract ∧ ∃ h n D a more, i = .decRead h n ∧ s.dec[h]? = some D ∧ D.alloc = true ∧
      D.fault = .none ∧ D.len < 2 ∧ answersOf D.source s.sourceAnswers = a :: more ∧ 1024 - D.len < a.v.length)

/-- 20_memory.md R61: a one-shot command's response, or the model fault it raises, depends on its operands only, and
it changes nothing else. -/
def Obligations.OneShotCommandsArePure : Prop :=
  ∀ i : Instr, oneShot i = true → ∃ (rs : List Response) (ms : List ModelFault), rs.length + ms.length = 1 ∧
    ∀ s : State, exec i s =
      .next { s with cmds := s.cmds.tail, responses := s.responses ++ rs, mf := s.mf ++ ms }

/-- 20_memory.md R61, 60_exceptions.md R257: a streaming command on slot `h` writes only its own slot and calls only
its own kind of agent. -/
def Obligations.SlotsAreIndependent : Prop :=
  ∀ (i : Instr) (s t : State), exec i s = .next t →
    (∀ h, ((∃ k, i = .encNew h k) ∨ (∃ p, i = .encWrite h p)) →
      t.dec = s.dec ∧ t.sourceAnswers = s.sourceAnswers ∧ ∀ j, j ≠ h → t.enc[j]? = s.enc[j]?) ∧
    (∀ h, ((∃ k, i = .decNew h k) ∨ (∃ n, i = .decRead h n)) →
      t.enc = s.enc ∧ t.sinkAnswers = s.sinkAnswers ∧ ∀ j, j ≠ h → t.dec[j]? = s.dec[j]?) ∧
    (t.sinkAnswers ≠ s.sinkAnswers → ∃ h p, i = .encWrite h p) ∧
    (t.sourceAnswers ≠ s.sourceAnswers → ∃ h n, i = .decRead h n)

/-- 10_state.md R29, R31, R37, R38: contents the spec leaves unspecified are unobservable. Two well-formed states that
agree in everything else run a command to states that agree again. (No statement but this one speaks of the free
values of log 12, and it holds for every value of them.) -/
def Obligations.UnspecifiedContentsAreUnobservable : Prop :=
  ∀ (i : Instr) (s s' t : State), s.Inv Config.params → s'.Inv Config.params → s.alike s' →
    exec i s = .next t → ∃ t', exec i s' = .next t' ∧ t.alike t'

/-! ## Lookup engines -/

/-- 40_lookup_engines.md R100, with the table of 10_state.md R20 as its formula `0x7A - n`, which rests on the ASCII
codes the spec marks [from general knowledge, not in source] (log 15). -/
def Obligations.N2cReturnsTheAlphabetCharacter : Prop :=
  (∀ o : Operands, decode 0x0001#16 o = .ok (.n2c o.nib)) ∧
  ∀ (nib : Nibble) (s : State), exec (.n2c nib) s =
    .next { s with cmds := s.cmds.tail, responses := s.responses ++ [⟨1, [0x7A#8 - nib.zeroExtend 8], .none⟩] }

/-- 40_lookup_engines.md R101, with the table of 10_state.md R21: both cases of a letter give its nibble, any other
byte the sentinel, and the status is NONE either way. The codes are ASCII, which the spec marks [from general
knowledge, not in source] (log 15). -/
def Obligations.C2nReturnsTheNibbleOrTheSentinel : Prop :=
  (∀ o : Operands, decode 0x0002#16 o = .ok (.c2n o.chr)) ∧
  (∀ (n : Nibble) (s : State), ∀ c ∈ [0x7A#8 - n.zeroExtend 8, 0x5A#8 - n.zeroExtend 8], exec (.c2n c) s =
    .next { s with cmds := s.cmds.tail, responses := s.responses ++ [⟨1, [n.zeroExtend 8], .none⟩] }) ∧
  (∀ (c : Byte) (s : State), ¬ isAlphabet c → exec (.c2n c) s =
    .next { s with cmds := s.cmds.tail, responses := s.responses ++ [⟨1, [0xFF#8], .none⟩] })

/-- 10_state.md R22, at every parameter choice. -/
def Obligations.TablesInvertEachOther : Prop :=
  ∀ P : Params, P.Valid →
    (∀ n : Nibble, c2n P (n2c n) = n.zeroExtend 8 ∧ c2n P (n2c n - 0x20#8) = n.zeroExtend 8) ∧
    (∀ m n : Nibble, n2c m = n2c n → m = n) ∧
    (∀ c : Byte, (∀ n : Nibble, c ≠ n2c n ∧ c ≠ n2c n - 0x20#8) → c2n P c = P.invalid)

/-- 40_lookup_engines.md R102: case never matters to a decode but in an INVALID_BYTE payload, and a letter outside
the alphabet is invalid in both cases, its payload the byte as given (R102 is marked [derived] there: the spec's own
inference; the codes are ASCII, log 15). -/
def Obligations.CaseOfAnAlphabetLetterNeverMatters : Prop :=
  ∀ P : Params, P.Valid →
    (∀ n : Nibble, c2n P (n2c n) = n.zeroExtend 8 ∧ c2n P (n2c n - 0x20#8) = n.zeroExtend 8) ∧
    (∀ src src' : Bytes, List.Forall₂ sameUpToCase src src' → dec P src = dec P src') ∧
    (∀ c : Byte, 0x61 ≤ c.toNat → c.toNat ≤ 0x7A → ¬ isAlphabet c →
      validChar P c = false ∧ validChar P (c - 0x20#8) = false ∧
      ∀ (q : Byte) (rest : Bytes), dec P (c :: q :: rest) = ([], .invalidByte c) ∧
        dec P ((c - 0x20#8) :: q :: rest) = ([], .invalidByte (c - 0x20#8)))

/-- 10_state.md R23, 93_implementation_defined.md I3: any two machines that differ in the sentinel alone run every
command but C2N alike (R23's last sentence is marked [derived] there: the spec's own inference). -/
def Obligations.SentinelShowsOnlyInC2n : Prop :=
  ∀ (Token : Type) [DecidableEq Token] (P : Params) (v : Byte), P.Valid → 15 < v.toNat →
    (∀ c : Byte, validChar P c = validChar { P with invalid := v } c) ∧
    ∀ (i : Instr) (s : State Token), (∀ c, i ≠ .c2n c) → execWith P i s = execWith { P with invalid := v } i s

/-! ## One-shot encode -/

/-- 41_oneshot_encode.md R120, 30_encoding.md R71: ENCODE writes two characters per byte, high nibble first, leaves
the rest of the destination, and raises DST_TOO_SMALL when the destination is too small. -/
def Obligations.EncodeWritesHighNibbleFirst : Prop :=
  (∀ o : Operands, decode 0x0003#16 o = .ok (.encode o.dst o.src)) ∧
  ∀ (dst src : Bytes) (s : State),
    (2 * src.length ≤ dst.length → ∃ d : Bytes,
      exec (.encode dst src) s =
        .next { s with cmds := s.cmds.tail, responses := s.responses ++ [⟨2 * src.length, d, .none⟩] } ∧
      d.length = dst.length ∧
      (∀ (k : Nat) (b : Byte), src[k]? = some b →
        d[2 * k]? = some (n2c (BitVec.ofNat 4 (b.toNat / 16))) ∧
        d[2 * k + 1]? = some (n2c (BitVec.ofNat 4 (b.toNat % 16)))) ∧
      (∀ j, 2 * src.length ≤ j → d[j]? = dst[j]?)) ∧
    (dst.length < 2 * src.length →
      exec (.encode dst src) s = .next { s with cmds := s.cmds.tail, mf := s.mf ++ [.dstTooSmall] })

/-- 41_oneshot_encode.md R121. -/
def Obligations.AppendEncodeExtendsTheBuffer : Prop :=
  (∀ o : Operands, decode 0x0004#16 o = .ok (.appendEncode o.buf o.src)) ∧
  ∀ (buf src : Bytes) (s : State), exec (.appendEncode buf src) s =
    .next { s with cmds := s.cmds.tail,
                   responses := s.responses ++ [⟨(buf ++ enc src).length, buf ++ enc src, .none⟩] }

/-- 41_oneshot_encode.md R122. -/
def Obligations.EncodeToTextReturnsTheText : Prop :=
  (∀ o : Operands, decode 0x0005#16 o = .ok (.encodeToText o.src)) ∧
  ∀ (src : Bytes) (s : State), exec (.encodeToText src) s =
    .next { s with cmds := s.cmds.tail, responses := s.responses ++ [⟨(enc src).length, enc src, .none⟩] }

/-- 41_oneshot_encode.md R123: the three forms give the same text (marked [derived] there: the spec's own inference). -/
def Obligations.EncodeFormsAgree : Prop :=
  ∀ (src buf dst : Bytes) (s : State), 2 * src.length ≤ dst.length →
    ∃ d a t : Response,
      exec (.encode dst src) s = .next { s with cmds := s.cmds.tail, responses := s.responses ++ [d] } ∧
      exec (.appendEncode buf src) s = .next { s with cmds := s.cmds.tail, responses := s.responses ++ [a] } ∧
      exec (.encodeToText src) s = .next { s with cmds := s.cmds.tail, responses := s.responses ++ [t] } ∧
      d.data.take (2 * src.length) = enc src ∧
      a.data.drop (a.data.length - 2 * src.length) = enc src ∧ t.data = enc src ∧
      d.status = .none ∧ a.status = .none ∧ t.status = .none

/-- 41_oneshot_encode.md R124 (marked [derived] there: the spec's own inference). -/
def Obligations.EncodingDoublesLengthAndConcatenates : Prop :=
  (∀ src : Bytes, (enc src).length = 2 * src.length ∧ 2 * src.length = encodedLength src.length) ∧
  (∀ s u : Bytes, enc (s ++ u) = enc s ++ enc u) ∧
  (∀ chunks : List Bytes, (chunks.map enc).flatten = enc chunks.flatten)

/-! ## One-shot decode -/

/-- 42_oneshot_decode.md R140, R144, R145, 30_encoding.md R72: what the primitive returns after any run of complete
valid pairs `t`: at the end, before a pair whose high or low character is invalid, and before a trailing character.
Every input has one of these forms. -/
def Obligations.DecodeReportsTheFirstInvalidCharacter : Prop :=
  ∀ (P : Params), P.Valid →
    (∀ t : Bytes, wellFormedText P t → ∃ out : Bytes, dec P t = (out, .none) ∧ 2 * out.length = t.length ∧
      (∀ (k : Nat) (p q : Byte), t[2 * k]? = some p → t[2 * k + 1]? = some q →
        out[k]?.map BitVec.toNat = some (16 * (c2n P p).toNat + (c2n P q).toNat)) ∧
      (∀ (p q : Byte) (rest : Bytes), validChar P p = false → dec P (t ++ p :: q :: rest) = (out, .invalidByte p)) ∧
      (∀ (p q : Byte) (rest : Bytes), validChar P p = true → validChar P q = false →
        dec P (t ++ p :: q :: rest) = (out, .invalidByte q)) ∧
      (∀ c : Byte, validChar P c = false → dec P (t ++ [c]) = (out, .invalidByte c)) ∧
      (∀ c : Byte, validChar P c = true → dec P (t ++ [c]) = (out, .oddLength))) ∧
    (∀ src : Bytes, ∃ t : Bytes, wellFormedText P t ∧
      (src = t ∨ (∃ p q rest, src = t ++ p :: q :: rest ∧ (validChar P p = false ∨ validChar P q = false)) ∨
        ∃ c, src = t ++ [c]))

/-- 42_oneshot_decode.md R141: DECODE writes the bytes decoded before an error and leaves the rest of the
destination; a destination too small is the model fault. -/
def Obligations.DecodeKeepsPartialOutput : Prop :=
  (∀ o : Operands, decode 0x0006#16 o = .ok (.decode o.dst o.src)) ∧
  ∀ (dst src : Bytes) (s : State),
    (src.length / 2 ≤ dst.length → ∃ d : Bytes,
      exec (.decode dst src) s =
        .next { s with cmds := s.cmds.tail,
                       responses := s.responses ++
                         [⟨(dec Config.params src).1.length, d, (dec Config.params src).2⟩] } ∧
      d.length = dst.length ∧ d.take (dec Config.params src).1.length = (dec Config.params src).1 ∧
      (∀ j, (dec Config.params src).1.length ≤ j → d[j]? = dst[j]?)) ∧
    (dst.length < src.length / 2 →
      exec (.decode dst src) s = .next { s with cmds := s.cmds.tail, mf := s.mf ++ [.dstTooSmall] })

/-- 42_oneshot_decode.md R142. -/
def Obligations.AppendDecodeExtendsTheBuffer : Prop :=
  (∀ o : Operands, decode 0x0007#16 o = .ok (.appendDecode o.buf o.src)) ∧
  ∀ (buf src : Bytes) (s : State), exec (.appendDecode buf src) s =
    .next { s with cmds := s.cmds.tail,
                   responses := s.responses ++
                     [⟨(buf ++ (dec Config.params src).1).length, buf ++ (dec Config.params src).1,
                       (dec Config.params src).2⟩] }

/-- 42_oneshot_decode.md R143. -/
def Obligations.DecodeTextReturnsTheBytes : Prop :=
  (∀ o : Operands, decode 0x0008#16 o = .ok (.decodeText o.src)) ∧
  ∀ (src : Bytes) (s : State), exec (.decodeText src) s =
    .next { s with cmds := s.cmds.tail,
                   responses := s.responses ++
                     [⟨(dec Config.params src).1.length, (dec Config.params src).1, (dec Config.params src).2⟩] }

/-- 42_oneshot_decode.md R146. -/
def Obligations.RoundTripIsLossless : Prop :=
  ∀ P : Params, P.Valid →
    (∀ B : Bytes, dec P (enc B) = (B, .none)) ∧
    (∀ t : Bytes, wellFormedText P t → (dec P t).1.length = t.length / 2 ∧ (dec P t).2 = .none)

/-- 30_encoding.md R73 (marked [derived] there: the spec's own inference; `lowerCase` is by ASCII codes, log 15). -/
def Obligations.ReencodingGivesTheLowercaseForm : Prop :=
  ∀ P : Params, P.Valid → ∀ t : Bytes, wellFormedText P t →
    (dec P t).1.length = t.length / 2 ∧ enc (dec P t).1 = t.map lowerCase

/-- 42_oneshot_decode.md R147 (marked [derived] there: the spec's own inference). -/
def Obligations.PartialOutputIsTheDecodeOfAPrefix : Prop :=
  ∀ P : Params, P.Valid → ∀ src : Bytes, (dec P src).2 ≠ .none →
    dec P (src.take (2 * (dec P src).1.length)) = ((dec P src).1, .none) ∧
    (∀ k, 2 * k ≤ src.length → (dec P (src.take (2 * k))).2 = .none → k ≤ (dec P src).1.length)

/-! ## Length helpers -/

/-- 43_length_helpers.md R160. -/
def Obligations.EncLenDoubles : Prop :=
  (∀ o : Operands, decode 0x0009#16 o = .ok (.encLen o.n)) ∧
  ∀ (n : Nat) (s : State), exec (.encLen n) s =
    .next { s with cmds := s.cmds.tail, responses := s.responses ++ [⟨2 * n, [], .none⟩] }

/-- 43_length_helpers.md R161. -/
def Obligations.DecLenHalves : Prop :=
  (∀ o : Operands, decode 0x000A#16 o = .ok (.decLen o.n)) ∧
  ∀ (n : Nat) (s : State), exec (.decLen n) s =
    .next { s with cmds := s.cmds.tail, responses := s.responses ++ [⟨n / 2, [], .none⟩] }

/-- 43_length_helpers.md R163: the sizing laws, and the counts of ENCODE and DECODE against them
(marked [derived] there: the spec's own inference). -/
def Obligations.SizingLaws : Prop :=
  (∀ n, decodedLength (encodedLength n) = n) ∧
  (∀ n, encodedLength (decodedLength n) = if n % 2 = 0 then n else n - 1) ∧
  (∀ (dst src : Bytes) (s t : State) (r : Response), exec (.encode dst src) s = .next t →
    t.responses = s.responses ++ [r] → r.count = encodedLength src.length) ∧
  (∀ (dst src : Bytes) (s t : State) (r : Response), exec (.decode dst src) s = .next t →
    t.responses = s.responses ++ [r] → r.count ≤ decodedLength src.length)

/-! ## Streaming encoder -/

/-- 44_stream_encoder.md R170, 10_state.md R38: ENC_NEW gives a clean encoder whatever the slot held, calls no Sink,
and its buffer holds some ENC_CAP bytes; a handle past the slots is BAD_HANDLE. First at the defaults, then at every
choice of the parameters, where a word can spell such a handle (95_test_vectors.md S-E11). -/
def Obligations.EncNewConstructsACleanEncoder : Prop :=
  (∀ (h : Nat) (o : Operands), h < 256 → decode (BitVec.ofNat 16 (256 * h + 0x0B)) o = .ok (.encNew h o.sink)) ∧
  (∀ (h : Nat) (k : SinkId) (s : State),
    (h < 256 → s.enc.length = 256 → ∃ (out : Bytes) (d : Nat), out.length = 1024 ∧
      exec (.encNew h k) s =
        .next { s with enc := s.enc.set h ⟨true, k, .none, out⟩, cmds := s.cmds.tail,
                       responses := s.responses ++ [⟨0, [], .none⟩], draws := d }) ∧
    (256 ≤ h → exec (.encNew h k) s = .next { s with cmds := s.cmds.tail, mf := s.mf ++ [.badHandle] })) ∧
  ∀ (Token : Type) [DecidableEq Token] (P : Params) (h : Nat) (k : SinkId) (s : State Token), P.Valid →
    (h < P.numEncSlots → s.enc.length = P.numEncSlots → ∃ (out : Bytes) (d : Nat), out.length = P.encCap ∧
      execWith P (.encNew h k) s =
        .next { s with enc := s.enc.set h ⟨true, k, .none, out⟩, cmds := s.cmds.tail,
                       responses := s.responses ++ [⟨0, [], .none⟩], draws := d }) ∧
    (P.numEncSlots ≤ h → execWith P (.encNew h k) s = .next { s with cmds := s.cmds.tail, mf := s.mf ++ [.badHandle] })

/-- 44_stream_encoder.md R171-R175, one pass of the loop: the first chunk of at most 512 bytes goes to the Sink as
one call; a fault it signals is stored and ends the write; otherwise the rest of the payload is written as if by
another ENC_WRITE whose progress is added. The next answer of the encoder's Sink is the first one for it. Two clauses are
the model's choice and no rule of the spec: if that other ENC_WRITE would wait for an answer, the whole command waits and
the state stays as it was, the answered first chunk included (log 8); if it would be refused, the whole command
is (log 9). -/
def Obligations.EncWriteHandsTheFirstChunkToTheSink : Prop :=
  (∀ (h : Nat) (o : Operands), h < 256 → decode (BitVec.ofNat 16 (256 * h + 0x0C)) o = .ok (.encWrite h o.p)) ∧
  ∀ (h : Nat) (p : Bytes) (E : EncSlot) (a : SinkAnswer) (before after : List (SinkId × SinkAnswer)) (s : State),
    h < 256 → s.enc[h]? = some E → E.alloc = true → E.fault = .none → E.out.length = 1024 → p ≠ [] →
    s.sinkAnswers = before ++ (E.sink, a) :: after → (∀ x ∈ before, x.1 ≠ E.sink) → a.w ≤ 2 * min p.length 512 →
    let v := enc (p.take 512)
    let E1 : EncSlot := { E with out := v ++ E.out.drop v.length }
    let s1 : State := { s with sinkAnswers := before ++ after, calls := s.calls ++ [.sinkWrite E.sink v a] }
    (∀ t, a.sig = some t → exec (.encWrite h p) s =
      .next { s1 with enc := s.enc.set h { E1 with fault := .ioFault t }, cmds := s.cmds.tail,
                      responses := s.responses ++ [⟨a.w / 2, [], .ioFault t⟩] }) ∧
    (a.sig = none → p.length ≤ 512 → exec (.encWrite h p) s =
      .next { s1 with enc := s.enc.set h E1, cmds := s.cmds.tail,
                      responses := s.responses ++ [⟨a.w / 2, [], .none⟩] }) ∧
    (a.sig = none → 512 < p.length →
      let s2 : State := { s1 with enc := s.enc.set h E1 }
      (∀ (u : State) (r : Response), exec (.encWrite h (p.drop 512)) s2 = .next u →
        u.responses = s.responses ++ [r] →
        exec (.encWrite h p) s =
          .next { u with responses := s.responses ++ [⟨a.w / 2 + r.count, r.data, r.status⟩] }) ∧
      (exec (.encWrite h (p.drop 512)) s2 = .next s2 → exec (.encWrite h p) s = .next s) ∧
      (∀ r, exec (.encWrite h (p.drop 512)) s2 = .refused r → exec (.encWrite h p) s = .refused r))

/-- 44_stream_encoder.md R171 with R172 and R178: an ENC_WRITE on an ACTIVE encoder whose Sink accepts everything
completes with full progress, in `floor(m/512)` calls of 1024 bytes and a shorter last one, and the Sink has accepted
the text of the payload. -/
def Obligations.EncWriteCompletesWhenTheSinkAcceptsAll : Prop :=
  ∀ (h : Nat) (p : Bytes) (E : EncSlot) (rest : List (SinkId × SinkAnswer)) (s : State),
    h < 256 → s.enc[h]? = some E → E.alloc = true → E.fault = .none → E.out.length = 1024 →
    s.sinkAnswers = List.replicate (p.length / 512) (E.sink, ⟨1024, none⟩) ++
      (if p.length % 512 = 0 then [] else [(E.sink, ⟨2 * (p.length % 512), none⟩)]) ++ rest →
    ∃ (out : Bytes) (new : List AgentCall), out.length = 1024 ∧
      exec (.encWrite h p) s =
        .next { s with enc := s.enc.set h { E with out := out }, sinkAnswers := rest, calls := s.calls ++ new,
                       cmds := s.cmds.tail, responses := s.responses ++ [⟨p.length, [], .none⟩] } ∧
      accepted E.sink new = enc p ∧ sent E.sink new = enc p ∧
      new.length = p.length / 512 + (if p.length % 512 = 0 then 0 else 1) ∧
      (∀ (j : Nat) (c : AgentCall), new[j]? = some c →
        ∃ a, c = .sinkWrite E.sink (enc ((p.drop (512 * j)).take 512)) a)

/-- 44_stream_encoder.md R176: "immediately return zero progress and the stored fault without attempting further
work" (the response written out is marked [derived] there: the spec's own inference). -/
def Obligations.EncWriteOnAFaultedEncoderDoesNothing : Prop :=
  ∀ (h : Nat) (p : Bytes) (E : EncSlot) (s : State), h < 256 → s.enc[h]? = some E → E.alloc = true →
    E.fault ≠ .none → exec (.encWrite h p) s =
      .next { s with cmds := s.cmds.tail, responses := s.responses ++ [⟨0, [], E.fault⟩] }

/-- 44_stream_encoder.md R177 (marked [derived] there: the spec's own inference). -/
def Obligations.EncWriteOfNothingCallsNoSink : Prop :=
  ∀ (h : Nat) (E : EncSlot) (s : State), h < 256 → s.enc[h]? = some E → E.alloc = true →
    exec (.encWrite h []) s = .next { s with cmds := s.cmds.tail, responses := s.responses ++ [⟨0, [], E.fault⟩] }

/-- 44_stream_encoder.md R175, R178: whatever the Sink answers, the progress is at most the payload, the status is
the encoder's fault after the loop, and the Sink has been sent the text of a prefix of the payload; if every call was
accepted in full with no fault, the progress is the payload's length and the status NONE (R178 is marked [derived]
there: the spec's own inference). -/
def Obligations.EncWriteProgressIsBounded : Prop :=
  ∀ (h : Nat) (p : Bytes) (E : EncSlot) (s t : State) (r : Response), s.Inv Config.params →
    s.enc[h]? = some E → exec (.encWrite h p) s = .next t → t.responses = s.responses ++ [r] →
    r.count ≤ p.length ∧ r.data = [] ∧ (∃ E', t.enc[h]? = some E' ∧ r.status = E'.fault) ∧
    ∃ (new : List AgentCall) (q : Bytes), t.calls = s.calls ++ new ∧ q <+: p ∧ sent E.sink new = enc q ∧
      (E.fault = .none → (∀ c ∈ new, ∃ v : Bytes, c = .sinkWrite E.sink v ⟨v.length, none⟩) →
        r.count = p.length ∧ r.status = .none ∧ q = p)

/-- 44_stream_encoder.md R179 for one write: full progress means that the Sink has accepted the whole text: the
encoder holds no unsent data (R179 is marked [derived] there: the spec's own inference). -/
def Obligations.FullProgressMeansTheTextIsDelivered : Prop :=
  ∀ (h : Nat) (p : Bytes) (E : EncSlot) (s t : State) (st : Status), s.Inv Config.params → s.enc[h]? = some E →
    exec (.encWrite h p) s = .next t → t.responses = s.responses ++ [⟨p.length, [], st⟩] →
    accepted E.sink t.calls = accepted E.sink s.calls ++ enc p

/-- 44_stream_encoder.md R179, 41_oneshot_encode.md R124, at every capacity: however the input is cut into writes,
once each has been answered with full progress and NONE, the Sink has accepted exactly the text of the whole
input (R179 and R124 are marked [derived] there: the spec's own inferences). -/
def Obligations.AnyChunkingDeliversTheSameText : Prop :=
  ∀ (Token : Type) [DecidableEq Token] (P : Params) (h : Nat) (ps : List Bytes) (E : EncSlot Token)
    (s t : State Token), P.Valid → s.Inv P →
    s.enc[h]? = some E → writeAll P h ps s = some t →
    accepted E.sink t.calls = accepted E.sink s.calls ++ enc ps.flatten

/-- 10_state.md R28, R34, 60_exceptions.md R253: no command but ENC_NEW on the slot changes a faulted encoder
(R28 and R34 are marked [derived] there: the spec's own inferences). -/
def Obligations.EncoderFaultIsSticky : Prop :=
  ∀ (i : Instr) (h : Nat) (E : EncSlot) (s t : State), s.enc[h]? = some E → E.fault ≠ .none →
    (∀ k, i ≠ .encNew h k) → exec i s = .next t → t.enc[h]? = some E

/-- 70_reset_and_hazards.md R287, 93_implementation_defined.md I14, log 8: an ENC_WRITE whose Sink has not answered
leaves the transaction unfinished: nothing changes. -/
def Obligations.EncWriteWaitsForItsSink : Prop :=
  ∀ (h : Nat) (p : Bytes) (E : EncSlot) (s : State), h < 256 → s.enc[h]? = some E → E.alloc = true →
    E.fault = .none → E.out.length = 1024 → p ≠ [] → (∀ x ∈ s.sinkAnswers, x.1 ≠ E.sink) →
    exec (.encWrite h p) s = .next s

/-! ## Streaming decoder -/

/-- 45_stream_decoder.md R200, 10_state.md R38: DEC_NEW gives an IDLE decoder with an empty pending view whatever
the slot held, calls no Source, and its buffer holds some DEC_CAP bytes; a handle past the slots is BAD_HANDLE. First at
the defaults, then at every choice of the parameters, where a word can spell such a handle. -/
def Obligations.DecNewConstructsAnIdleDecoder : Prop :=
  (∀ (h : Nat) (o : Operands), h < 256 → decode (BitVec.ofNat 16 (256 * h + 0x0D)) o = .ok (.decNew h o.source)) ∧
  (∀ (h : Nat) (k : SourceId) (s : State),
    (h < 256 → s.dec.length = 256 → ∃ (arr : Bytes) (d : Nat), arr.length = 1024 ∧
      exec (.decNew h k) s =
        .next { s with dec := s.dec.set h ⟨true, k, .none, arr, 0, 0⟩, cmds := s.cmds.tail,
                       responses := s.responses ++ [⟨0, [], .none⟩], draws := d }) ∧
    (256 ≤ h → exec (.decNew h k) s = .next { s with cmds := s.cmds.tail, mf := s.mf ++ [.badHandle] })) ∧
  ∀ (Token : Type) [DecidableEq Token] (P : Params) (h : Nat) (k : SourceId) (s : State Token), P.Valid →
    (h < P.numDecSlots → s.dec.length = P.numDecSlots → ∃ (arr : Bytes) (d : Nat), arr.length = P.decCap ∧
      execWith P (.decNew h k) s =
        .next { s with dec := s.dec.set h ⟨true, k, .none, arr, 0, 0⟩, cmds := s.cmds.tail,
                       responses := s.responses ++ [⟨0, [], .none⟩], draws := d }) ∧
    (P.numDecSlots ≤ h → execWith P (.decNew h k) s = .next { s with cmds := s.cmds.tail, mf := s.mf ++ [.badHandle] })

/-- 45_stream_decoder.md R201-R207, the FILLING path: fewer than 2 pending bytes and no fault. The Source is asked
for what the buffer has room for, the new pending view is the leftover and what it delivered, at the front of the buffer
whose other bytes stay as they were (R11, R202), the fill's verdict is
stored, whole pairs are decoded from the front, and the stored fault is surfaced only when the decoder is drained. -/
def Obligations.DecReadFillsAndDecodes : Prop :=
  (∀ (h : Nat) (o : Operands), h < 256 → decode (BitVec.ofNat 16 (256 * h + 0x0E)) o = .ok (.decRead h o.n)) ∧
  ∀ (h n : Nat) (D : DecSlot) (a : SourceAnswer) (before after : List (SourceId × SourceAnswer)) (s : State),
    h < 256 → s.dec[h]? = some D → D.alloc = true → D.fault = .none → D.len < 2 → D.arr.length = 1024 →
    D.off + D.len ≤ 1024 → s.sourceAnswers = before ++ (D.source, a) :: after →
    (∀ x ∈ before, x.1 ≠ D.source) → a.v.length ≤ 1024 - D.len →
    let S := D.pending ++ a.v
    let f := fillVerdict S a.sig
    let m := min n (S.length / 2)
    let out := (dec Config.params (S.take (2 * m))).1
    let st := (dec Config.params (S.take (2 * m))).2
    let arr := S ++ D.arr.drop S.length
    exec (.decRead h n) s =
      .next { s with
        dec := s.dec.set h
          (if st = .none then ⟨true, D.source, f, arr, 2 * m, S.length - 2 * m⟩
           else ⟨true, D.source, st, arr, 0, 0⟩),
        sourceAnswers := before ++ after,
        calls := s.calls ++ [.sourceRead D.source (1024 - D.len) a],
        cmds := s.cmds.tail,
        responses := s.responses ++
          [⟨out.length, out, if st ≠ .none then st else if S.length - 2 * m < 2 then f else .none⟩] }

/-- 45_stream_decoder.md R204-R207, R209, the path with no fill: 2 or more bytes pending, or a stored fault. No Source
call is made; whole pairs are decoded from the front of the pending view; an error discards the rest and replaces any
stored condition. -/
def Obligations.DecReadDecodesWhatIsPending : Prop :=
  ∀ (h n : Nat) (D : DecSlot) (s : State),
    h < 256 → s.dec[h]? = some D → D.alloc = true → (2 ≤ D.len ∨ D.fault ≠ .none) → D.arr.length = 1024 →
    D.off + D.len ≤ 1024 →
    let m := min n (D.len / 2)
    let out := (dec Config.params (D.pending.take (2 * m))).1
    let st := (dec Config.params (D.pending.take (2 * m))).2
    exec (.decRead h n) s =
      .next { s with
        dec := s.dec.set h
          (if st = .none then { D with off := D.off + 2 * m, len := D.len - 2 * m }
           else { D with off := 0, len := 0, fault := st }),
        cmds := s.cmds.tail,
        responses := s.responses ++
          [⟨out.length, out, if st ≠ .none then st else if D.len - 2 * m < 2 then D.fault else .none⟩] }

/-- 45_stream_decoder.md R208: "`Faulted` is terminal; all subsequent reads return zero progress and the stored
fault" (R208 is marked [derived] there: the spec's own inference). -/
def Obligations.DecReadOnAFaultedDecoderDoesNothing : Prop :=
  ∀ (h n : Nat) (D : DecSlot) (s : State), h < 256 → s.dec[h]? = some D → D.alloc = true → D.fault ≠ .none →
    D.len < 2 → D.arr.length = 1024 → D.off + D.len ≤ 1024 →
    exec (.decRead h n) s = .next { s with cmds := s.cmds.tail, responses := s.responses ++ [⟨0, [], D.fault⟩] }

/-- 45_stream_decoder.md R210: one Source call exactly when fewer than 2 bytes are pending and no fault is stored,
whatever `n` is (R210 is marked [derived] there: the spec's own inference). -/
def Obligations.DecReadCallsItsSourceExactlyWhenStarved : Prop :=
  ∀ (h n : Nat) (D : DecSlot) (s t : State) (r : Response), s.Inv Config.params → s.dec[h]? = some D →
    exec (.decRead h n) s = .next t → t.responses = s.responses ++ [r] →
    (D.len < 2 ∧ D.fault = .none → ∃ a, t.calls = s.calls ++ [.sourceRead D.source (1024 - D.len) a]) ∧
    (¬(D.len < 2 ∧ D.fault = .none) → t.calls = s.calls)

/-- 70_reset_and_hazards.md R288, 93_implementation_defined.md I14, log 8 (DESIGN CHOICE): a DEC_READ whose Source has
not answered leaves the transaction unfinished: nothing changes. -/
def Obligations.DecReadWaitsForItsSource : Prop :=
  ∀ (h n : Nat) (D : DecSlot) (s : State), h < 256 → s.dec[h]? = some D → D.alloc = true → D.len < 2 →
    D.fault = .none → (∀ x ∈ s.sourceAnswers, x.1 ≠ D.source) → exec (.decRead h n) s = .next s

/-- 45_stream_decoder.md R211 (but for the equality of the count with `m`, which R206 does not keep on a decode
error): the count is the length of the data, and at most `n` and DEC_CAP / 2. -/
def Obligations.DecReadOutputIsBounded : Prop :=
  ∀ (h n : Nat) (s t : State) (r : Response), s.Inv Config.params → exec (.decRead h n) s = .next t →
    t.responses = s.responses ++ [r] → r.count = r.data.length ∧ r.count ≤ n ∧ r.count ≤ 512 ∧ r.status ≠ .oddLength

/-- 10_state.md R32, R33, 70_reset_and_hazards.md R286: a FAULTED decoder (fault stored, fewer than 2 bytes pending)
is changed by no command but DEC_NEW on its slot (R32 and R33 are marked [derived] there: the spec's own inferences). -/
def Obligations.FaultedDecoderIsTerminal : Prop :=
  ∀ (i : Instr) (h : Nat) (D : DecSlot) (s t : State), s.Inv Config.params → s.dec[h]? = some D →
    D.phase = .faulted → (∀ k, i ≠ .decNew h k) → exec i s = .next t → t.dec[h]? = some D

/-- 45_stream_decoder.md R213, the stream law, at every capacity: a fresh decoder read with requests `n >= 1` until
the first status that is not NONE gives the one-shot decode of the whole stream, however the Source splits it, with
END_OF_STREAM for NONE and UNEXPECTED_EOS for ODD_LENGTH; and every later read gives that status and nothing else
(R213 is marked [derived] there: the spec's own inference). -/
def Obligations.StreamDecodesLikeTheWholeText : Prop :=
  ∀ (Token : Type) [DecidableEq Token] (P : Params) (h : Nat) (D : DecSlot Token) (s t : State Token) (ns : List Nat)
    (init more : List (SourceAnswer Token)) (last : SourceAnswer Token) (data : Bytes) (st : Status Token),
    P.Valid → s.Inv P → s.dec[h]? = some D → D.alloc = true → D.fault = .none → D.len = 0 →
    answersOf D.source s.sourceAnswers = init ++ last :: more →
    (∀ a ∈ init, a.sig = .none) → last.sig = .endOfStream → (∀ n ∈ ns, 1 ≤ n) →
    readUntilStatus P h ns s = some (data, st, t) →
    let S := (init.map SourceAnswer.v).flatten ++ last.v
    data = (dec P S Token).1 ∧
    st = (match (dec P S Token).2 with
      | .none => .endOfStream
      | .oddLength => .unexpectedEos
      | e => e) ∧
    ∀ n, execWith P (.decRead h n) t =
      .next { t with cmds := t.cmds.tail, responses := t.responses ++ [⟨0, [], st⟩] }

/-- 45_stream_decoder.md R201, R207 with R213, at every capacity: reading reaches the end. A fresh decoder whose Source
keeps its contract and ends with END_OF_STREAM answers a status that is not NONE after at most one read per answer and
one per decoded byte: no read is turned away and none waits. -/
def Obligations.ReadingReachesTheEnd : Prop :=
  ∀ (Token : Type) [DecidableEq Token] (P : Params) (h : Nat) (D : DecSlot Token) (s : State Token) (ns : List Nat)
    (init more : List (SourceAnswer Token)) (last : SourceAnswer Token),
    P.Valid → s.Inv P → s.dec[h]? = some D → D.alloc = true → D.fault = .none → D.len = 0 →
    answersOf D.source s.sourceAnswers = init ++ last :: more → last.sig = .endOfStream →
    (∀ a ∈ init ++ [last], a.v.length ≤ P.decCap - 1) → (∀ n ∈ ns, 1 ≤ n) →
    init.length + 1 + ((init.map SourceAnswer.v).flatten ++ last.v).length / 2 ≤ ns.length →
    ∃ (data : Bytes) (st : Status Token) (t : State Token), readUntilStatus P h ns s = some (data, st, t)
end

