-- ==== Sys2Proof/Laws/Codec.lean ====
section
/-! SUPPORT. Small facts about the tables and the one-shot primitives. -/

namespace Sys2Proof.Machine

variable {Token : Type}

@[simp] theorem enc_nil : enc [] = [] := rfl
@[simp] theorem enc_cons (b : Byte) (rest : Bytes) : enc (b :: rest) = enc2 b ++ enc rest := rfl
@[simp] theorem enc2_length (b : Byte) : (enc2 b).length = 2 := rfl

/-- Every byte gives two characters. -/
@[simp] theorem enc_length (src : Bytes) : (enc src).length = 2 * src.length := by
  induction src with
  | nil => rfl
  | cons b rest ih => simp [ih]; omega

/-- The table is the formula `N2C[n] = 0x7A - n` of R20. -/
theorem n2c_eq : ∀ n : Nibble, n2c n = 0x7A#8 - n.zeroExtend 8 := by decide

/-- The table's entry of an alphabet character is that character's nibble, at any sentinel. -/
theorem c2n_n2c (P : Params) : ∀ n : Nibble, c2n P (n2c n) = n.zeroExtend 8 := by
  intro n
  have h : ∀ n : Nibble, (0x6B ≤ (n2c n).toNat ∧ (n2c n).toNat ≤ 0x7A) ∧ 0x7A#8 - n2c n = n.zeroExtend 8 := by
    decide
  rw [c2n, if_pos (h n).1, (h n).2]

@[simp] theorem dec_nil (P : Params) : dec P [] Token = ([], .none) := rfl

/-- The output is at most half the input (R141 keeps `dst` large enough by it). -/
theorem dec_length_le (P : Params) (src : Bytes) : 2 * (dec P src Token).1.length ≤ src.length := by
  induction src using dec.induct (P := P) (Token := Token) with
  | case1 => simp
  | case2 c h => simp [dec, h]
  | case3 c h => simp [dec, h]
  | case4 p q rest hp hq ih => simp [dec, hp, hq]; omega
  | case5 p q rest hp hq => simp [dec, hp, hq]
  | case6 p q rest hp => simp [dec, hp]

/-- The primitive reports ODD_LENGTH only on an input of odd length. -/
theorem dec_oddLength (P : Params) (src : Bytes) (h : (dec P src Token).2 = .oddLength) : src.length % 2 = 1 := by
  induction src using dec.induct (P := P) (Token := Token) with
  | case1 => simp at h
  | case2 c hc => simp
  | case3 c hc => simp
  | case4 p q rest hp hq ih =>
    simp only [dec, hp, hq, if_true] at h
    simpa using by have := ih h; omega
  | case5 p q rest hp hq => simp [dec, hp, hq] at h
  | case6 p q rest hp => simp [dec, hp] at h

/-- A decode without error gives half the input's length. -/
theorem dec_length_of_none (P : Params) (src : Bytes) (h : (dec P src Token).2 = .none) :
    2 * (dec P src Token).1.length = src.length := by
  induction src using dec.induct (P := P) (Token := Token) with
  | case1 => simp
  | case2 c hc => simp [dec, hc] at h
  | case3 c hc => simp [dec, hc] at h
  | case4 p q rest hp hq ih =>
    simp only [dec, hp, hq, if_true] at h ⊢
    have := ih h
    simp only [List.length_cons]; omega
  | case5 p q rest hp hq => simp [dec, hp, hq] at h
  | case6 p q rest hp => simp [dec, hp] at h

@[simp] theorem fillDst_length {dst t : Bytes} (h : t.length ≤ dst.length) : (fillDst dst t).length = dst.length := by
  simp [fillDst]; omega

end Sys2Proof.Machine
end

