-- ==== Sys2Proof/Laws/Decode.lean ====
section
/-! SUPPORT. The fields of a command word as numbers, and what the handle check does. -/

namespace Sys2Proof

/-- Bits 7:0 of the word (R74). -/
@[simp] theorem cmdOp_toNat (w : CmdWord) : (cmdOp w).toNat = w.toNat % 256 := by simp [cmdOp]

/-- Bits 15:8 of the word (R74). -/
@[simp] theorem cmdHandle_toNat (w : CmdWord) : (cmdHandle w).toNat = w.toNat / 256 := by
  have := w.isLt
  simp [cmdHandle, Nat.shiftRight_eq_div_pow]; omega

/-- A command without a handle field is accepted when the handle byte is zero. -/
theorem noHandle_zero {w : CmdWord} {i : Instr} (h : w.toNat / 256 = 0) : noHandle w i = .ok i := by
  have : cmdHandle w = 0#8 := by apply BitVec.eq_of_toNat_eq; rw [cmdHandle_toNat, h]; rfl
  simp [noHandle, this]

/-- It is rejected when the handle byte is not zero. -/
theorem noHandle_nonzero {w : CmdWord} {i : Instr} (h : w.toNat / 256 ≠ 0) : ∃ e, noHandle w i = .error e := by
  have : cmdHandle w ≠ 0#8 := by intro hc; apply h; rw [← cmdHandle_toNat, hc]; rfl
  simp [noHandle, this]

end Sys2Proof
end

