-- ==== Sys2Proof/Laws/State.lean ====
section
/-! SUPPORT. Every field after every named update of the state, and the fields of the power-on state. -/

namespace Sys2Proof.Machine

variable {Token : Type}

@[simp] theorem State.respond_enc (s : State Token) (r : Response Token) : (s.respond r).enc = s.enc := rfl
@[simp] theorem State.respond_dec (s : State Token) (r : Response Token) : (s.respond r).dec = s.dec := rfl
@[simp] theorem State.respond_mf (s : State Token) (r : Response Token) : (s.respond r).mf = s.mf := rfl
@[simp] theorem State.respond_cmds (s : State Token) (r : Response Token) : (s.respond r).cmds = s.cmds.tail := rfl
@[simp] theorem State.respond_responses (s : State Token) (r : Response Token) :
    (s.respond r).responses = s.responses ++ [r] := rfl
@[simp] theorem State.respond_sinkAnswers (s : State Token) (r : Response Token) :
    (s.respond r).sinkAnswers = s.sinkAnswers := rfl
@[simp] theorem State.respond_sourceAnswers (s : State Token) (r : Response Token) :
    (s.respond r).sourceAnswers = s.sourceAnswers := rfl
@[simp] theorem State.respond_calls (s : State Token) (r : Response Token) : (s.respond r).calls = s.calls := rfl
@[simp] theorem State.respond_draws (s : State Token) (r : Response Token) : (s.respond r).draws = s.draws := rfl

@[simp] theorem State.raiseFault_enc (s : State Token) (m : ModelFault) : (s.raiseFault m).enc = s.enc := rfl
@[simp] theorem State.raiseFault_dec (s : State Token) (m : ModelFault) : (s.raiseFault m).dec = s.dec := rfl
@[simp] theorem State.raiseFault_mf (s : State Token) (m : ModelFault) : (s.raiseFault m).mf = s.mf ++ [m] := rfl
@[simp] theorem State.raiseFault_cmds (s : State Token) (m : ModelFault) : (s.raiseFault m).cmds = s.cmds.tail := rfl
@[simp] theorem State.raiseFault_responses (s : State Token) (m : ModelFault) :
    (s.raiseFault m).responses = s.responses := rfl
@[simp] theorem State.raiseFault_sinkAnswers (s : State Token) (m : ModelFault) :
    (s.raiseFault m).sinkAnswers = s.sinkAnswers := rfl
@[simp] theorem State.raiseFault_sourceAnswers (s : State Token) (m : ModelFault) :
    (s.raiseFault m).sourceAnswers = s.sourceAnswers := rfl
@[simp] theorem State.raiseFault_calls (s : State Token) (m : ModelFault) : (s.raiseFault m).calls = s.calls := rfl
@[simp] theorem State.raiseFault_draws (s : State Token) (m : ModelFault) : (s.raiseFault m).draws = s.draws := rfl

@[simp] theorem State.putEnc_enc (s : State Token) (h : Nat) (E : EncSlot Token) :
    (s.putEnc h E).enc = s.enc.set h E := rfl
@[simp] theorem State.putEnc_dec (s : State Token) (h : Nat) (E : EncSlot Token) : (s.putEnc h E).dec = s.dec := rfl
@[simp] theorem State.putEnc_mf (s : State Token) (h : Nat) (E : EncSlot Token) : (s.putEnc h E).mf = s.mf := rfl
@[simp] theorem State.putEnc_cmds (s : State Token) (h : Nat) (E : EncSlot Token) : (s.putEnc h E).cmds = s.cmds := rfl
@[simp] theorem State.putEnc_responses (s : State Token) (h : Nat) (E : EncSlot Token) :
    (s.putEnc h E).responses = s.responses := rfl
@[simp] theorem State.putEnc_sinkAnswers (s : State Token) (h : Nat) (E : EncSlot Token) :
    (s.putEnc h E).sinkAnswers = s.sinkAnswers := rfl
@[simp] theorem State.putEnc_sourceAnswers (s : State Token) (h : Nat) (E : EncSlot Token) :
    (s.putEnc h E).sourceAnswers = s.sourceAnswers := rfl
@[simp] theorem State.putEnc_calls (s : State Token) (h : Nat) (E : EncSlot Token) :
    (s.putEnc h E).calls = s.calls := rfl
@[simp] theorem State.putEnc_draws (s : State Token) (h : Nat) (E : EncSlot Token) :
    (s.putEnc h E).draws = s.draws := rfl

@[simp] theorem State.putDec_enc (s : State Token) (h : Nat) (D : DecSlot Token) : (s.putDec h D).enc = s.enc := rfl
@[simp] theorem State.putDec_dec (s : State Token) (h : Nat) (D : DecSlot Token) :
    (s.putDec h D).dec = s.dec.set h D := rfl
@[simp] theorem State.putDec_mf (s : State Token) (h : Nat) (D : DecSlot Token) : (s.putDec h D).mf = s.mf := rfl
@[simp] theorem State.putDec_cmds (s : State Token) (h : Nat) (D : DecSlot Token) : (s.putDec h D).cmds = s.cmds := rfl
@[simp] theorem State.putDec_responses (s : State Token) (h : Nat) (D : DecSlot Token) :
    (s.putDec h D).responses = s.responses := rfl
@[simp] theorem State.putDec_sinkAnswers (s : State Token) (h : Nat) (D : DecSlot Token) :
    (s.putDec h D).sinkAnswers = s.sinkAnswers := rfl
@[simp] theorem State.putDec_sourceAnswers (s : State Token) (h : Nat) (D : DecSlot Token) :
    (s.putDec h D).sourceAnswers = s.sourceAnswers := rfl
@[simp] theorem State.putDec_calls (s : State Token) (h : Nat) (D : DecSlot Token) :
    (s.putDec h D).calls = s.calls := rfl
@[simp] theorem State.putDec_draws (s : State Token) (h : Nat) (D : DecSlot Token) :
    (s.putDec h D).draws = s.draws := rfl

@[simp] theorem State.drew_enc (s : State Token) : s.drew.enc = s.enc := rfl
@[simp] theorem State.drew_dec (s : State Token) : s.drew.dec = s.dec := rfl
@[simp] theorem State.drew_mf (s : State Token) : s.drew.mf = s.mf := rfl
@[simp] theorem State.drew_cmds (s : State Token) : s.drew.cmds = s.cmds := rfl
@[simp] theorem State.drew_responses (s : State Token) : s.drew.responses = s.responses := rfl
@[simp] theorem State.drew_sinkAnswers (s : State Token) : s.drew.sinkAnswers = s.sinkAnswers := rfl
@[simp] theorem State.drew_sourceAnswers (s : State Token) : s.drew.sourceAnswers = s.sourceAnswers := rfl
@[simp] theorem State.drew_calls (s : State Token) : s.drew.calls = s.calls := rfl
@[simp] theorem State.drew_draws (s : State Token) : s.drew.draws = s.draws + 1 := rfl

@[simp] theorem State.powerOn_enc (P : Params) :
    (State.powerOn P Token).enc = List.replicate P.numEncSlots (EncSlot.powerOn P Token) := rfl
@[simp] theorem State.powerOn_dec (P : Params) :
    (State.powerOn P Token).dec = List.replicate P.numDecSlots (DecSlot.powerOn P Token) := rfl
@[simp] theorem State.powerOn_mf (P : Params) : (State.powerOn P Token).mf = [] := rfl
@[simp] theorem State.powerOn_cmds (P : Params) : (State.powerOn P Token).cmds = [] := rfl
@[simp] theorem State.powerOn_responses (P : Params) : (State.powerOn P Token).responses = [] := rfl
@[simp] theorem State.powerOn_sinkAnswers (P : Params) : (State.powerOn P Token).sinkAnswers = [] := rfl
@[simp] theorem State.powerOn_sourceAnswers (P : Params) : (State.powerOn P Token).sourceAnswers = [] := rfl
@[simp] theorem State.powerOn_calls (P : Params) : (State.powerOn P Token).calls = [] := rfl
@[simp] theorem State.powerOn_draws (P : Params) : (State.powerOn P Token).draws = 0 := rfl

@[simp] theorem illegalCommand_eq (s : State Token) : illegalCommand s = s.raiseFault .illegalCommand := rfl

@[simp] theorem fetch_cons {s : State Token} {c : Command} {rest : List Command} (h : s.cmds = c :: rest) :
    fetch s = some c := by simp [fetch, h]

@[simp] theorem fetch_nil {s : State Token} (h : s.cmds = []) : fetch s = none := by simp [fetch, h]

/-- The command placed by `withFetchWord` is the one the step takes. -/
@[simp] theorem fetch_withFetchWord (s : State) (nbits w : Nat) :
    fetch (s.withFetchWord nbits w) = some ⟨BitVec.ofNat 16 w, Operands.zero⟩ := rfl

/-- Putting back the record a slot holds changes nothing. -/
theorem State.putEnc_same {s : State Token} {h : Nat} {E : EncSlot Token} (hE : s.enc[h]? = some E) :
    s.putEnc h E = s := by
  obtain ⟨hlt, rfl⟩ := List.getElem?_eq_some_iff.mp hE
  cases s; simp [State.putEnc]

/-- Likewise for a decoder slot. -/
theorem State.putDec_same {s : State Token} {h : Nat} {D : DecSlot Token} (hD : s.dec[h]? = some D) :
    s.putDec h D = s := by
  obtain ⟨hlt, rfl⟩ := List.getElem?_eq_some_iff.mp hD
  cases s; simp [State.putDec]

end Sys2Proof.Machine
end

