-- ==== Sys2Proof/Laws/Ops.lean ====
section
/-! SUPPORT. What the shared operations can do, said once: transactions, buffer accesses, answers and agent calls. -/

namespace Sys2Proof.Machine

variable {Token : Type}

/-! ## Transactions -/

@[simp] theorem Txn.done_andThen {α β : Type} (a : α) (f : α → Txn β) : (Txn.done a).andThen f = f a := rfl
@[simp] theorem Txn.waits_andThen {α β : Type} (f : α → Txn β) : Txn.waits.andThen f = .waits := rfl
@[simp] theorem Txn.fault_andThen {α β : Type} (e : Fault) (f : α → Txn β) : (Txn.fault e).andThen f = .fault e := rfl
@[simp] theorem Txn.refuse_andThen {α β : Type} (r : Refusal) (f : α → Txn β) :
    (Txn.refuse r).andThen f = .refuse r := rfl

/-- A sequence is done exactly when both parts are. -/
theorem Txn.andThen_eq_done {α β : Type} {x : Txn α} {f : α → Txn β} {b : β} :
    x.andThen f = .done b ↔ ∃ a, x = .done a ∧ f a = .done b := by
  cases x <;> simp [Txn.andThen]

/-- A sequence faults exactly when its first part does, or that is done and the second does. -/
theorem Txn.andThen_eq_fault {α β : Type} {x : Txn α} {f : α → Txn β} {e : Fault} :
    x.andThen f = .fault e ↔ x = .fault e ∨ ∃ a, x = .done a ∧ f a = .fault e := by
  cases x <;> simp [Txn.andThen]

/-- A sequence waits exactly when its first part does, or that is done and the second does. -/
theorem Txn.andThen_eq_waits {α β : Type} {x : Txn α} {f : α → Txn β} :
    x.andThen f = .waits ↔ x = .waits ∨ ∃ a, x = .done a ∧ f a = .waits := by
  cases x <;> simp [Txn.andThen]

/-- A sequence is refused exactly when its first part is, or that is done and the second is. -/
theorem Txn.andThen_eq_refuse {α β : Type} {x : Txn α} {f : α → Txn β} {r : Refusal} :
    x.andThen f = .refuse r ↔ x = .refuse r ∨ ∃ a, x = .done a ∧ f a = .refuse r := by
  cases x <;> simp [Txn.andThen]

/-- A transaction that answers a next state is done there, or waits where it began. -/
theorem conclude_eq_next {s t : State Token} {x : Txn (State Token)} :
    conclude s x = .next t ↔ x = .done t ∨ (x = .waits ∧ t = s) := by
  cases x <;> simp [conclude, eq_comm]

theorem conclude_eq_fault {s : State Token} {x : Txn (State Token)} {e : Fault} :
    conclude s x = .fault e ↔ x = .fault e := by
  cases x <;> simp [conclude]

theorem conclude_eq_refused {s : State Token} {x : Txn (State Token)} {r : Refusal} :
    conclude s x = .refused r ↔ x = .refuse r := by
  cases x <;> simp [conclude]

/-! ## Buffers -/

/-- An access inside the buffer succeeds. -/
theorem memRead_inside {f : Fault} {B : Bytes} {a n : Nat} (h : a + n ≤ B.length) :
    memRead f B a n = .done ((B.drop a).take n) := by simp [memRead, h]

theorem memWrite_inside {f : Fault} {B v : Bytes} {a : Nat} (h : a + v.length ≤ B.length) :
    memWrite f B a v = .done (B.take a ++ v ++ B.drop (a + v.length)) := by simp [memWrite, h]

theorem memByte_inside {f : Fault} {B : Bytes} {a : Nat} (h : a < B.length) : memByte f B a = .done B[a] := by
  simp [memByte, h]

/-- A read that is done gives the bytes of the range, all of them inside. -/
theorem memRead_done {f : Fault} {B v : Bytes} {a n : Nat} (h : memRead f B a n = .done v) :
    a + n ≤ B.length ∧ v = (B.drop a).take n ∧ v.length = n := by
  unfold memRead at h
  split at h
  · cases h; simp; omega
  · cases h

/-- A write that is done was inside, and keeps the buffer's length: the canonical form (log 11). -/
theorem memWrite_done {f : Fault} {B B' v : Bytes} {a : Nat} (h : memWrite f B a v = .done B') :
    a + v.length ≤ B.length ∧ B' = B.take a ++ v ++ B.drop (a + v.length) ∧ B'.length = B.length := by
  unfold memWrite at h
  split at h
  · cases h; simp; omega
  · cases h

/-- A write keeps the canonical form of a buffer. -/
theorem memWrite_wf {f : Fault} {cap : Nat} {B B' v : Bytes} {a : Nat} (hB : bufferWf cap B)
    (h : memWrite f B a v = .done B') : bufferWf cap B' := by
  simp only [bufferWf] at *; rw [(memWrite_done h).2.2, hB]

/-- Reading back what was written. -/
theorem memRead_memWrite_same {f g : Fault} {B B' v : Bytes} {a : Nat} (h : memWrite f B a v = .done B') :
    memRead g B' a v.length = .done v := by
  obtain ⟨hle, rfl, -⟩ := memWrite_done h
  have hta : (B.take a).length = a := by simp; omega
  rw [memRead_inside (by simp; omega), List.append_assoc, List.drop_append_of_le_length (by omega)]
  simp

/-- A byte outside the written range is unchanged. -/
theorem memWrite_other {f : Fault} {B B' v : Bytes} {a i : Nat} (h : memWrite f B a v = .done B')
    (hi : i < a ∨ a + v.length ≤ i) : B'[i]? = B[i]? := by
  obtain ⟨hle, rfl, -⟩ := memWrite_done h
  rcases hi with hi | hi
  · rw [List.append_assoc, List.getElem?_append_left (by simp; omega)]
    simp [hi]
  · rw [List.getElem?_append_right (by simp; omega)]
    simp only [List.length_append, List.length_take, List.getElem?_drop]
    congr 1; omega

@[simp] theorem memWrite_ne_waits {f : Fault} {B v : Bytes} {a : Nat} : memWrite f B a v ≠ .waits := by
  unfold memWrite; split <;> simp

@[simp] theorem memRead_ne_waits {f : Fault} {B : Bytes} {a n : Nat} : memRead f B a n ≠ .waits := by
  unfold memRead; split <;> simp

@[simp] theorem memWrite_ne_refuse {f : Fault} {B v : Bytes} {a : Nat} {r : Refusal} :
    memWrite f B a v ≠ .refuse r := by unfold memWrite; split <;> simp

@[simp] theorem memRead_ne_refuse {f : Fault} {B : Bytes} {a n : Nat} {r : Refusal} :
    memRead f B a n ≠ .refuse r := by unfold memRead; split <;> simp

@[simp] theorem freeBytes_length (d n : Nat) : (freeBytes d n).length = n := by simp [freeBytes]

/-! ## Answers and agent calls -/

/-- The answer at the front of the list, when it is agent `k`'s. -/
@[simp] theorem popAnswer_head {α : Type} (k : Nat) (a : α) (rest : List (Nat × α)) :
    popAnswer k ((k, a) :: rest) = some (a, rest) := by simp [popAnswer]

/-- What taking agent `k`'s next answer means: the answers before it are other agents', and stay. -/
theorem popAnswer_eq_some {α : Type} {k : Nat} {q r : List (Nat × α)} {a : α} (h : popAnswer k q = some (a, r)) :
    ∃ before after, q = before ++ (k, a) :: after ∧ r = before ++ after ∧ ∀ x ∈ before, x.1 ≠ k := by
  induction q generalizing r with
  | nil => simp [popAnswer] at h
  | cons x rest ih =>
    obtain ⟨j, b⟩ := x
    by_cases hj : j = k
    · subst hj
      simp only [popAnswer_head, Option.some.injEq, Prod.mk.injEq] at h
      obtain ⟨rfl, rfl⟩ := h
      exact ⟨[], rest, rfl, rfl, by simp⟩
    · simp only [popAnswer, if_neg hj, Option.map_eq_some_iff] at h
      obtain ⟨⟨c, r'⟩, hr, heq⟩ := h
      simp only [Prod.mk.injEq] at heq
      obtain ⟨rfl, rfl⟩ := heq
      obtain ⟨before, after, rfl, rfl, hb⟩ := ih hr
      exact ⟨(j, b) :: before, after, rfl, rfl, by simpa [hj] using hb⟩

/-- Agent `k`'s next answer is the first one for it, whatever other agents' answers stand before. -/
theorem popAnswer_first {α : Type} {k : Nat} {a : α} {before after : List (Nat × α)} (hb : ∀ x ∈ before, x.1 ≠ k) :
    popAnswer k (before ++ (k, a) :: after) = some (a, before ++ after) := by
  induction before with
  | nil => simp
  | cons x rest ih =>
    obtain ⟨j, b⟩ := x
    have hj : j ≠ k := hb (j, b) (by simp)
    simp [popAnswer, hj, ih (fun x hx => hb x (by simp [hx]))]

/-- Agent `k` has no answer exactly when no entry is its own. -/
theorem popAnswer_eq_none {α : Type} {k : Nat} {q : List (Nat × α)} : popAnswer k q = none ↔ ∀ x ∈ q, x.1 ≠ k := by
  induction q with
  | nil => simp [popAnswer]
  | cons x rest ih =>
    obtain ⟨j, b⟩ := x
    by_cases hj : j = k <;> simp [popAnswer, hj, ih]

/-- A Sink call that is done used the Sink's next answer, inside its contract, and recorded the call. -/
theorem sinkWrite_eq_done {k : SinkId} {v : Bytes} {s t : State Token} {a : SinkAnswer Token} :
    sinkWrite k v s = .done (a, t) ↔
      ∃ rest, popAnswer k s.sinkAnswers = some (a, rest) ∧ a.w ≤ v.length ∧
        t = { s with sinkAnswers := rest, calls := s.calls ++ [.sinkWrite k v a] } := by
  unfold sinkWrite
  split
  · simp_all
  · next b rest hp =>
    rw [hp]
    split <;> simp <;> grind

/-- A Sink call waits exactly when the Sink has not answered. -/
theorem sinkWrite_eq_waits {k : SinkId} {v : Bytes} {s : State Token} :
    sinkWrite k v s = .waits ↔ popAnswer k s.sinkAnswers = none := by
  unfold sinkWrite
  split
  · simp_all
  · next hp => rw [hp]; split <;> simp

theorem sinkWrite_ne_fault {k : SinkId} {v : Bytes} {s : State Token} {e : Fault} : sinkWrite k v s ≠ .fault e := by
  unfold sinkWrite
  split
  · simp
  · split <;> simp

/-- A Sink call is refused exactly when the Sink's next answer is outside its contract. -/
theorem sinkWrite_eq_refuse {k : SinkId} {v : Bytes} {s : State Token} {r : Refusal} :
    sinkWrite k v s = .refuse r ↔
      r = .sinkAnswerOutsideContract ∧ ∃ a rest, popAnswer k s.sinkAnswers = some (a, rest) ∧ v.length < a.w := by
  unfold sinkWrite
  split
  · simp_all
  · next b rest hp =>
    rw [hp]
    split <;> simp <;> grind

/-- A Sink call neither reads nor writes the slots. -/
theorem sinkWrite_slots (k : SinkId) (v : Bytes) (s : State Token) (e : List (EncSlot Token))
    (d : List (DecSlot Token)) :
    sinkWrite k v { s with enc := e, dec := d } =
      (sinkWrite k v s).andThen fun (a, t) => .done (a, { t with enc := e, dec := d }) := by
  unfold sinkWrite
  cases popAnswer k s.sinkAnswers with
  | none => rfl
  | some x => simp only; split <;> rfl

/-- A Source call that is done used the Source's next answer, inside its contract, and recorded the call. -/
theorem sourceRead_eq_done {k : SourceId} {r : Nat} {s t : State Token} {a : SourceAnswer Token} :
    sourceRead k r s = .done (a, t) ↔
      ∃ rest, popAnswer k s.sourceAnswers = some (a, rest) ∧ a.v.length ≤ r ∧
        t = { s with sourceAnswers := rest, calls := s.calls ++ [.sourceRead k r a] } := by
  unfold sourceRead
  split
  · simp_all
  · next b rest hp =>
    rw [hp]
    split <;> simp <;> grind

/-- A Source call waits exactly when the Source has not answered. -/
theorem sourceRead_eq_waits {k : SourceId} {r : Nat} {s : State Token} :
    sourceRead k r s = .waits ↔ popAnswer k s.sourceAnswers = none := by
  unfold sourceRead
  split
  · simp_all
  · next hp => rw [hp]; split <;> simp

theorem sourceRead_ne_fault {k : SourceId} {r : Nat} {s : State Token} {e : Fault} : sourceRead k r s ≠ .fault e := by
  unfold sourceRead
  split
  · simp
  · split <;> simp

/-- A Source call is refused exactly when the Source's next answer is outside its contract. -/
theorem sourceRead_eq_refuse {k : SourceId} {n : Nat} {s : State Token} {r : Refusal} :
    sourceRead k n s = .refuse r ↔
      r = .sourceAnswerOutsideContract ∧ ∃ a rest, popAnswer k s.sourceAnswers = some (a, rest) ∧ n < a.v.length := by
  unfold sourceRead
  split
  · simp_all
  · next b rest hp =>
    rw [hp]
    split <;> simp <;> grind

end Sys2Proof.Machine
end

