-- ==== Sys2Proof/Laws/Stream.lean ====
section
/-! SUPPORT. What the steps of the streaming commands can do, said once: they keep the records well formed, they form
no index outside a buffer, and they change only what their rules say. -/

namespace Sys2Proof.Machine

variable {Token : Type} [DecidableEq Token]

/-! ## The streaming encoder -/

/-- One pass of the loop that is done (R171): the chunk is encoded into the buffer, the Sink takes it, and the loop
goes on. -/
theorem encLoop_succ_eq (P : Params) (fuel n : Nat) (p : Bytes) (E : EncSlot Token) (s : State Token)
    (hp : 0 < p.length) (hf : E.fault = .none) (hout : E.out.length = P.encCap) :
    encLoop P (fuel + 1) n p E s =
      (sinkWrite E.sink (enc (p.take (min p.length P.encChunk))) s).andThen fun (a, t) =>
        encLoop P fuel (n + a.w / 2) (p.drop (min p.length P.encChunk))
          { E with out := enc (p.take (min p.length P.encChunk)) ++ E.out.drop (2 * min p.length P.encChunk),
                   fault := sinkFault a.sig E.fault } t := by
  have hc : 2 * min p.length P.encChunk ≤ P.encCap := by simp only [Params.encChunk]; omega
  have hl : (enc (p.take (min p.length P.encChunk))).length = 2 * min p.length P.encChunk := by simp
  conv_lhs => unfold encLoop
  rw [if_pos ⟨hp, hf⟩]
  simp only
  rw [memWrite_inside (by rw [hl, hout]; omega)]
  simp only [Txn.done_andThen, List.take_zero, List.nil_append, hl, Nat.zero_add]
  rw [memRead_inside (by rw [List.length_append, hl, List.length_drop, hout]; omega)]
  simp only [Txn.done_andThen, List.drop_zero]
  rw [List.take_left' hl]

/-- The loop stops at once on an empty payload or a stored fault (R174). -/
theorem encLoop_stop (P : Params) (fuel n : Nat) (p : Bytes) (E : EncSlot Token) (s : State Token)
    (h : p = [] ∨ E.fault ≠ .none) : encLoop P fuel n p E s = .done (n, E, s) := by
  cases fuel with
  | zero => rfl
  | succ k =>
    unfold encLoop
    rw [if_neg]
    rintro ⟨hp, hf⟩
    rcases h with rfl | h
    · simp at hp
    · exact h hf

/-- Everything a loop that is done can have changed. -/
structure EncLoopDone (n : Nat) (p : Bytes) (E : EncSlot Token) (s : State Token) (n' : Nat) (E' : EncSlot Token)
    (t : State Token) :
    Prop where
  alloc : E'.alloc = E.alloc
  sink : E'.sink = E.sink
  out : E'.out.length = E.out.length
  fault : E'.fault = E.fault ∨ ∃ tok, E'.fault = .ioFault tok
  lower : n ≤ n'
  upper : n' ≤ n + p.length
  state : t = { s with sinkAnswers := t.sinkAnswers, calls := t.calls }
  calls : ∃ new, t.calls = s.calls ++ new ∧ ∀ c ∈ new, ∃ v a, c = .sinkWrite E.sink v a

omit [DecidableEq Token] in
/-- The fields a loop leaves as they were, one equation each. -/
theorem EncLoopDone.frame {n n' : Nat} {p : Bytes} {E E' : EncSlot Token} {s t : State Token}
    (d : EncLoopDone n p E s n' E' t) :
    t.enc = s.enc ∧ t.dec = s.dec ∧ t.mf = s.mf ∧ t.cmds = s.cmds ∧ t.responses = s.responses ∧
      t.sourceAnswers = s.sourceAnswers ∧ t.draws = s.draws := by
  refine ⟨?_, ?_, ?_, ?_, ?_, ?_, ?_⟩ <;> rw [d.state]

/-- What the loop can do, once. -/
theorem encLoop_done {P : Params} {fuel n n' : Nat} {p : Bytes} {E E' : EncSlot Token} {s t : State Token}
    (hout : E.out.length = P.encCap) (h : encLoop P fuel n p E s = .done (n', E', t)) :
    EncLoopDone n p E s n' E' t := by
  induction fuel generalizing n p E s with
  | zero =>
    simp only [encLoop, Txn.done.injEq, Prod.mk.injEq] at h
    obtain ⟨rfl, rfl, rfl⟩ := h
    exact ⟨rfl, rfl, rfl, .inl rfl, le_refl _, by omega, rfl, [], by simp⟩
  | succ k ih =>
    by_cases hgo : 0 < p.length ∧ E.fault = .none
    · obtain ⟨hp, hf⟩ := hgo
      rw [encLoop_succ_eq P k n p E s hp hf hout] at h
      obtain ⟨⟨a, u⟩, hs, hrest⟩ := Txn.andThen_eq_done.mp h
      obtain ⟨rest, -, hw, rfl⟩ := sinkWrite_eq_done.mp hs
      have hl : (enc (p.take (min p.length P.encChunk))).length = 2 * min p.length P.encChunk := by simp
      have hc : 2 * min p.length P.encChunk ≤ P.encCap := by simp only [Params.encChunk]; omega
      have hlen : (enc (p.take (min p.length P.encChunk)) ++
          E.out.drop (2 * min p.length P.encChunk)).length = E.out.length := by
        rw [List.length_append, hl, List.length_drop]; omega
      have d := ih (by simpa only using hlen.trans hout) hrest
      refine ⟨d.alloc, d.sink, d.out.trans hlen, ?_, ?_, ?_, ?_, ?_⟩
      · rcases d.fault with hd | hd
        · cases hsig : a.sig with
          | none => left; simpa [sinkFault, hsig] using hd
          | some tok => right; exact ⟨tok, by simpa [sinkFault, hsig] using hd⟩
        · exact .inr hd
      · have := d.lower; omega
      · have hup := d.upper
        rw [hl] at hw
        rw [List.length_drop] at hup
        omega
      · exact d.state
      · obtain ⟨new, hnew, hall⟩ := d.calls
        refine ⟨.sinkWrite E.sink (enc (p.take (min p.length P.encChunk))) a :: new, by rw [hnew]; simp, ?_⟩
        rintro c (_ | ⟨_, hc⟩)
        · exact ⟨_, _, rfl⟩
        · exact hall c hc
    · rw [encLoop_stop P (k + 1) n p E s (by
        by_cases hp : 0 < p.length
        · exact .inr fun hf => hgo ⟨hp, hf⟩
        · left; exact List.length_eq_zero_iff.mp (by omega))] at h
      simp only [Txn.done.injEq, Prod.mk.injEq] at h
      obtain ⟨rfl, rfl, rfl⟩ := h
      exact ⟨rfl, rfl, rfl, .inl rfl, le_refl _, by omega, rfl, [], by simp⟩

/-- Whatever buffer it starts from, a loop that is done has changed no field of the state but the Sinks' answers and
the call log. -/
theorem encLoop_frame {P : Params} {fuel n n' : Nat} {p : Bytes} {E E' : EncSlot Token} {s t : State Token}
    (h : encLoop P fuel n p E s = .done (n', E', t)) :
    t = { s with sinkAnswers := t.sinkAnswers, calls := t.calls } := by
  induction fuel generalizing n p E s with
  | zero => simp only [encLoop, Txn.done.injEq, Prod.mk.injEq] at h; rw [← h.2.2]
  | succ k ih =>
    simp only [encLoop] at h
    split at h
    · obtain ⟨out, -, h⟩ := Txn.andThen_eq_done.mp h
      obtain ⟨v, -, h⟩ := Txn.andThen_eq_done.mp h
      obtain ⟨⟨a, u⟩, hs, h⟩ := Txn.andThen_eq_done.mp h
      obtain ⟨rest, -, -, rfl⟩ := sinkWrite_eq_done.mp hs
      have d := ih h
      exact d
    · simp only [Txn.done.injEq, Prod.mk.injEq] at h; rw [← h.2.2]

/-- The loop forms no index outside the buffer (R51). -/
theorem encLoop_ne_fault {P : Params} {fuel n : Nat} {p : Bytes} {E : EncSlot Token} {s : State Token} {e : Fault}
    (hout : E.out.length = P.encCap) : encLoop P fuel n p E s ≠ .fault e := by
  induction fuel generalizing n p E s with
  | zero => simp [encLoop]
  | succ k ih =>
    by_cases hgo : 0 < p.length ∧ E.fault = .none
    · obtain ⟨hp, hf⟩ := hgo
      rw [encLoop_succ_eq P k n p E s hp hf hout]
      intro h
      rcases Txn.andThen_eq_fault.mp h with h | ⟨⟨a, u⟩, -, h⟩
      · exact sinkWrite_ne_fault h
      · refine ih ?_ h
        have hc : 2 * min p.length P.encChunk ≤ P.encCap := by simp only [Params.encChunk]; omega
        simp only [List.length_append, enc_length, List.length_take, List.length_drop]
        omega
    · rw [encLoop_stop P (k + 1) n p E s (by
        by_cases hp : 0 < p.length
        · exact .inr fun hf => hgo ⟨hp, hf⟩
        · left; exact List.length_eq_zero_iff.mp (by omega))]
      simp

/-- Any number of passes that covers the payload gives the same loop. -/
theorem encLoop_fuel {P : Params} (hc : 1 ≤ P.encChunk) {f g n : Nat} {p : Bytes} {E : EncSlot Token} {s : State Token}
    (hf : p.length ≤ f) (hg : p.length ≤ g) : encLoop P f n p E s = encLoop P g n p E s := by
  induction f generalizing g n p E s with
  | zero =>
    have hp : p = [] := List.length_eq_zero_iff.mp (by omega)
    rw [encLoop_stop P 0 n p E s (.inl hp), encLoop_stop P g n p E s (.inl hp)]
  | succ f ih =>
    cases g with
    | zero =>
      have hp : p = [] := List.length_eq_zero_iff.mp (by omega)
      rw [encLoop_stop P _ n p E s (.inl hp), encLoop_stop P _ n p E s (.inl hp)]
    | succ g =>
      simp only [encLoop]
      split
      · congr 1; funext out; congr 1; funext v; congr 1; funext x
        exact ih (by simp; omega) (by simp; omega)
      · rfl

/-- The progress the loop starts from is added to what it makes. -/
theorem encLoop_offset (P : Params) (f n k : Nat) (p : Bytes) (E : EncSlot Token) (s : State Token) :
    encLoop P f (k + n) p E s = (encLoop P f n p E s).andThen fun (m, E', t) => .done (k + m, E', t) := by
  induction f generalizing n p E s with
  | zero => rfl
  | succ f ih =>
    simp only [encLoop]
    split
    · cases memWrite Fault.outIndex E.out 0 (enc (p.take (min p.length P.encChunk))) with
      | done out =>
        simp only [Txn.done_andThen]
        cases memRead Fault.outIndex out 0 (2 * min p.length P.encChunk) with
        | done v =>
          simp only [Txn.done_andThen]
          cases sinkWrite E.sink v s with
          | done x => simp only [Txn.done_andThen]; rw [Nat.add_assoc]; exact ih _ _ _ _
          | _ => rfl
        | _ => rfl
      | _ => rfl
    · rfl

/-- The loop neither reads nor writes the state's slots. -/
theorem encLoop_slots (P : Params) (f n : Nat) (p : Bytes) (E : EncSlot Token) (s : State Token)
    (e : List (EncSlot Token))
    (d : List (DecSlot Token)) : encLoop P f n p E { s with enc := e, dec := d } =
      (encLoop P f n p E s).andThen fun (m, E', t) => .done (m, E', { t with enc := e, dec := d }) := by
  induction f generalizing n p E s with
  | zero => rfl
  | succ f ih =>
    simp only [encLoop]
    split
    · cases memWrite Fault.outIndex E.out 0 (enc (p.take (min p.length P.encChunk))) with
      | done out =>
        simp only [Txn.done_andThen]
        cases memRead Fault.outIndex out 0 (2 * min p.length P.encChunk) with
        | done v =>
          simp only [Txn.done_andThen]
          rw [sinkWrite_slots]
          cases sinkWrite E.sink v s with
          | done x => simp only [Txn.done_andThen]; exact ih _ _ _ _
          | _ => rfl
        | _ => rfl
      | _ => rfl
    · rfl

/-- The transaction of ENC_WRITE that is done: the loop's result is put back and answered (R175). -/
theorem encTransaction_eq_done {P : Params} {h : Nat} {p : Bytes} {E : EncSlot Token} {s t : State Token} :
    encTransaction P h p E s = .done t ↔
      ∃ n E' u, encLoop P p.length 0 p E s = .done (n, E', u) ∧ t = (u.putEnc h E').respond ⟨n, [], E'.fault⟩ := by
  simp only [encTransaction, Txn.andThen_eq_done, Prod.exists, Txn.done.injEq]
  constructor
  · rintro ⟨n, E', u, hl, rfl⟩; exact ⟨n, E', u, hl, rfl⟩
  · rintro ⟨n, E', u, hl, rfl⟩; exact ⟨n, E', u, hl, rfl⟩

theorem encTransaction_ne_fault {P : Params} {h : Nat} {p : Bytes} {E : EncSlot Token} {s : State Token} {e : Fault}
    (hout : E.out.length = P.encCap) : encTransaction P h p E s ≠ .fault e := by
  intro hx
  rcases Txn.andThen_eq_fault.mp hx with hx | ⟨⟨n, E', u⟩, -, hx⟩
  · exact encLoop_ne_fault hout hx
  · cases hx

/-- A well-formed encoder stays well formed through the loop. -/
theorem encLoop_wf {P : Params} {fuel n n' : Nat} {p : Bytes} {E E' : EncSlot Token} {s t : State Token}
    (hE : E.Wf P) (h : encLoop P fuel n p E s = .done (n', E', t)) : E'.Wf P := by
  have d := encLoop_done hE.1 h
  refine ⟨d.out.trans hE.1, ?_⟩
  rcases d.fault with hf | ⟨tok, hf⟩
  · rw [hf]; exact hE.2
  · right; rw [hf]; rfl

/-! ## The streaming decoder -/

/-- The buffer after the refill of a decoder with at most one pending byte: the leftover and what the Source delivered
at the front, the rest of the buffer as it was (R11, R202). -/
def DecSlot.refilled (D : DecSlot Token) (v : Bytes) : Bytes := D.pending ++ v ++ D.arr.drop (D.len + v.length)

omit [DecidableEq Token] in
/-- The pending view has `len` bytes. -/
theorem DecSlot.Wf.pending_length {P : Params} {D : DecSlot Token} (hD : D.Wf P) : D.pending.length = D.len := by
  obtain ⟨hB, hoff, -⟩ := hD
  simp only [bufferWf] at hB
  simp only [DecSlot.pending, List.length_take, List.length_drop]; omega

omit [DecidableEq Token] in
/-- The refilled buffer keeps the canonical form. -/
theorem DecSlot.refilled_length {P : Params} {D : DecSlot Token} {v : Bytes} (hD : D.Wf P)
    (hv : D.len + v.length ≤ P.decCap) : (D.refilled v).length = P.decCap := by
  have hB := hD.1
  simp only [bufferWf] at hB
  simp only [DecSlot.refilled, List.length_append, List.length_drop, hD.pending_length]; omega

omit [DecidableEq Token] in
/-- Its first bytes are the new pending view. -/
theorem DecSlot.refilled_take {P : Params} {D : DecSlot Token} {v : Bytes} (hD : D.Wf P) :
    (D.refilled v).take (D.len + v.length) = D.pending ++ v :=
  List.take_left' (by rw [List.length_append, hD.pending_length])

omit [DecidableEq Token] in
/-- The refill of a decoder with at most one pending byte (R202). -/
theorem refill_eq {P : Params} {D : DecSlot Token} {v : Bytes} (hD : D.Wf P) (hlen : D.len < 2)
    (hv : v.length ≤ P.decCap - D.len) (hcap : 2 ≤ P.decCap) : refill D v = .done (D.refilled v) := by
  obtain ⟨hB, hoff, -⟩ := hD
  simp only [bufferWf] at hB
  have hcases : D.len = 0 ∨ D.len = 1 := by omega
  unfold refill
  rcases hcases with h0 | h1
  · rw [if_neg (by omega), Txn.done_andThen, memWrite_inside (by omega)]
    simp [h0, DecSlot.pending, DecSlot.refilled]
  · rw [if_pos h1, memRead_inside (by omega), Txn.done_andThen, memWrite_inside (by simp only [List.length_take]; omega),
      Txn.done_andThen, memWrite_inside (by simp only [List.length_append, List.length_take, List.length_drop]; omega)]
    have hx : ((D.arr.drop D.off).take 1).length = 1 := by simp; omega
    simp only [h1, DecSlot.refilled, DecSlot.pending, List.take_zero, List.nil_append]
    generalize hxs : (D.arr.drop D.off).take 1 = x at *
    obtain ⟨b, rfl⟩ := List.length_eq_one_iff.mp hx
    simp [Nat.add_comm 1]

/-- The end-of-stream verdict reads a byte of the pending view (R203). -/
theorem fillFault_eq {P : Params} {arr : Bytes} {len : Nat} {sig : SourceSig Token} {old : Status Token}
    (hlen : len ≤ arr.length) :
    ∃ f, fillFault P arr len sig old = .done f ∧ (old ≠ .oddLength → f ≠ .oddLength) := by
  unfold fillFault
  split
  · next h =>
    rw [memByte_inside (by omega)]
    refine ⟨_, rfl, fun _ => ?_⟩
    split <;> simp
  · refine ⟨_, rfl, fun ho => ?_⟩
    cases sig <;> simp [sourceFault, ho]

/-- The decoder after FILLING (R202, R203). -/
theorem fillStep_eq {P : Params} {D : DecSlot Token} {a : SourceAnswer Token} (hD : D.Wf P) (hlen : D.len < 2)
    (ha : a.v.length ≤ P.decCap - D.len) (hcap : 2 ≤ P.decCap) :
    ∃ f, fillStep P D a =
        .done { D with arr := D.refilled a.v, off := 0, len := D.len + a.v.length, fault := f } ∧
      fillFault P (D.refilled a.v) (D.len + a.v.length) a.sig D.fault = .done f ∧ f ≠ .oddLength := by
  have hl := DecSlot.refilled_length (v := a.v) hD (by omega)
  obtain ⟨f, hf, hodd⟩ := fillFault_eq (P := P) (arr := D.refilled a.v) (len := D.len + a.v.length) (sig := a.sig)
    (old := D.fault) (by omega)
  exact ⟨f, by simp [fillStep, refill_eq hD hlen ha hcap, hf], hf, hodd hD.2.2⟩

/-- FILLING keeps a decoder well formed. -/
theorem fillStep_wf {P : Params} {D D' : DecSlot Token} {a : SourceAnswer Token} (hD : D.Wf P) (hlen : D.len < 2)
    (ha : a.v.length ≤ P.decCap - D.len) (hcap : 2 ≤ P.decCap) (h : fillStep P D a = .done D') :
    D'.Wf P ∧ D'.alloc = D.alloc ∧ D'.source = D.source := by
  obtain ⟨f, he, -, hodd⟩ := fillStep_eq hD hlen ha hcap
  rw [he] at h
  cases h
  exact ⟨⟨DecSlot.refilled_length hD (by omega), by simp only; omega, hodd⟩, rfl, rfl⟩

/-- DECODING on a well-formed decoder reads the front of the pending view (R204). -/
theorem decodeStep_eq {P : Params} {D : DecSlot Token} (n : Nat) (hD : D.Wf P) :
    decodeStep P D n =
      if (dec P (D.pending.take (2 * min n (D.len / 2))) Token).2 = .none then
        .done ({ D with off := D.off + 2 * min n (D.len / 2), len := D.len - 2 * min n (D.len / 2) },
          (dec P (D.pending.take (2 * min n (D.len / 2))) Token).1)
      else
        .done ({ D with off := 0, len := 0, fault := (dec P (D.pending.take (2 * min n (D.len / 2))) Token).2 },
          (dec P (D.pending.take (2 * min n (D.len / 2))) Token).1) := by
  obtain ⟨hB, hoff, -⟩ := hD
  simp only [bufferWf] at hB
  have hm : 2 * min n (D.len / 2) ≤ D.len := by omega
  have hpend : D.pending.take (2 * min n (D.len / 2)) = (D.arr.drop D.off).take (2 * min n (D.len / 2)) := by
    rw [DecSlot.pending, List.take_take, min_eq_left hm]
  rw [hpend]
  unfold decodeStep
  simp only
  rw [memRead_inside (by omega), Txn.done_andThen]

/-- DECODING keeps a decoder well formed, reports no ODD_LENGTH (R206), and returns at most `n` bytes (R211). -/
theorem decodeStep_wf {P : Params} {D D' : DecSlot Token} {n : Nat} {out : Bytes} (hD : D.Wf P)
    (h : decodeStep P D n = .done (D', out)) :
    D'.Wf P ∧ D'.alloc = D.alloc ∧ D'.source = D.source ∧ out.length ≤ min n (D.len / 2) := by
  rw [decodeStep_eq n hD] at h
  obtain ⟨hB, hoff, hodd⟩ := hD
  have hle := dec_length_le (Token := Token) P (D.pending.take (2 * min n (D.len / 2)))
  have htl : (D.pending.take (2 * min n (D.len / 2))).length ≤ 2 * min n (D.len / 2) := by simp
  split at h
  · cases h
    exact ⟨⟨hB, by simp only; omega, hodd⟩, rfl, rfl, by omega⟩
  · cases h
    refine ⟨⟨hB, by simp, fun ho => ?_⟩, rfl, rfl, by omega⟩
    have hl := dec_oddLength P _ ho
    have hpl := DecSlot.Wf.pending_length ⟨hB, hoff, hodd⟩
    simp only [List.length_take, hpl] at hl
    omega

/-- DECODING is done on a well-formed decoder. -/
theorem decodeStep_done {P : Params} {D : DecSlot Token} (n : Nat) (hD : D.Wf P) :
    ∃ D' out, decodeStep P D n = .done (D', out) := by
  rw [decodeStep_eq n hD]
  split <;> exact ⟨_, _, rfl⟩

/-- The part of DEC_READ before DECODING. -/
theorem decTransaction_eq (P : Params) (h n : Nat) (D : DecSlot Token) (s : State Token) :
    decTransaction P h n D s =
      if D.len < 2 ∧ D.fault = .none then
        (sourceRead D.source (P.decCap - D.len) s).andThen fun (a, t) =>
          (fillStep P D a).andThen fun D' => (decodeStep P D' n).andThen fun (D'', out) =>
            .done ((t.putDec h D'').respond ⟨out.length, out, surfaced D''⟩)
      else
        (decodeStep P D n).andThen fun (D'', out) =>
          .done ((s.putDec h D'').respond ⟨out.length, out, surfaced D''⟩) := by
  unfold decTransaction
  split
  · cases sourceRead D.source (P.decCap - D.len) s with
    | done r => cases hf : fillStep P D r.1 <;> simp [Txn.andThen, hf]
    | waits => rfl
    | fault e => rfl
    | refuse r => rfl
  · rfl

/-- Everything a DEC_READ transaction that is done can have changed. -/
theorem decTransaction_done {P : Params} {h n : Nat} {D : DecSlot Token} {s t : State Token} (hD : D.Wf P)
    (hcap : 2 ≤ P.decCap)
    (hx : decTransaction P h n D s = .done t) :
    ∃ D'' out u, D''.Wf P ∧ D''.alloc = D.alloc ∧ D''.source = D.source ∧ (out.length ≤ n ∧ out.length ≤ P.decCap / 2) ∧
      u = { s with sourceAnswers := u.sourceAnswers, calls := u.calls } ∧
      ((D.len < 2 ∧ D.fault = .none ∧
          ∃ a, u.calls = s.calls ++ [.sourceRead D.source (P.decCap - D.len) a]) ∨
        (¬(D.len < 2 ∧ D.fault = .none) ∧ u = s)) ∧
      t = (u.putDec h D'').respond ⟨out.length, out, surfaced D''⟩ := by
  rw [decTransaction_eq] at hx
  split at hx
  · next hc =>
    obtain ⟨⟨a, u⟩, hs, hx⟩ := Txn.andThen_eq_done.mp hx
    obtain ⟨D', hfill, hx⟩ := Txn.andThen_eq_done.mp hx
    obtain ⟨⟨D'', out⟩, hdec, hx⟩ := Txn.andThen_eq_done.mp hx
    obtain ⟨rest, -, ha, rfl⟩ := sourceRead_eq_done.mp hs
    obtain ⟨hwf, hal, hso⟩ := fillStep_wf hD hc.1 ha hcap hfill
    obtain ⟨hwf', hal', hso', hlen⟩ := decodeStep_wf hwf hdec
    cases hx
    have hl := hwf.2.1
    exact ⟨D'', out, _, hwf', hal'.trans hal, hso'.trans hso, by omega, rfl, .inl ⟨hc.1, hc.2, a, rfl⟩, rfl⟩
  · next hc =>
    obtain ⟨⟨D'', out⟩, hdec, hx⟩ := Txn.andThen_eq_done.mp hx
    obtain ⟨hwf', hal', hso', hlen⟩ := decodeStep_wf hD hdec
    cases hx
    have hl := hD.2.1
    exact ⟨D'', out, s, hwf', hal', hso', by omega, rfl, .inr ⟨hc, rfl⟩, rfl⟩

/-- Whatever record it starts from, a DEC_READ transaction that is done has put one record into its slot, answered
once, and changed nothing else but the Sources' answers and the call log. -/
theorem decTransaction_frame {P : Params} {h n : Nat} {D : DecSlot Token} {s t : State Token}
    (hx : decTransaction P h n D s = .done t) :
    ∃ D'' r, t = { s with dec := s.dec.set h D'', cmds := s.cmds.tail, responses := s.responses ++ [r],
                          sourceAnswers := t.sourceAnswers, calls := t.calls } := by
  rw [decTransaction_eq] at hx
  split at hx
  · obtain ⟨⟨a, u⟩, hs, hx⟩ := Txn.andThen_eq_done.mp hx
    obtain ⟨D', -, hx⟩ := Txn.andThen_eq_done.mp hx
    obtain ⟨⟨D'', out⟩, -, hx⟩ := Txn.andThen_eq_done.mp hx
    obtain ⟨rest, -, -, rfl⟩ := sourceRead_eq_done.mp hs
    cases hx
    exact ⟨D'', _, rfl⟩
  · obtain ⟨⟨D'', out⟩, -, hx⟩ := Txn.andThen_eq_done.mp hx
    cases hx
    exact ⟨D'', _, rfl⟩

/-- DEC_READ forms no index outside the buffer (R51). -/
theorem decTransaction_ne_fault {P : Params} {h n : Nat} {D : DecSlot Token} {s : State Token} {e : Fault} (hD : D.Wf P)
    (hcap : 2 ≤ P.decCap) : decTransaction P h n D s ≠ .fault e := by
  rw [decTransaction_eq]
  split
  · next hc =>
    intro hx
    rcases Txn.andThen_eq_fault.mp hx with hx | ⟨⟨a, u⟩, hs, hx⟩
    · exact sourceRead_ne_fault hx
    obtain ⟨rest, -, ha, rfl⟩ := sourceRead_eq_done.mp hs
    obtain ⟨f, hfill, -⟩ := fillStep_eq hD hc.1 ha hcap
    have hwf := (fillStep_wf hD hc.1 ha hcap hfill).1
    obtain ⟨D'', out, hdec⟩ := decodeStep_done n hwf
    simp only [hfill, Txn.done_andThen, hdec] at hx
    cases hx
  · obtain ⟨D'', out, hdec⟩ := decodeStep_done n hD
    rw [hdec]
    simp

end Sys2Proof.Machine
end

