-- ==== Sys2Proof/Laws/Parametric.lean ====
section
/-! SUPPORT. The machine at the default parameters is the parametric machine's instance, and what a command that
answers a next state can have done, said once (`Effect`). -/

namespace Sys2Proof.Machine

variable {Token : Type}

section

variable [DecidableEq Token]

/-- One command, at any parameters, that answers a next state: every case there is. -/
inductive Effect (P : Params) (s : State Token) : Instr → State Token → Prop where
  /-- A one-shot command, lookup or length helper returned a response and changed nothing else (R61). -/
  | responds (i : Instr) (r : Response Token) (hi : oneShot i = true) : Effect P s i (s.respond r)
  /-- A model fault was recorded and nothing else changed (R250). -/
  | faults (i : Instr) (m : ModelFault) : Effect P s i (s.raiseFault m)
  /-- The Sink has not answered: the transaction is unfinished (R287). -/
  | encWaits (h : Nat) (p : Bytes) : Effect P s (.encWrite h p) s
  /-- The Source has not answered (R288). -/
  | decWaits (h n : Nat) : Effect P s (.decRead h n) s
  /-- ENC_NEW constructed the slot (R170). -/
  | encNew (h : Nat) (k : SinkId) (hs : h < P.numEncSlots) (hl : h < s.enc.length) :
      Effect P s (.encNew h k) ((s.drew.putEnc h (freshEnc P k s.draws)).respond ⟨0, [], .none⟩)
  /-- ENC_WRITE ran its loop (R171). -/
  | encWrite (h : Nat) (p : Bytes) (E : EncSlot Token) (n : Nat) (E' : EncSlot Token) (u : State Token)
      (hs : h < P.numEncSlots)
      (hE : s.enc[h]? = some E) (ha : E.alloc = true) (hloop : encLoop P p.length 0 p E s = .done (n, E', u)) :
      Effect P s (.encWrite h p) ((u.putEnc h E').respond ⟨n, [], E'.fault⟩)
  /-- DEC_NEW constructed the slot (R200). -/
  | decNew (h : Nat) (k : SourceId) (hs : h < P.numDecSlots) (hl : h < s.dec.length) :
      Effect P s (.decNew h k) ((s.drew.putDec h (freshDec P k s.draws)).respond ⟨0, [], .none⟩)
  /-- DEC_READ ran its transaction (R201). -/
  | decRead (h n : Nat) (D : DecSlot Token) (t : State Token) (hs : h < P.numDecSlots) (hD : s.dec[h]? = some D)
      (ha : D.alloc = true) (htx : decTransaction P h n D s = .done t) : Effect P s (.decRead h n) t

/-- What a command can have done when it answers a next state. -/
theorem execWith_effect {P : Params} {i : Instr} {s t : State Token} (h : execWith P i s = .next t) :
    Effect P s i t := by
  cases i with
  | encode dst src =>
    simp only [execWith, encodeWith] at h
    split at h <;> cases h
    · exact .faults _ _
    · exact .responds _ _ rfl
  | decode dst src =>
    simp only [execWith, decodeWith] at h
    split at h <;> cases h
    · exact .faults _ _
    · exact .responds _ _ rfl
  | encNew k sink =>
    simp only [execWith, encNewWith] at h
    split at h
    · cases h; exact .faults _ _
    · split at h
      · cases h
      · cases h; exact .encNew _ _ (by omega) (by omega)
  | decNew k source =>
    simp only [execWith, decNewWith] at h
    split at h
    · cases h; exact .faults _ _
    · split at h
      · cases h
      · cases h; exact .decNew _ _ (by omega) (by omega)
  | encWrite k p =>
    simp only [execWith, encWriteWith] at h
    split at h
    · cases h; exact .faults _ _
    · split at h
      · cases h
      · next E hE =>
        split at h
        · next ha =>
          rcases conclude_eq_next.mp h with hx | ⟨-, rfl⟩
          · obtain ⟨n, E', u, hl, rfl⟩ := encTransaction_eq_done.mp hx
            exact .encWrite _ _ E n E' u (by omega) hE ha hl
          · exact .encWaits _ _
        · cases h; exact .faults _ _
  | decRead k n =>
    simp only [execWith, decReadWith] at h
    split at h
    · cases h; exact .faults _ _
    · split at h
      · cases h
      · next D hD =>
        split at h
        · next ha =>
          rcases conclude_eq_next.mp h with hx | ⟨-, rfl⟩
          · exact .decRead _ _ D t (by omega) hD ha hx
          · exact .decWaits _ _
        · cases h; exact .faults _ _
  | _ => cases h; exact .responds _ _ rfl

/-- An arm of `exec` calls the parametric operation at the defaults. -/
theorem exec_default (i : Instr) (s : State) : exec i s = execWith Config.params i s := by
  cases i <;> rfl

/-- ENC_WRITE on a constructed slot is its transaction (R171). -/
theorem execWith_encWrite {P : Params} {h : Nat} {p : Bytes} {E : EncSlot Token} {s : State Token}
    (hh : h < P.numEncSlots)
    (hE : s.enc[h]? = some E) (ha : E.alloc = true) :
    execWith P (.encWrite h p) s = conclude s (encTransaction P h p E s) := by
  simp only [execWith, encWriteWith, hE, if_neg (Nat.not_le.mpr hh), if_pos ha]

/-- DEC_READ on a constructed slot is its transaction (R201). -/
theorem execWith_decRead {P : Params} {h n : Nat} {D : DecSlot Token} {s : State Token} (hh : h < P.numDecSlots)
    (hD : s.dec[h]? = some D) (ha : D.alloc = true) :
    execWith P (.decRead h n) s = conclude s (decTransaction P h n D s) := by
  simp only [execWith, decReadWith, hD, if_neg (Nat.not_le.mpr hh), if_pos ha]

end

/-! ## The invariant -/

/-- The power-on state is well formed, at any parameters with room for a byte. -/
theorem powerOn_inv (P : Params) : (State.powerOn P Token).Inv P := by
  refine ⟨by simp, by simp, fun E hE => ?_, fun D hD => ?_⟩
  · rw [State.powerOn_enc, List.mem_replicate] at hE
    obtain ⟨-, rfl⟩ := hE
    exact ⟨by simp [bufferWf, EncSlot.powerOn], .inl rfl⟩
  · rw [State.powerOn_dec, List.mem_replicate] at hD
    obtain ⟨-, rfl⟩ := hD
    exact ⟨by simp [bufferWf, DecSlot.powerOn], by simp [DecSlot.powerOn], by simp [DecSlot.powerOn]⟩

/-- Putting a well-formed encoder into a slot keeps the invariant. -/
theorem inv_putEnc {P : Params} {s : State Token} {h : Nat} {E : EncSlot Token} (hs : s.Inv P) (hE : E.Wf P) :
    (s.putEnc h E).Inv P := by
  refine ⟨by simpa using hs.1, hs.2.1, fun F hF => ?_, hs.2.2.2⟩
  rcases List.mem_or_eq_of_mem_set hF with hF | rfl
  · exact hs.2.2.1 F hF
  · exact hE

/-- Putting a well-formed decoder into a slot keeps the invariant. -/
theorem inv_putDec {P : Params} {s : State Token} {h : Nat} {D : DecSlot Token} (hs : s.Inv P) (hD : D.Wf P) :
    (s.putDec h D).Inv P := by
  refine ⟨hs.1, by simpa using hs.2.1, hs.2.2.1, fun F hF => ?_⟩
  rcases List.mem_or_eq_of_mem_set hF with hF | rfl
  · exact hs.2.2.2 F hF
  · exact hD

/-- The invariant is about the two slot files alone. -/
theorem inv_of_slots {P : Params} {s t : State Token} (hs : s.Inv P) (he : t.enc = s.enc) (hd : t.dec = s.dec) :
    t.Inv P := by
  simpa only [State.Inv, he, hd] using hs

theorem freshEnc_wf (P : Params) (k : SinkId) (d : Nat) : (freshEnc (Token := Token) P k d).Wf P :=
  ⟨by simp [bufferWf, freshEnc], .inl rfl⟩

theorem freshDec_wf (P : Params) (k : SourceId) (d : Nat) : (freshDec (Token := Token) P k d).Wf P :=
  ⟨by simp [bufferWf, freshDec], by simp [freshDec], by simp [freshDec]⟩

/-- The record in a slot of a well-formed state is well formed. -/
theorem inv_enc_wf {P : Params} {s : State Token} {h : Nat} {E : EncSlot Token} (hs : s.Inv P)
    (hE : s.enc[h]? = some E) :
    E.Wf P := hs.2.2.1 E (List.mem_of_getElem? hE)

theorem inv_dec_wf {P : Params} {s : State Token} {h : Nat} {D : DecSlot Token} (hs : s.Inv P)
    (hD : s.dec[h]? = some D) :
    D.Wf P := hs.2.2.2 D (List.mem_of_getElem? hD)

end Sys2Proof.Machine
end

