-- ==== Sys2Proof/Laws/PerInstr.lean ====
section
/-! SUPPORT. Statements about every instruction as syntax, one lemma per constructor. The family `OpcodeByte`: the
command word of an instruction has the opcode of its row of 30_encoding.md R76 in bits 7:0, and in bits 15:8 the
handle of a streaming command and zero otherwise (R74). -/

namespace Sys2Proof.Laws.OpcodeByte

/-- The opcode of R76's map. -/
def opcode : Instr → Byte
  | .n2c _ => 0x01#8
  | .c2n _ => 0x02#8
  | .encode _ _ => 0x03#8
  | .appendEncode _ _ => 0x04#8
  | .encodeToText _ => 0x05#8
  | .decode _ _ => 0x06#8
  | .appendDecode _ _ => 0x07#8
  | .decodeText _ => 0x08#8
  | .encLen _ => 0x09#8
  | .decLen _ => 0x0A#8
  | .encNew _ _ => 0x0B#8
  | .encWrite _ _ => 0x0C#8
  | .decNew _ _ => 0x0D#8
  | .decRead _ _ => 0x0E#8

/-- The handle field of R76's map. -/
def handle : Instr → Byte
  | .encNew h _ => BitVec.ofNat 8 h
  | .encWrite h _ => BitVec.ofNat 8 h
  | .decNew h _ => BitVec.ofNat 8 h
  | .decRead h _ => BitVec.ofNat 8 h
  | _ => 0#8

/-- The command word spells the instruction's opcode and handle. -/
def Statement (i : Instr) : Prop := cmdOp (encode i).1 = opcode i ∧ cmdHandle (encode i).1 = handle i

/-- The fields of the word `(h << 8) | op`. -/
theorem cmdWord_fields (op : Byte) (h : Nat) : cmdOp (cmdWord op h) = op ∧ cmdHandle
    (cmdWord op h) = BitVec.ofNat 8 h := by
  constructor
  · ext i hi
    simp only [cmdOp, cmdWord, BitVec.getElem_extractLsb', Nat.zero_add, BitVec.getLsbD_or, BitVec.getLsbD_shiftLeft,
      BitVec.truncate_eq_setWidth, BitVec.getLsbD_setWidth]
    simp [show i < 16 by omega, hi]
  · ext i hi
    simp only [cmdHandle, cmdWord, BitVec.getElem_extractLsb', BitVec.getLsbD_or, BitVec.getLsbD_shiftLeft,
      BitVec.truncate_eq_setWidth, BitVec.getLsbD_setWidth]
    simp only [show 8 + i < 16 by omega, hi, BitVec.getElem_eq_testBit_toNat, BitVec.toNat_ofNat, Nat.testBit_mod_two_pow,
      ← BitVec.testBit_toNat]
    simp [show i < 16 by omega, BitVec.testBit_toNat]

theorem n2c (nib : Nibble) : Statement (.n2c nib) := cmdWord_fields _ _
theorem c2n (chr : Byte) : Statement (.c2n chr) := cmdWord_fields _ _
theorem encode (dst src : Bytes) : Statement (.encode dst src) := cmdWord_fields _ _
theorem appendEncode (buf src : Bytes) : Statement (.appendEncode buf src) := cmdWord_fields _ _
theorem encodeToText (src : Bytes) : Statement (.encodeToText src) := cmdWord_fields _ _
theorem decode (dst src : Bytes) : Statement (.decode dst src) := cmdWord_fields _ _
theorem appendDecode (buf src : Bytes) : Statement (.appendDecode buf src) := cmdWord_fields _ _
theorem decodeText (src : Bytes) : Statement (.decodeText src) := cmdWord_fields _ _
theorem encLen (n : Nat) : Statement (.encLen n) := cmdWord_fields _ _
theorem decLen (n : Nat) : Statement (.decLen n) := cmdWord_fields _ _
theorem encNew (h : Nat) (sink : SinkId) : Statement (.encNew h sink) := cmdWord_fields _ _
theorem encWrite (h : Nat) (p : Bytes) : Statement (.encWrite h p) := cmdWord_fields _ _
theorem decNew (h : Nat) (source : SourceId) : Statement (.decNew h source) := cmdWord_fields _ _
theorem decRead (h : Nat) (n : Nat) : Statement (.decRead h n) := cmdWord_fields _ _

end Sys2Proof.Laws.OpcodeByte
end

