-- ==== Sys2Proof/Tests/Slice0.lean ====
section
/-! SUPPORT. The model's own tests: ill-formed terms, words written out bit by bit from 30_encoding.md R74 and R76,
one-step runs whose results are those of 95_test_vectors.md, and a witness for the hypotheses of every statement. -/

namespace Sys2Proof.Tests

open Sys2Proof Sys2Proof.Machine

/-! ## Well-formedness: a handle is an unsigned 8-bit value (R82) -/

theorem test_wf_encNew : (Instr.encNew 255 0).wf = true ∧ (Instr.encNew 256 0).wf = false := by decide
theorem test_wf_encWrite : (Instr.encWrite 255 []).wf = true ∧ (Instr.encWrite 256 []).wf = false := by decide
theorem test_wf_decNew : (Instr.decNew 255 0).wf = true ∧ (Instr.decNew 256 0).wf = false := by decide
theorem test_wf_decRead : (Instr.decRead 255 1).wf = true ∧ (Instr.decRead 256 1).wf = false := by decide

/-! ## Decoding: `h` in bits 15:8 and `op` in bits 7:0 (R74), the opcode map (R76) -/

theorem test_decode_n2c (o : Operands) : decode 0b0000000000000001#16 o = .ok (.n2c o.nib) := rfl
theorem test_decode_c2n (o : Operands) : decode 0b0000000000000010#16 o = .ok (.c2n o.chr) := rfl
theorem test_decode_encode (o : Operands) : decode 0b0000000000000011#16 o = .ok (.encode o.dst o.src) := rfl
theorem test_decode_appendEncode (o : Operands) :
    decode 0b0000000000000100#16 o = .ok (.appendEncode o.buf o.src) := rfl
theorem test_decode_encodeToText (o : Operands) : decode 0b0000000000000101#16 o = .ok (.encodeToText o.src) := rfl
theorem test_decode_decode (o : Operands) : decode 0b0000000000000110#16 o = .ok (.decode o.dst o.src) := rfl
theorem test_decode_appendDecode (o : Operands) :
    decode 0b0000000000000111#16 o = .ok (.appendDecode o.buf o.src) := rfl
theorem test_decode_decodeText (o : Operands) : decode 0b0000000000001000#16 o = .ok (.decodeText o.src) := rfl
theorem test_decode_encLen (o : Operands) : decode 0b0000000000001001#16 o = .ok (.encLen o.n) := rfl
theorem test_decode_decLen (o : Operands) : decode 0b0000000000001010#16 o = .ok (.decLen o.n) := rfl
theorem test_decode_encNew (o : Operands) : decode 0b1000000000001011#16 o = .ok (.encNew 128 o.sink) := rfl
theorem test_decode_encWrite (o : Operands) : decode 0b0010101000001100#16 o = .ok (.encWrite 42 o.p) := rfl
theorem test_decode_decNew (o : Operands) : decode 0b0000011100001101#16 o = .ok (.decNew 7 o.source) := rfl
theorem test_decode_decRead (o : Operands) : decode 0b1111111100001110#16 o = .ok (.decRead 255 o.n) := rfl
/-- The reserved opcodes next to the map and a handle where the map has none (R79, 95 2.1). -/
theorem test_decode_illegal (o : Operands) :
    decode 0b0000000000000000#16 o = .error (.reservedOpcode 0#8) ∧
    decode 0b0000000000001111#16 o = .error (.reservedOpcode 15#8) ∧
    decode 0b0000000100001001#16 o = .error (.handleNotZero 9#8 1#8) := ⟨rfl, rfl, rfl⟩
/-- The table's numbering of a word is the word itself. -/
theorem test_decodeTableWord :
    decodeTableWord 16 0x2A0C = some (.encWrite 42 []) ∧ decodeTableWord 16 0x0109 = none := by decide
/-- A placed word is what the next step runs, in the power-on state too: N2C of a zero operand record is 'z'. -/
theorem test_withFetchWord_responds :
    (match step (State.reset.withFetchWord 16 0x0001) with
      | .next t => t.responses
      | _ => []) = [⟨1, [0x7A#8], .none⟩] := by decide +kernel
theorem test_withFetchWord_constructs :
    (match step (State.reset.withFetchWord 16 0x030B) with
      | .next t => (t.enc[3]?.map EncSlot.alloc, t.responses)
      | _ => (none, [])) = (some true, [⟨0, [], .none⟩]) := by decide +kernel

/-! ## The assembler (R81, with its own examples' forms) -/

theorem test_assemble_operands :
    assemble "ENCODE [0, 0x7a], [255]".toList = some (.encode [0#8, 0x7A#8] [255#8]) ∧
    assemble "DEC_READ d255, 16 ; read".toList = some (.decRead 255 16) ∧
    assemble "ENC_NEW e256, sink0".toList = none := by decide +kernel
theorem test_asm_text : asm (.encNew 3 1) = "ENC_NEW e3, sink1".toList ∧
    asm (.appendEncode [0x7A#8] []) = "APPEND_ENCODE [122], []".toList := by decide +kernel

/-! ## One step of every command -/

/-- Text as the bytes of its ASCII codes. -/
def txt (cs : List Char) : Bytes := cs.map fun c => BitVec.ofNat 8 c.toNat

/-- What a test looks at: the responses and the model fault record after a next state. -/
def answer : Host.Outcome State Fault Refusal → Option (List Response × List ModelFault)
  | .next t => some (t.responses, t.mf)
  | _ => none

/-- 95 2.2. -/
theorem test_n2c : answer (exec (.n2c 13) State.reset) = some ([⟨1, txt ['m'], .none⟩], []) := by decide +kernel
theorem test_c2n_both_cases : answer (exec (.c2n 0x50) State.reset) = some ([⟨1, [10], .none⟩], []) ∧
    answer (exec (.c2n 0x70) State.reset) = some ([⟨1, [10], .none⟩], []) := by decide +kernel
theorem test_c2n_sentinel : answer (exec (.c2n 0x4A) State.reset) = some ([⟨1, [0xFF], .none⟩], []) ∧
    answer (exec (.c2n 0x7B) State.reset) = some ([⟨1, [0xFF], .none⟩], []) := by decide +kernel
/-- 95 2.3. -/
theorem test_encode_tail : answer (exec (.encode [9, 9, 9, 9, 9] [0x10]) State.reset) =
    some ([⟨2, [0x79, 0x7A, 9, 9, 9], .none⟩], []) := by decide +kernel
theorem test_encode_too_small : answer (exec (.encode [0, 0, 0] [1, 2]) State.reset) =
    some ([], [.dstTooSmall]) := by decide +kernel
theorem test_appendEncode : answer (exec (.appendEncode (txt ['z', 'z']) [0x10]) State.reset) =
    some ([⟨4, txt ['z', 'z', 'y', 'z'], .none⟩], []) := by decide +kernel
theorem test_encodeToText : answer (exec (.encodeToText [0x80, 0x7F]) State.reset) =
    some ([⟨4, txt ['r', 'z', 's', 'k'], .none⟩], []) := by decide +kernel
/-- 95 1.4. -/
theorem test_encodeToText_word : answer (exec (.encodeToText [0xDE, 0xAD, 0xBE, 0xEF]) State.reset) =
    some ([⟨8, txt ['m', 'l', 'p', 'm', 'o', 'l', 'l', 'k'], .none⟩], []) := by decide +kernel
/-- 95 2.4. -/
theorem test_decode_partial : answer (exec (.decode [0x55, 0x55] (txt ['z', 'y', 'j'])) State.reset) =
    some ([⟨1, [1, 0x55], .invalidByte 0x6A⟩], []) := by decide +kernel
theorem test_decode_too_small : answer (exec (.decode [] (txt ['j', 'j'])) State.reset) =
    some ([], [.dstTooSmall]) := by decide +kernel
theorem test_appendDecode : answer (exec (.appendDecode [0x41] (txt ['z', 'y', 'Z', 'J'])) State.reset) =
    some ([⟨2, [0x41, 0x01], .invalidByte 0x4A⟩], []) := by decide +kernel
theorem test_decodeText_odd : answer (exec (.decodeText (txt ['z', 'y', 'z', 'x', 'z'])) State.reset) =
    some ([⟨2, [1, 2], .oddLength⟩], []) := by decide +kernel
theorem test_decodeText_high_first : answer (exec (.decodeText (txt ['J', 'a'])) State.reset) =
    some ([⟨0, [], .invalidByte 0x4A⟩], []) := by decide +kernel
/-- 95 2.5. -/
theorem test_encLen : answer (exec (.encLen 512) State.reset) = some ([⟨1024, [], .none⟩], []) := by decide +kernel
theorem test_decLen : answer (exec (.decLen 17) State.reset) = some ([⟨8, [], .none⟩], []) := by decide +kernel

/-- The parameters of 95's S-E3, S-E4 and S-D12, with two slots of each kind. -/
def small : Params where
  encCap := 4
  decCap := 4
  invalid := 0xFF#8
  numEncSlots := 2
  numDecSlots := 2

/-- The small machine with an encoder in slot 0 and the answers its Sink 0 is to give. -/
def writing (f : Status) (q : List SinkAnswer) : State :=
  { (State.powerOn small).putEnc 0 ⟨true, 0, f, [1, 2, 3, 4]⟩ with sinkAnswers := q.map fun a => (0, a) }

/-- The small machine with a decoder in slot 0 and the answers its Source 0 is to give. -/
def reading (f : Status) (arr : Bytes) (off len : Nat) (q : List SourceAnswer) : State :=
  { (State.powerOn small).putDec 0 ⟨true, 0, f, arr, off, len⟩ with sourceAnswers := q.map fun a => (0, a) }

/-- The pending view and the stored fault of decoder slot 0 after a next state. -/
def decoderAfter : Host.Outcome State Fault Refusal → Option (Bytes × Status)
  | .next t => t.dec[0]?.map fun D => (D.pending, D.fault)
  | _ => none

/-- The calls made, and the stored fault of encoder slot 0, after a next state. -/
def encoderAfter : Host.Outcome State Fault Refusal → Option (List AgentCall × Option Status)
  | .next t => some (t.calls, t.enc[0]?.map EncSlot.fault)
  | _ => none

/-- 95 S-E9: the old fault is discarded; S-E11: a handle past the slots. -/
theorem test_encNew : encoderAfter (execWith small (.encNew 0 1) (writing (.ioFault ⟨5⟩) [])) =
    some ([], some .none) := by decide +kernel
theorem test_encNew_bad_handle : answer (execWith small (.encNew 2 0) (writing .none [])) =
    some ([], [.badHandle]) := by decide +kernel
/-- 95 S-E3: a short write counts half the bytes the Sink accepted, and the loop goes on. -/
theorem test_encWrite_short : answer (execWith small (.encWrite 0 [1, 2, 3, 4, 5])
    (writing .none [⟨4, none⟩, ⟨3, none⟩, ⟨2, none⟩])) = some ([⟨4, [], .none⟩], []) := by decide +kernel
/-- 95 S-E4: the calls made and the fault stored. -/
theorem test_encWrite_fault : encoderAfter (execWith small (.encWrite 0 [1, 2, 3, 4, 5])
    (writing .none [⟨4, none⟩, ⟨1, some ⟨7⟩⟩, ⟨2, none⟩])) =
    some ([.sinkWrite 0 (txt ['z', 'y', 'z', 'x']) ⟨4, none⟩, .sinkWrite 0 (txt ['z', 'w', 'z', 'v']) ⟨1, some ⟨7⟩⟩],
      some (.ioFault ⟨7⟩)) := by decide +kernel
/-- 45 R200: nothing of the old decoder is left. -/
theorem test_decNew : decoderAfter (execWith small (.decNew 0 1) (reading .endOfStream [1, 2, 3, 4] 1 3 [])) =
    some ([], .none) := by decide +kernel
theorem test_decNew_bad_handle : answer (execWith small (.decNew 2 0) (reading .none [1, 2, 3, 4] 0 0 [])) =
    some ([], [.badHandle]) := by decide +kernel
/-- 95 S-D12, its second read: the leftover 'z' of "zyz" stands at index 2 and is joined to "xzw". -/
theorem test_decRead_leftover :
    let s := reading .none (txt ['z', 'y', 'z', 'k']) 2 1 [⟨txt ['x', 'z', 'w'], .none⟩]
    answer (execWith small (.decRead 0 8) s) = some ([⟨2, [2, 3], .none⟩], []) ∧
    decoderAfter (execWith small (.decRead 0 8) s) = some ([], .none) := by decide +kernel
/-- 95 S-D5: an invalid byte dangling at the end of the stream. -/
theorem test_decRead_dangling :
    let s := reading .none [0, 0, 0, 0] 0 0 [⟨txt ['z', 'y', 'j'], .endOfStream⟩]
    answer (execWith small (.decRead 0 8) s) = some ([⟨1, [1], .invalidByte 0x6A⟩], []) ∧
    decoderAfter (execWith small (.decRead 0 8) s) = some (txt ['j'], .invalidByte 0x6A) := by decide +kernel

/-- R7: any type may be the token type. A Sink's token of type `Bool` reaches the response as it was given. -/
theorem test_token_type : (match execWith small (.encWrite 0 [7])
      { (State.powerOn small (Token := Bool)).putEnc 0 ⟨true, 0, .none, [1, 2, 3, 4]⟩ with
        sinkAnswers := [(0, ⟨1, some true⟩)] } with
    | .next t => t.responses
    | _ => []) = [⟨0, [], .ioFault true⟩] := by decide +kernel

/-- 95 P4, its first command: a reserved word is recorded and the block goes on. -/
theorem test_illegal_word : answer (step { State.reset with cmds := [⟨0x0000#16, Operands.zero⟩] }) =
    some ([], [.illegalCommand]) := by decide +kernel

/-! ## Witnesses: for every statement with hypotheses, a state and operands that meet all of them together -/

/-- An encoder of ENC_CAP zero bytes on Sink 3, with the fault `f`. -/
def encoder (f : Status) : EncSlot := ⟨true, 3, f, List.replicate 1024 0⟩

/-- A decoder of DEC_CAP bytes 'z' on Source 3. -/
def decoder (f : Status) (off len : Nat) : DecSlot := ⟨true, 3, f, List.replicate 1024 0x7A, off, len⟩

/-- The power-on state with that encoder in slot `h` and the Sinks' answers `q`. -/
def encAt (h : Nat) (f : Status) (q : List (SinkId × SinkAnswer)) : State :=
  { State.reset.putEnc h (encoder f) with sinkAnswers := q }

/-- The power-on state with that decoder in slot `h` and the Sources' answers `q`. -/
def decAt (h : Nat) (D : DecSlot) (q : List (SourceId × SourceAnswer)) : State :=
  { State.reset.putDec h D with sourceAnswers := q }

theorem encAt_inv (h : Nat) {f : Status} (q : List (SinkId × SinkAnswer)) (hf : f.code = 0#8 ∨ f.code = 5#8) :
    (encAt h f q).Inv Config.params :=
  inv_of_slots (inv_putEnc (h := h) (E := encoder f) (powerOn_inv Config.params) ⟨List.length_replicate, hf⟩) rfl rfl

theorem decAt_inv (h : Nat) {f : Status} {off len : Nat} (q : List (SourceId × SourceAnswer))
    (hl : off + len ≤ 1024) (hf : f ≠ .oddLength) : (decAt h (decoder f off len) q).Inv Config.params :=
  inv_of_slots (inv_putDec (h := h) (D := decoder f off len) (powerOn_inv Config.params)
    ⟨List.length_replicate, hl, hf⟩) rfl rfl

theorem reset_enc_length : State.reset.enc.length = 256 := List.length_replicate
theorem reset_dec_length : State.reset.dec.length = 256 := List.length_replicate

theorem encAt_slot {h : Nat} (f : Status) (q : List (SinkId × SinkAnswer)) (hh : h < 256) :
    (encAt h f q).enc[h]? = some (encoder f) := List.getElem?_set_self (by rw [reset_enc_length]; exact hh)

theorem decAt_slot {h : Nat} (D : DecSlot) (q : List (SourceId × SourceAnswer)) (hh : h < 256) :
    (decAt h D q).dec[h]? = some D := List.getElem?_set_self (by rw [reset_dec_length]; exact hh)

/-- A next state with the property `p`. -/
def nextWith (o : Host.Outcome State Fault Refusal) (p : State → Bool) : Bool :=
  match o with
  | .next t => p t
  | _ => false

theorem nextWith_spec {o : Host.Outcome State Fault Refusal} {p : State → Bool} (h : nextWith o p = true) :
    ∃ t, o = .next t ∧ p t = true := by
  cases o with
  | next t => exact ⟨t, rfl, h⟩
  | _ => cases h

theorem responds_spec {o : Host.Outcome State Fault Refusal} {rs : List Response}
    (h : nextWith o (fun t => t.responses == rs) = true) : ∃ t, o = .next t ∧ t.responses = rs := by
  obtain ⟨t, ho, ht⟩ := nextWith_spec h
  exact ⟨t, ho, by simpa using ht⟩

/-- The refusal an outcome gives, if it gives one. -/
def refusal : Host.Outcome State Fault Refusal → Option Refusal
  | .refused r => some r
  | _ => none

theorem refusal_spec {o : Host.Outcome State Fault Refusal} {r : Refusal} (h : refusal o = some r) :
    o = .refused r := by
  cases o <;> simp_all [refusal]

theorem params_valid : Config.params.Valid := by decide
theorem small_valid : small.Valid := by decide

theorem writing_inv {f : Status} (q : List SinkAnswer) (hf : f.code = 0#8 ∨ f.code = 5#8) :
    (writing f q).Inv small :=
  inv_of_slots (inv_putEnc (h := 0) (E := ⟨true, 0, f, [1, 2, 3, 4]⟩) (powerOn_inv small) ⟨rfl, hf⟩) rfl rfl

theorem reading_inv {f : Status} {a b c d : Byte} {off len : Nat} (q : List SourceAnswer) (hl : off + len ≤ 4)
    (hf : f ≠ .oddLength) : (reading f [a, b, c, d] off len q).Inv small :=
  inv_of_slots (inv_putDec (h := 0) (D := ⟨true, 0, f, [a, b, c, d], off, len⟩) (powerOn_inv small) ⟨rfl, hl, hf⟩)
    rfl rfl

/-- Each clause of DecodeFollowsTheProcedure at the ends of its range: a handle of 0 and of 255 for the streaming
opcodes, the first and the last opcode without a handle, and the illegal words nearest to the map. -/
theorem witness_decodeFollows :
    (0x000B#16).toNat % 256 = 0x0B ∧ (0xFF0B#16).toNat % 256 = 0x0B ∧ (0xFF0C#16).toNat % 256 = 0x0C ∧
    (0xFF0D#16).toNat % 256 = 0x0D ∧ (0xFF0E#16).toNat % 256 = 0x0E ∧
    (∀ op ∈ [1, 2, 3, 4, 5, 6, 7, 8, 9, 10],
      (BitVec.ofNat 16 op).toNat / 256 = 0 ∧ (BitVec.ofNat 16 op).toNat % 256 = op) ∧
    ((0xFF01#16).toNat % 256 = 1 ∧ (0xFF01#16).toNat / 256 ≠ 0) ∧
    ((0x010A#16).toNat % 256 = 0x0A ∧ (0x010A#16).toNat / 256 ≠ 0) ∧
    (0xFF00#16).toNat % 256 = 0 ∧ 0x0F ≤ (0x000F#16).toNat % 256 ∧ 0x0F ≤ (0xFFFF#16).toNat % 256 := by decide

theorem witness_decodeOfEncode : (Instr.decRead 255 (2 ^ 70)).wf = true ∧ (Instr.n2c 15).wf = true := by decide
theorem witness_encodeOfDecode : decode 0xFF0E#16 Operands.zero = .ok (.decRead 255 0) := rfl
theorem witness_assembler : (Instr.encWrite 255 [0, 255]).wf = true := by decide

theorem witness_stepRuns_issued : ∃ (s : State) (c : Command) (rest : List Command) (i : Instr),
    s.cmds = c :: rest ∧ decode c.word c.ops = .ok i :=
  ⟨{ State.reset with cmds := [⟨0x2A0C#16, Operands.zero⟩] }, _, _, _, rfl, rfl⟩
theorem witness_stepRuns_idle : State.reset.cmds = [] := rfl
theorem witness_stepRuns_placed : decodeTableWord 16 0xFF0E = some (.decRead 255 0) := by decide

/-- An illegal word of every kind, and a legal one. -/
theorem witness_illegalWords :
    ((0xFF00#16).toNat % 256 = 0x00 ∧ 0x0F ≤ (0x000F#16).toNat % 256 ∧
      ((0x010A#16).toNat % 256 ≤ 0x0A ∧ (0x010A#16).toNat / 256 ≠ 0)) ∧
    ¬((0x000A#16).toNat % 256 = 0x00 ∨ 0x0F ≤ (0x000A#16).toNat % 256 ∨
      ((0x000A#16).toNat % 256 ≤ 0x0A ∧ (0x000A#16).toNat / 256 ≠ 0)) ∧
    ¬((0xFF0B#16).toNat % 256 = 0x00 ∨ 0x0F ≤ (0xFF0B#16).toNat % 256 ∨
      ((0xFF0B#16).toNat % 256 ≤ 0x0A ∧ (0xFF0B#16).toNat / 256 ≠ 0)) := by decide

/-- One transaction that responds, one that raises a model fault and one that is unfinished. -/
theorem witness_eachTransaction :
    (∃ t, step { State.reset with cmds := [⟨0x0001#16, Operands.zero⟩] } = .next t) ∧
    (∃ t, step { State.reset with cmds := [⟨0x000E#16, Operands.zero⟩] } = .next t) ∧
    (∃ t, step { decAt 0 (decoder .none 0 0) [] with cmds := [⟨0x000E#16, Operands.zero⟩] } = .next t) :=
  ⟨(nextWith_spec (p := fun _ => true) (by decide +kernel)).imp fun _ h => h.1,
   (nextWith_spec (p := fun _ => true) (by decide +kernel)).imp fun _ h => h.1,
   (nextWith_spec (p := fun _ => true) (by decide +kernel)).imp fun _ h => h.1⟩

theorem witness_stepKeeps : ∃ s t : State, s.Inv Config.params ∧ step s = .next t :=
  ⟨State.reset, State.reset, powerOn_inv Config.params, rfl⟩

theorem witness_noIndexOutside : ∃ (P : Params) (s t : State), P.Valid ∧ s.Inv P ∧ stepWith P s = .next t :=
  ⟨small, State.powerOn small, _, small_valid, powerOn_inv small, rfl⟩

/-- Each line of the table: a handle past the slots, an unallocated slot, a destination one byte too small. At two slots
of each kind a word spells the first handle past them (95 S-E11); at the defaults no word does. -/
theorem witness_modelFaults :
    (Config.params.Valid ∧ State.reset.Inv Config.params) ∧ (small.Valid ∧ (State.powerOn small).Inv small) ∧
    (∃ h k, decode 0x020B#16 Operands.zero = .ok (.encNew h k) ∧ small.numEncSlots ≤ h) ∧
    (∃ h k, decode 0x020D#16 Operands.zero = .ok (.decNew h k) ∧ small.numDecSlots ≤ h) ∧
    (∃ h p, decode 0x020C#16 Operands.zero = .ok (.encWrite h p) ∧ small.numEncSlots ≤ h) ∧
    (∃ h n, decode 0x020E#16 Operands.zero = .ok (.decRead h n) ∧ small.numDecSlots ≤ h) ∧
    (∃ E, State.reset.enc[255]? = some E ∧ E.alloc = false) ∧
    (∃ D, State.reset.dec[255]? = some D ∧ D.alloc = false) ∧
    (∃ dst src, Instr.encode [0] [0] = .encode dst src ∧ dst.length < 2 * src.length) ∧
    (∃ dst src, Instr.decode [] [0, 0] = .decode dst src ∧ dst.length < src.length / 2) :=
  ⟨⟨params_valid, powerOn_inv Config.params⟩, ⟨small_valid, powerOn_inv small⟩,
    ⟨2, _, rfl, le_refl _⟩, ⟨2, _, rfl, le_refl _⟩, ⟨2, _, rfl, le_refl _⟩, ⟨2, _, rfl, le_refl _⟩,
    ⟨EncSlot.powerOn Config.params, List.getElem?_replicate_of_lt (by decide), rfl⟩,
    ⟨DecSlot.powerOn Config.params, List.getElem?_replicate_of_lt (by decide), rfl⟩,
    ⟨_, _, rfl, by decide⟩, ⟨_, _, rfl, by decide⟩⟩

/-- A Sink that claims 3 of 2 bytes, one whose second answer claims 3 of 2 after a conforming first, and a Source that
delivers 1025 of 1024. -/
theorem witness_onlyContractBreaches :
    (∃ s : State, s.Inv Config.params ∧ exec (.encWrite 255 [7]) s = .refused .sinkAnswerOutsideContract) ∧
    (∃ s : State, s.Inv Config.params ∧
      exec (.encWrite 255 (List.replicate 513 7)) s = .refused .sinkAnswerOutsideContract) ∧
    (∃ s : State, s.Inv Config.params ∧ exec (.decRead 0 1) s = .refused .sourceAnswerOutsideContract) :=
  ⟨⟨encAt 255 .none [(3, ⟨3, none⟩)], encAt_inv _ _ (.inl rfl), refusal_spec (by decide +kernel)⟩,
   ⟨encAt 255 .none [(3, ⟨1024, none⟩), (3, ⟨3, none⟩)], encAt_inv _ _ (.inl rfl), refusal_spec (by decide +kernel)⟩,
   ⟨decAt 0 (decoder .none 0 0) [(3, ⟨List.replicate 1025 0, .none⟩)],
    decAt_inv _ _ (by decide) (by decide), refusal_spec (by decide +kernel)⟩⟩

/-- The case that must not be refused: a payload of 513 bytes whose Sink accepts all of both chunks. -/
theorem test_encWrite_conforming : answer (exec (.encWrite 255 (List.replicate 513 7))
    (encAt 255 .none [(3, ⟨1024, none⟩), (3, ⟨2, none⟩)])) = some ([⟨513, [], .none⟩], []) := by decide +kernel

theorem witness_oneShot : oneShot (.n2c 0) = true ∧ oneShot (.decLen 0) = true := by decide

/-- A write that takes a Sink's answer and a read that takes a Source's: the two last clauses. -/
theorem witness_slotsIndependent :
    (∃ t, exec (.encWrite 0 [7]) (encAt 0 .none [(3, ⟨2, none⟩)]) = .next t ∧ t.sinkAnswers ≠ [(3, ⟨2, none⟩)]) ∧
    (∃ t, exec (.decRead 0 1) (decAt 0 (decoder .none 0 0) [(3, ⟨[], .none⟩)]) = .next t ∧
      t.sourceAnswers ≠ [(3, ⟨[], .none⟩)]) ∧
    (∃ t, exec (.encNew 0 1) State.reset = .next t) ∧ (∃ t, exec (.decNew 0 1) State.reset = .next t) :=
  ⟨(nextWith_spec (p := fun t => t.sinkAnswers == []) (by decide +kernel)).imp fun _ h => ⟨h.1, by simp_all⟩,
   (nextWith_spec (p := fun t => t.sourceAnswers == []) (by decide +kernel)).imp fun _ h => ⟨h.1, by simp_all⟩,
   (nextWith_spec (p := fun _ => true) (by decide +kernel)).imp fun _ h => h.1,
   (nextWith_spec (p := fun _ => true) (by decide +kernel)).imp fun _ h => h.1⟩

theorem forall₂_set {α : Type} {R : α → α → Prop} (hr : ∀ x, R x x) {a b : α} (hab : R a b) (l : List α) (i : Nat) :
    List.Forall₂ R (l.set i a) (l.set i b) := by
  induction l generalizing i with
  | nil => exact .nil
  | cons x l ih =>
    cases i with
    | zero => exact .cons hab (List.forall₂_same.mpr fun y _ => hr y)
    | succ i => exact .cons (hr x) (ih i)

/-- Two states that differ in where a decoder's pending view stands and in nothing a rule lets be seen. -/
theorem witness_unspecifiedContents : ∃ (s s' t : State), s.Inv Config.params ∧ s'.Inv Config.params ∧ s.alike s' ∧
    s ≠ s' ∧ exec (.decRead 0 1) s = .next t := by
  obtain ⟨t, ht, -⟩ : ∃ t, exec (.decRead 0 1) (decAt 0 (decoder .none 0 2) []) = .next t ∧ true = true :=
    nextWith_spec (p := fun _ => true) (by decide +kernel)
  refine ⟨decAt 0 (decoder .none 0 2) [], decAt 0 (decoder .none 2 2) [], t, decAt_inv _ _ (by decide) (by decide),
    decAt_inv _ _ (by decide) (by decide), ⟨?_, ?_, rfl, rfl, rfl, rfl, rfl, rfl⟩, fun h => ?_, ht⟩
  · exact List.forall₂_same.mpr fun E _ => ⟨rfl, fun _ => ⟨rfl, rfl⟩⟩
  · exact forall₂_set (fun D => ⟨rfl, fun _ => ⟨rfl, rfl, rfl, rfl⟩⟩)
      ⟨rfl, fun _ => ⟨rfl, rfl, rfl, by decide +kernel⟩⟩ _ _
  · have hd := decAt_slot (decoder .none 0 2) [] (h := 0) (by decide)
    rw [h, decAt_slot _ _ (by decide)] at hd
    exact absurd (congrArg (Option.map DecSlot.off) hd) (by decide)

theorem witness_c2n : ¬ isAlphabet 0x4A ∧ ¬ isAlphabet 0x5B ∧ ¬ isAlphabet 0x6A ∧ ¬ isAlphabet 0x7B := by decide
theorem witness_tables : Config.params.Valid ∧ ∀ n : Nibble, 0x6A#8 ≠ n2c n ∧ 0x6A#8 ≠ n2c n - 0x20#8 := by decide
theorem witness_case : Config.params.Valid ∧ List.Forall₂ sameUpToCase (txt ['z', 'K', '1']) (txt ['Z', 'k', '1']) ∧
    (0x61 ≤ (0x61#8).toNat ∧ (0x61#8).toNat ≤ 0x7A ∧ ¬ isAlphabet 0x61#8) ∧ ¬ isAlphabet 0x6A#8 := by
  refine ⟨params_valid, ?_, by decide, by decide⟩
  exact .cons (by decide) (.cons (by decide) (.cons (by decide) .nil))
theorem witness_sentinel : Config.params.Valid ∧ 15 < (16#8).toNat ∧ (∀ c, Instr.decodeText [] ≠ .c2n c) ∧
    (∀ c, Instr.decRead 0 0 ≠ .c2n c) := ⟨params_valid, by decide, by simp, by simp⟩

/-- A destination of exactly the text's length, and one a byte smaller. -/
theorem witness_encode : 2 * [7#8].length ≤ [0#8, 0#8].length ∧ [0#8].length < 2 * [7#8].length := by decide
theorem witness_encodeForms : 2 * [7#8].length ≤ [0#8, 0#8].length := by decide

/-- Well-formed text, empty text, and a character of each kind. -/
theorem witness_decodeReports : Config.params.Valid ∧ wellFormedText Config.params (txt ['z', 'K']) ∧
    wellFormedText Config.params [] ∧ validChar Config.params 0x6A = false ∧ validChar Config.params 0x6B = true := by
  decide
theorem witness_decode : [0#8, 0#8].length / 2 ≤ [0#8].length ∧ ([] : Bytes).length < [0#8, 0#8].length / 2 := by
  decide
theorem witness_roundTrip : Config.params.Valid ∧ wellFormedText Config.params (txt ['l', 'K']) := by decide
theorem witness_reencoding : small.Valid ∧ wellFormedText small (txt ['Z', 'k']) := by decide
theorem witness_partialOutput : Config.params.Valid ∧ (dec Config.params (txt ['z', 'y', 'j'])).2 ≠ .none ∧
    2 * 1 ≤ (txt ['z', 'y', 'j']).length ∧ (dec Config.params ((txt ['z', 'y', 'j']).take (2 * 1))).2 = .none := by
  decide
theorem witness_sizing :
    (∃ t r, exec (.encode [0, 0] [7]) State.reset = .next t ∧ t.responses = State.reset.responses ++ [r]) ∧
    (∃ t r, exec (.decode [0] [0x7A, 0x7A, 0x7A]) State.reset = .next t ∧
      t.responses = State.reset.responses ++ [r]) := ⟨⟨_, _, rfl, rfl⟩, ⟨_, _, rfl, rfl⟩⟩

/-- The last slot and the first handle past the slots, at the defaults and at two slots, where a word spells that
handle. -/
theorem witness_encNew : (255 < 256 ∧ State.reset.enc.length = 256 ∧ 256 ≤ 256) ∧ small.Valid ∧
    1 < small.numEncSlots ∧ (State.powerOn small).enc.length = small.numEncSlots ∧ small.numEncSlots ≤ 2 ∧
    decode 0x020B#16 Operands.zero = .ok (.encNew 2 0) :=
  ⟨⟨by decide, reset_enc_length, by decide⟩, small_valid, by decide, rfl, by decide, rfl⟩
theorem witness_decNew : (255 < 256 ∧ State.reset.dec.length = 256 ∧ 256 ≤ 256) ∧ small.Valid ∧
    1 < small.numDecSlots ∧ (State.powerOn small).dec.length = small.numDecSlots ∧ small.numDecSlots ≤ 2 ∧
    decode 0x020D#16 Operands.zero = .ok (.decNew 2 0) :=
  ⟨⟨by decide, reset_dec_length, by decide⟩, small_valid, by decide, rfl, by decide, rfl⟩

/-- The hypotheses of EncWriteHandsTheFirstChunkToTheSink, in one term, with the answer's signal. -/
def FirstChunk (h : Nat) (p : Bytes) (a : SinkAnswer) (before after : List (SinkId × SinkAnswer)) (s : State) : Prop :=
  h < 256 ∧ s.enc[h]? = some (encoder .none) ∧ (encoder .none).alloc = true ∧ (encoder .none).fault = .none ∧
  (encoder .none).out.length = 1024 ∧ p ≠ [] ∧ s.sinkAnswers = before ++ ((encoder .none).sink, a) :: after ∧
  (∀ x ∈ before, x.1 ≠ (encoder .none).sink) ∧ a.w ≤ 2 * min p.length 512

/-- A faulting answer, behind another Sink's. -/
theorem witness_firstChunk_fault : FirstChunk 255 [7] ⟨2, some ⟨9⟩⟩ [(4, ⟨0, none⟩)] []
    (encAt 255 .none [(4, ⟨0, none⟩), (3, ⟨2, some ⟨9⟩⟩)]) :=
  ⟨by decide, encAt_slot _ _ (by decide), rfl, rfl, List.length_replicate, by decide, rfl, by decide, by decide⟩
/-- A whole payload of 512 bytes. -/
theorem witness_firstChunk_whole : FirstChunk 0 (List.replicate 512 7) ⟨1024, none⟩ [] []
    (encAt 0 .none [(3, ⟨1024, none⟩)]) ∧ (List.replicate 512 7#8).length ≤ 512 :=
  ⟨⟨by decide, encAt_slot _ _ (by decide), rfl, rfl, List.length_replicate, by decide +kernel, rfl, by simp,
    by decide +kernel⟩, by decide +kernel⟩
/-- A payload of 513 bytes. -/
theorem witness_firstChunk_more (after : List (SinkId × SinkAnswer)) :
    FirstChunk 0 (List.replicate 513 7) ⟨1024, none⟩ [] after (encAt 0 .none ((3, ⟨1024, none⟩) :: after)) ∧
    512 < (List.replicate 513 7#8).length :=
  ⟨⟨by decide, encAt_slot _ _ (by decide), rfl, rfl, List.length_replicate, by decide +kernel, rfl, by simp,
    by decide +kernel⟩, by decide +kernel⟩
/-- The state after the first chunk of that payload, `s2` of the statement. -/
def afterChunk (after : List (SinkId × SinkAnswer)) : State :=
  let v := enc ((List.replicate 513 7#8).take 512)
  { encAt 0 .none ((3, ⟨1024, none⟩) :: after) with
    enc := (encAt 0 .none ((3, ⟨1024, none⟩) :: after)).enc.set 0
      { encoder .none with out := v ++ (encoder .none).out.drop v.length },
    sinkAnswers := [] ++ after, calls := [] ++ [.sinkWrite (encoder .none).sink v ⟨1024, none⟩] }

/-- The rest of that payload, one byte, is answered, waits, or is refused, as the Sink's next answer has it. -/
theorem witness_firstChunk_answered : ∃ u, exec (.encWrite 0 ((List.replicate 513 7#8).drop 512))
    (afterChunk [(3, ⟨2, none⟩)]) = .next u ∧ u.responses = [⟨1, [], .none⟩] := responds_spec (by decide +kernel)
theorem witness_firstChunk_waits :
    exec (.encWrite 0 ((List.replicate 513 7#8).drop 512)) (afterChunk []) = .next (afterChunk []) := by
  have hl : (enc ((List.replicate 513 7#8).take 512) ++
      (encoder .none).out.drop (enc ((List.replicate 513 7#8).take 512)).length).length = Config.params.encCap := by
    decide +kernel
  have hs : 0 < (encAt 0 .none [(3, ⟨1024, none⟩)]).enc.length := by
    simp only [encAt, State.putEnc_enc, List.length_set, reset_enc_length]; decide
  rw [show (List.replicate 513 7#8).drop 512 = [7#8] by decide +kernel, exec_default,
    execWith_encWrite (by decide) (List.getElem?_set_self hs) rfl, encTransaction, List.length_singleton,
    encLoop_succ_eq _ _ _ _ _ _ (by decide) rfl hl, sinkWrite_eq_waits.mpr rfl]
  rfl
theorem witness_firstChunk_refused : exec (.encWrite 0 ((List.replicate 513 7#8).drop 512))
    (afterChunk [(3, ⟨3, none⟩)]) = .refused .sinkAnswerOutsideContract := refusal_spec (by decide +kernel)

/-- A payload of two chunks, the second shorter; and one of whole chunks only. -/
theorem witness_encWriteCompletes :
    (encAt 0 .none [(3, ⟨1024, none⟩), (3, ⟨2, none⟩), (4, ⟨0, none⟩)]).sinkAnswers =
      List.replicate ((List.replicate 513 7#8).length / 512) ((encoder .none).sink, ⟨1024, none⟩) ++
        (if (List.replicate 513 7#8).length % 512 = 0 then []
         else [((encoder .none).sink, ⟨2 * ((List.replicate 513 7#8).length % 512), none⟩)]) ++ [(4, ⟨0, none⟩)] ∧
    (encAt 0 .none [(3, ⟨1024, none⟩)]).sinkAnswers =
      List.replicate ((List.replicate 512 7#8).length / 512) ((encoder .none).sink, ⟨1024, none⟩) ++
        (if (List.replicate 512 7#8).length % 512 = 0 then []
         else [((encoder .none).sink, ⟨2 * ((List.replicate 512 7#8).length % 512), none⟩)]) ++ [] ∧
    0 < 256 ∧ (encAt 0 .none []).enc[0]? = some (encoder .none) ∧ (encoder .none).alloc = true ∧
    (encoder .none).fault = .none ∧ (encoder .none).out.length = 1024 :=
  ⟨by decide +kernel, by decide +kernel, by decide, encAt_slot _ _ (by decide), rfl, rfl, List.length_replicate⟩

theorem witness_encWriteFaulted : (encAt 255 (.ioFault ⟨1⟩) []).enc[255]? = some (encoder (.ioFault ⟨1⟩)) ∧
    (encoder (.ioFault ⟨1⟩)).alloc = true ∧ (encoder (.ioFault ⟨1⟩)).fault ≠ .none :=
  ⟨encAt_slot _ _ (by decide), rfl, by simp [encoder, -List.reduceReplicate]⟩
theorem witness_encWriteNothing : (encAt 0 .none []).enc[0]? = some (encoder .none) ∧ (encoder .none).alloc = true :=
  ⟨encAt_slot _ _ (by decide), rfl⟩

/-- A write that is answered in full: the last clause's premises hold too. -/
theorem witness_encWriteProgress : ∃ (s t : State) (r : Response), s.Inv Config.params ∧
    s.enc[0]? = some (encoder .none) ∧ exec (.encWrite 0 [7]) s = .next t ∧ t.responses = s.responses ++ [r] ∧
    (encoder .none).fault = .none ∧
    t.calls = s.calls ++ [.sinkWrite (encoder .none).sink (txt ['z', 's']) ⟨(txt ['z', 's']).length, none⟩] := by
  obtain ⟨t, ht, hp⟩ := nextWith_spec
    (o := exec (.encWrite 0 [7]) (encAt 0 .none [(3, ⟨2, none⟩)]))
    (p := fun t => t.responses == [⟨1, [], .none⟩] && t.calls == [.sinkWrite 3 (txt ['z', 's']) ⟨2, none⟩])
    (by decide +kernel)
  simp only [Bool.and_eq_true, beq_iff_eq] at hp
  exact ⟨_, t, _, encAt_inv _ _ (.inl rfl), encAt_slot _ _ (by decide), ht, hp.1, rfl, hp.2⟩

theorem witness_fullProgress : ∃ (s t : State), s.Inv Config.params ∧ s.enc[0]? = some (encoder .none) ∧
    exec (.encWrite 0 [7]) s = .next t ∧ t.responses = s.responses ++ [⟨[7#8].length, [], .none⟩] := by
  obtain ⟨t, ht, hp⟩ := responds_spec (rs := [⟨1, [], .none⟩])
    (o := exec (.encWrite 0 [7]) (encAt 0 .none [(3, ⟨2, none⟩)])) (by decide +kernel)
  exact ⟨_, t, encAt_inv _ _ (.inl rfl), encAt_slot _ _ (by decide), ht, hp⟩

/-- Two writes, the first of two chunks. -/
theorem witness_anyChunking : ∃ (s t : State) (E : EncSlot), small.Valid ∧ s.Inv small ∧ s.enc[0]? = some E ∧
    writeAll small 0 [[1, 2, 3], [4]] s = some t :=
  ⟨writing .none [⟨4, none⟩, ⟨2, none⟩, ⟨2, none⟩], _, _, small_valid, writing_inv _ (.inl rfl), rfl, rfl⟩

theorem witness_encoderSticky : ∃ (s t : State), s.enc[0]? = some (encoder (.ioFault ⟨1⟩)) ∧
    (encoder (.ioFault ⟨1⟩)).fault ≠ .none ∧ (∀ k, Instr.encWrite 0 [7] ≠ .encNew 0 k) ∧
    exec (.encWrite 0 [7]) s = .next t := by
  obtain ⟨t, ht, -⟩ := nextWith_spec (o := exec (.encWrite 0 [7]) (encAt 0 (.ioFault ⟨1⟩) [])) (p := fun _ => true)
    (by decide +kernel)
  exact ⟨_, t, encAt_slot _ _ (by decide), witness_encWriteFaulted.2.2, by simp, ht⟩

theorem witness_encWriteWaits : (encAt 0 .none [(4, ⟨0, none⟩)]).enc[0]? = some (encoder .none) ∧
    (encoder .none).alloc = true ∧ (encoder .none).fault = .none ∧ (encoder .none).out.length = 1024 ∧
    [7#8] ≠ [] ∧ (∀ x ∈ (encAt 0 .none [(4, ⟨0, none⟩)]).sinkAnswers, x.1 ≠ (encoder .none).sink) :=
  ⟨encAt_slot _ _ (by decide), rfl, rfl, List.length_replicate, by decide, by simp [encAt, encoder, -List.reduceReplicate]⟩

/-- A fill with a leftover byte and the longest answer the Source may give, behind another Source's answer. -/
theorem witness_decReadFills : ∃ s : State, s.dec[255]? = some (decoder .none 1023 1) ∧
    (decoder .none 1023 1).alloc = true ∧ (decoder .none 1023 1).fault = .none ∧ (decoder .none 1023 1).len < 2 ∧
    (decoder .none 1023 1).arr.length = 1024 ∧ (decoder .none 1023 1).off + (decoder .none 1023 1).len ≤ 1024 ∧
    s.sourceAnswers = [(4, ⟨[], .none⟩)] ++ ((decoder .none 1023 1).source, ⟨List.replicate 1023 0, .endOfStream⟩) :: [] ∧
    (∀ x ∈ [(4, (⟨[], .none⟩ : SourceAnswer))], x.1 ≠ (decoder .none 1023 1).source) ∧
    (List.replicate 1023 0#8).length ≤ 1024 - (decoder .none 1023 1).len :=
  ⟨decAt 255 (decoder .none 1023 1) [(4, ⟨[], .none⟩), (3, ⟨List.replicate 1023 0, .endOfStream⟩)],
    decAt_slot _ _ (by decide), rfl, rfl, by decide, List.length_replicate, by decide, rfl, by decide,
    by decide +kernel⟩

/-- Two pending bytes at the end of the buffer; and a stored fault with one. -/
theorem witness_decReadPending : (∃ s : State, s.dec[0]? = some (decoder .none 1022 2)) ∧
    (decoder .none 1022 2).alloc = true ∧ 2 ≤ (decoder .none 1022 2).len ∧ (decoder .none 1022 2).arr.length = 1024 ∧
    (decoder .none 1022 2).off + (decoder .none 1022 2).len ≤ 1024 ∧
    (decoder .unexpectedEos 1023 1).fault ≠ .none :=
  ⟨⟨_, decAt_slot _ [] (by decide)⟩, rfl, by decide, List.length_replicate, by decide, by decide⟩

theorem witness_decReadFaulted : (∃ s : State, s.dec[0]? = some (decoder .unexpectedEos 1023 1)) ∧
    (decoder .unexpectedEos 1023 1).alloc = true ∧ (decoder .unexpectedEos 1023 1).fault ≠ .none ∧
    (decoder .unexpectedEos 1023 1).len < 2 ∧ (decoder .unexpectedEos 1023 1).arr.length = 1024 ∧
    (decoder .unexpectedEos 1023 1).off + (decoder .unexpectedEos 1023 1).len ≤ 1024 :=
  ⟨⟨_, decAt_slot _ [] (by decide)⟩, rfl, by decide, by decide, List.length_replicate, by decide⟩

/-- A starved decoder whose Source is silent. -/
theorem witness_decReadWaits : ∃ s : State, s.Inv Config.params ∧ s.dec[0]? = some (decoder .none 0 1) ∧
    (decoder .none 0 1).alloc = true ∧ (decoder .none 0 1).len < 2 ∧ (decoder .none 0 1).fault = .none ∧
    (∀ x ∈ s.sourceAnswers, x.1 ≠ (decoder .none 0 1).source) :=
  ⟨decAt 0 (decoder .none 0 1) [], decAt_inv _ _ (by decide) (by decide), decAt_slot _ _ (by decide), rfl, by decide, rfl,
    by simp [decAt]⟩

/-- A starved decoder whose Source answers, asked for nothing. -/
theorem witness_decReadStarved_answered : ∃ (s t : State) (r : Response), s.Inv Config.params ∧
    s.dec[0]? = some (decoder .none 0 1) ∧ exec (.decRead 0 0) s = .next t ∧ t.responses = s.responses ++ [r] := by
  obtain ⟨t, ht, hp⟩ := responds_spec (rs := [⟨0, [], .none⟩])
    (o := exec (.decRead 0 0) (decAt 0 (decoder .none 0 1) [(3, ⟨[], .none⟩)])) (by decide +kernel)
  exact ⟨_, t, _, decAt_inv _ _ (by decide) (by decide), decAt_slot _ _ (by decide), ht, hp⟩

/-- A decoder that is not starved. -/
theorem witness_decReadStarved_fed : ∃ (s t : State) (r : Response), s.Inv Config.params ∧
    s.dec[0]? = some (decoder .none 0 2) ∧ ¬((decoder .none 0 2).len < 2 ∧ (decoder .none 0 2).fault = .none) ∧
    exec (.decRead 0 0) s = .next t ∧ t.responses = s.responses ++ [r] := by
  obtain ⟨t, ht, hp⟩ := responds_spec (rs := [⟨0, [], .none⟩])
    (o := exec (.decRead 0 0) (decAt 0 (decoder .none 0 2) [])) (by decide +kernel)
  exact ⟨_, t, _, decAt_inv _ _ (by decide) (by decide), decAt_slot _ _ (by decide), by decide, ht, hp⟩

theorem witness_decReadBounded : ∃ (s t : State) (r : Response), s.Inv Config.params ∧
    exec (.decRead 0 1) s = .next t ∧ t.responses = s.responses ++ [r] := by
  obtain ⟨t, ht, hp⟩ := responds_spec (rs := [⟨1, [0], .none⟩])
    (o := exec (.decRead 0 1) (decAt 0 (decoder .none 0 1024) [])) (by decide +kernel)
  exact ⟨_, t, _, decAt_inv _ _ (by decide) (by decide), ht, hp⟩

theorem witness_faultedDecoder : ∃ (s t : State), s.Inv Config.params ∧
    s.dec[0]? = some (decoder .unexpectedEos 0 1) ∧ (decoder .unexpectedEos 0 1).phase = .faulted ∧
    (∀ k, Instr.decRead 0 9 ≠ .decNew 0 k) ∧ exec (.decRead 0 9) s = .next t := by
  obtain ⟨t, ht, -⟩ := nextWith_spec (o := exec (.decRead 0 9) (decAt 0 (decoder .unexpectedEos 0 1) []))
    (p := fun _ => true) (by decide +kernel)
  exact ⟨_, t, decAt_inv _ _ (by decide) (by decide), decAt_slot _ _ (by decide), by decide, by simp, ht⟩

/-- 95 S-D3 at capacity 4: "zyz", "x" and the end, read to the end of the stream. -/
theorem witness_stream : ∃ (s t : State) (D : DecSlot) (data : Bytes) (st : Status), small.Valid ∧ s.Inv small ∧
    s.dec[0]? = some D ∧ D.alloc = true ∧ D.fault = .none ∧ D.len = 0 ∧
    answersOf D.source s.sourceAnswers =
      [⟨txt ['z', 'y', 'z'], .none⟩, ⟨txt ['x'], .none⟩] ++ ⟨[], .endOfStream⟩ :: [] ∧
    (∀ a ∈ [(⟨txt ['z', 'y', 'z'], .none⟩ : SourceAnswer), ⟨txt ['x'], .none⟩], a.sig = .none) ∧
    (∀ n ∈ [8, 8, 8], 1 ≤ n) ∧ readUntilStatus small 0 [8, 8, 8] s = some (data, st, t) ∧ data = [1, 2] ∧
    st = .endOfStream :=
  ⟨reading .none [0, 0, 0, 0] 0 0 [⟨txt ['z', 'y', 'z'], .none⟩, ⟨txt ['x'], .none⟩, ⟨[], .endOfStream⟩], _, _, _, _,
    small_valid, reading_inv _ (by decide) (by decide), rfl, rfl, rfl, rfl, rfl, by decide, by decide, rfl, rfl, rfl⟩

/-- The same stream: answers of at most DEC_CAP - 1 bytes, and as many reads as the bound asks for. -/
theorem witness_readingReachesTheEnd :
    (∀ a ∈ [(⟨txt ['z', 'y', 'z'], .none⟩ : SourceAnswer), ⟨txt ['x'], .none⟩] ++ [⟨[], .endOfStream⟩],
      a.v.length ≤ small.decCap - 1) ∧
    2 + 1 + (([(⟨txt ['z', 'y', 'z'], .none⟩ : SourceAnswer), ⟨txt ['x'], .none⟩].map SourceAnswer.v).flatten ++
      []).length / 2 ≤ (List.replicate 5 1).length ∧ (∀ n ∈ List.replicate 5 1, 1 ≤ n) ∧
    (reading .none [0, 0, 0, 0] 0 0
      [⟨txt ['z', 'y', 'z'], .none⟩, ⟨txt ['x'], .none⟩, ⟨[], .endOfStream⟩]).Inv small :=
  ⟨by decide, by decide, by decide, reading_inv _ (by decide) (by decide)⟩

end Sys2Proof.Tests
end

/-! The statements of 00_scope.md: what one step can do at any parameters, and DEC_READ's FILLING path. -/

namespace Sys2Proof.Machine

/-! ## What one step can do -/

section

variable {Token : Type} {run : Instr → State Token → Host.Outcome (State Token) Fault Refusal} {s : State Token}

/-- With no command issued the block is idle (log 5). -/
theorem transact_idle (h : fetch s = none) : transact run s = .next s := by simp only [transact, h]

/-- A word that spells a command is run (R6, R80). -/
theorem transact_decoded {c : Command} {i : Instr} (h : fetch s = some c) (hd : decode c.word c.ops = .ok i) :
    transact run s = run i s := by simp only [transact, h, hd]

/-- A word that spells no command raises ILLEGAL_COMMAND (R79). -/
theorem transact_illegal {c : Command} {e : DecodeError} (h : fetch s = some c) (hd : decode c.word c.ops = .error e) :
    transact run s = .next (s.raiseFault .illegalCommand) := by simp only [transact, h, hd, illegalCommand_eq]

/-- A transaction is idle, records an illegal word, or runs one command; there is no other case. -/
theorem transact_cases (run : Instr → State Token → Host.Outcome (State Token) Fault Refusal) (s : State Token) :
    transact run s = .next s ∨ transact run s = .next (s.raiseFault .illegalCommand) ∨
      ∃ i, transact run s = run i s := by
  cases hf : fetch s with
  | none => exact .inl (transact_idle hf)
  | some c =>
    cases hd : decode c.word c.ops with
    | error e => exact .inr (.inl (transact_illegal hf hd))
    | ok i => exact .inr (.inr ⟨i, transact_decoded hf hd⟩)

end

/-- `step` is the machine of `stepWith` at the defaults (log 1). -/
theorem step_default (s : State) : step s = stepWith Config.params s := by
  rw [step, stepWith, funext fun i => funext (exec_default i)]

/-- The command of a table word is what the word decodes to with the zero operand record (log 24). -/
theorem decode_of_decodeTableWord {nbits w : Nat} {i : Instr} (h : decodeTableWord nbits w = some i) :
    decode (BitVec.ofNat 16 w) Operands.zero = .ok i := by
  rw [decodeTableWord, Option.ite_none_right_eq_some] at h
  obtain ⟨-, h⟩ := h
  cases hd : decode (BitVec.ofNat 16 w) Operands.zero with
  | error e => rw [hd] at h; cases h
  | ok j => rw [hd] at h; cases h; rfl

variable {Token : Type} [DecidableEq Token]

/-- What a step can have done when it answers a next state. -/
theorem stepWith_effect {P : Params} {s t : State Token} (h : stepWith P s = .next t) :
    t = s ∨ t = s.raiseFault .illegalCommand ∨ ∃ i, Effect P s i t := by
  rcases transact_cases (execWith P) s with hi | hi | ⟨i, hi⟩ <;> rw [stepWith, hi] at h
  · cases h; exact .inl rfl
  · cases h; exact .inr (.inl rfl)
  · exact .inr (.inr ⟨i, execWith_effect h⟩)

/-! ## The invariant and the stops, at any parameters -/

/-- A command that answers a next state keeps the invariant. -/
theorem Effect.keeps_inv {P : Params} {i : Instr} {s t : State Token} (hP : P.Valid) (hs : s.Inv P)
    (h : Effect P s i t) : t.Inv P := by
  obtain ⟨-, -, hcap, -⟩ := hP
  cases h with
  | responds _ r hi => exact inv_of_slots hs rfl rfl
  | faults _ m => exact inv_of_slots hs rfl rfl
  | encWaits h p => exact hs
  | decWaits h n => exact hs
  | encNew h k hh hl => exact inv_of_slots (inv_putEnc hs (freshEnc_wf P k s.draws)) rfl rfl
  | encWrite h p E n E' u hh hE ha hloop =>
    have hwf := inv_enc_wf hs hE
    obtain ⟨he, hd, -⟩ := (encLoop_done hwf.1 hloop).frame
    exact inv_of_slots (inv_putEnc (inv_of_slots hs he hd) (encLoop_wf hwf hloop)) rfl rfl
  | decNew h k hh hl => exact inv_of_slots (inv_putDec hs (freshDec_wf P k s.draws)) rfl rfl
  | decRead h n D _ hh hD ha htx =>
    obtain ⟨D', out, u, hwf, -, -, -, hu, -, rfl⟩ := decTransaction_done (inv_dec_wf hs hD) hcap htx
    have hu' : u.Inv P := by rw [hu]; exact inv_of_slots hs rfl rfl
    exact inv_of_slots (inv_putDec hu' hwf) rfl rfl

omit [DecidableEq Token] in
/-- ENC_NEW on a state with a record for every slot stops in no fault. -/
theorem encNewWith_ne_fault {P : Params} {h : Nat} {k : SinkId} {s : State Token} {f : Fault} (hs : s.Inv P) :
    encNewWith P h k s ≠ .fault f := by
  have hlen := hs.1
  unfold encNewWith
  split
  · simp
  · rw [if_neg (by omega)]; simp

omit [DecidableEq Token] in
/-- DEC_NEW on a state with a record for every slot stops in no fault. -/
theorem decNewWith_ne_fault {P : Params} {h : Nat} {k : SourceId} {s : State Token} {f : Fault} (hs : s.Inv P) :
    decNewWith P h k s ≠ .fault f := by
  have hlen := hs.2.1
  unfold decNewWith
  split
  · simp
  · rw [if_neg (by omega)]; simp

/-- ENC_WRITE on a well-formed state forms no index outside its slot's buffer. -/
theorem encWriteWith_ne_fault {P : Params} {h : Nat} {p : Bytes} {s : State Token} {f : Fault} (hs : s.Inv P) :
    encWriteWith P h p s ≠ .fault f := by
  have hlen := hs.1
  unfold encWriteWith
  split
  · simp
  · rw [List.getElem?_eq_getElem (by omega)]
    simp only
    split
    · rw [ne_eq, conclude_eq_fault]
      exact encTransaction_ne_fault (inv_enc_wf hs (List.getElem?_eq_getElem (by omega))).1
    · simp

/-- DEC_READ on a well-formed state forms no index outside its slot's buffer. -/
theorem decReadWith_ne_fault {P : Params} {h n : Nat} {s : State Token} {f : Fault} (hcap : 2 ≤ P.decCap)
    (hs : s.Inv P) : decReadWith P h n s ≠ .fault f := by
  have hlen := hs.2.1
  unfold decReadWith
  split
  · simp
  · rw [List.getElem?_eq_getElem (by omega)]
    simp only
    split
    · rw [ne_eq, conclude_eq_fault]
      exact decTransaction_ne_fault (inv_dec_wf hs (List.getElem?_eq_getElem (by omega))) hcap
    · simp

/-- No command on a well-formed state forms an index outside a buffer or a slot file (R51). -/
theorem execWith_ne_fault {P : Params} {i : Instr} {s : State Token} {f : Fault} (hP : P.Valid) (hs : s.Inv P) :
    execWith P i s ≠ .fault f := by
  obtain ⟨-, -, hcap, -⟩ := hP
  cases i with
  | encNew h k => exact encNewWith_ne_fault hs
  | encWrite h p => exact encWriteWith_ne_fault hs
  | decNew h k => exact decNewWith_ne_fault hs
  | decRead h n => exact decReadWith_ne_fault hcap hs
  | encode dst src => simp only [execWith, encodeWith]; split <;> simp
  | decode dst src => simp only [execWith, decodeWith]; split <;> simp
  | _ => exact nofun

/-- No step from a well-formed state stops in a fault. -/
theorem stepWith_ne_fault {P : Params} {s : State Token} (hP : P.Valid) (hs : s.Inv P) (f : Fault) :
    stepWith P s ≠ .fault f := by
  rcases transact_cases (execWith P) s with hi | hi | ⟨i, hi⟩ <;> rw [stepWith, hi]
  · simp
  · simp
  · exact execWith_ne_fault hP hs

/-- Every step keeps the invariant, at any valid parameters. -/
theorem stepWith_keeps_inv {P : Params} {s t : State Token} (hP : P.Valid) (hs : s.Inv P)
    (h : stepWith P s = .next t) : t.Inv P := by
  rcases stepWith_effect h with rfl | rfl | ⟨i, he⟩
  · exact hs
  · exact inv_of_slots hs rfl rfl
  · exact he.keeps_inv hP hs

/-! ## How a transaction ends -/

/-- A command that answers a next state is unfinished, or is one model fault, or returned one response. -/
theorem Effect.ends {P : Params} {i : Instr} {s t : State Token} (h : Effect P s i t) :
    t = s ∨ (∃ m, t = s.raiseFault m) ∨
      ∃ r, t.cmds = s.cmds.tail ∧ t.responses = s.responses ++ [r] ∧ t.mf = s.mf := by
  cases h with
  | responds _ r hi => exact .inr (.inr ⟨r, rfl, rfl, rfl⟩)
  | faults _ m => exact .inr (.inl ⟨m, rfl⟩)
  | encWaits h p => exact .inl rfl
  | decWaits h n => exact .inl rfl
  | encNew h k hh hl => exact .inr (.inr ⟨_, rfl, rfl, rfl⟩)
  | encWrite h p E n E' u hh hE ha hloop =>
    rw [encLoop_frame hloop]
    exact .inr (.inr ⟨_, rfl, rfl, rfl⟩)
  | decNew h k hh hl => exact .inr (.inr ⟨_, rfl, rfl, rfl⟩)
  | decRead h n D _ hh hD ha htx =>
    obtain ⟨D', r, ht⟩ := decTransaction_frame htx
    rw [ht]
    exact .inr (.inr ⟨r, rfl, rfl, rfl⟩)

/-- A step that answers a next state leaves it alone, or is one model fault, or returned one response. -/
theorem stepWith_ends {P : Params} {s t : State Token} (h : stepWith P s = .next t) :
    t = s ∨ (∃ m, t = s.raiseFault m) ∨
      ∃ r, t.cmds = s.cmds.tail ∧ t.responses = s.responses ++ [r] ∧ t.mf = s.mf := by
  rcases stepWith_effect h with ht | ht | ⟨i, he⟩
  · exact .inl ht
  · exact .inr (.inl ⟨_, ht⟩)
  · exact he.ends

/-! ## The FILLING path of DEC_READ (R202-R207) -/

/-- A character is valid exactly when it is in the alphabet (R21, R23), at any sentinel above 15. -/
theorem validChar_iff {P : Params} (hinv : 15 < P.invalid.toNat) (c : Byte) :
    validChar P c = true ↔ isAlphabet c := by
  have hc := c.isLt
  rw [validChar, decide_eq_true_iff, c2n]
  split
  · simp only [BitVec.toNat_sub, BitVec.toNat_ofNat]; omega
  · split
    · simp only [BitVec.toNat_sub, BitVec.toNat_ofNat]; omega
    · omega

/-- The last byte of a view, read at its last index in a buffer that begins with the view. -/
theorem getElem_last_append {S rest : Bytes} (hS : S ≠ []) (h : S.length - 1 < (S ++ rest).length) :
    (S ++ rest)[S.length - 1] = S.getLastD 0#8 := by
  have hl := List.length_pos_iff.mpr hS
  rw [List.getElem_append_left (by omega), ← List.getLast_eq_getElem hS, List.getLastD_eq_getLast?,
    List.getLast?_eq_some_getLast hS, Option.getD_some]

/-- The fill's verdict is R203's, when the new pending view `S` stands at the front of the buffer and no fault was
stored. -/
theorem fillFault_verdict {P : Params} (hinv : 15 < P.invalid.toNat) (S rest : Bytes) (sig : SourceSig Token) :
    fillFault P (S ++ rest) S.length sig .none = .done (fillVerdict S sig) := by
  cases sig with
  | none => rfl
  | ioFault t => rfl
  | endOfStream =>
    rcases Nat.mod_two_eq_zero_or_one S.length with heven | hodd
    · simp [fillFault, fillVerdict, heven, sourceFault]
    · have hS : S ≠ [] := by rintro rfl; simp at hodd
      have hlast : S.length - 1 < (S ++ rest).length := by rw [List.length_append]; omega
      simp only [fillFault, fillVerdict, hodd, and_self, if_true, memByte_inside hlast, Txn.done_andThen,
        getElem_last_append hS hlast, validChar_iff hinv, one_ne_zero, if_false]

/-- A starved decoder after its Source's answer `a` (R202, R203): the leftover and what the Source delivered are the
new pending view, at the front of the buffer. -/
def DecSlot.filled (D : DecSlot Token) (a : SourceAnswer Token) : DecSlot Token :=
  { D with
    fault := fillVerdict (D.pending ++ a.v) a.sig
    arr := D.pending ++ a.v ++ D.arr.drop (D.pending ++ a.v).length
    off := 0
    len := (D.pending ++ a.v).length }

omit [DecidableEq Token] in
@[simp] theorem DecSlot.filled_pending (D : DecSlot Token) (a : SourceAnswer Token) :
    (D.filled a).pending = D.pending ++ a.v := List.take_left

section

variable {P : Params} {D : DecSlot Token} {a : SourceAnswer Token} (hP : P.Valid) (hD : D.Wf P) (hf : D.fault = .none)
  (hlen : D.len < 2) (ha : a.v.length ≤ P.decCap - D.len)

include hP hD hf hlen ha

/-- FILLING, with its verdict. -/
theorem fillStep_filled : fillStep P D a = .done (D.filled a) := by
  obtain ⟨-, -, hcap, hinv, -⟩ := hP
  obtain ⟨f, hfill, hv, -⟩ := fillStep_eq hD hlen ha hcap
  have hl : D.len + a.v.length = (D.pending ++ a.v).length := by rw [List.length_append, hD.pending_length]
  rw [hf, DecSlot.refilled, hl, fillFault_verdict hinv] at hv
  cases hv
  rw [hfill, DecSlot.refilled, hl]
  rfl

/-- FILLING keeps the decoder well formed. -/
theorem DecSlot.filled_wf : (D.filled a).Wf P :=
  (fillStep_wf hD hlen ha hP.2.2.1 (fillStep_filled hP hD hf hlen ha)).1

/-- The transaction of DEC_READ on a starved decoder whose Source answers `a`: the call is recorded, and DECODING runs
on the filled decoder. -/
theorem decTransaction_filled {h n : Nat} {s : State Token} {rest : List (SourceId × SourceAnswer Token)}
    (hpop : popAnswer D.source s.sourceAnswers = some (a, rest)) :
    decTransaction P h n D s =
      (decodeStep P (D.filled a) n).andThen fun (D', out) =>
        .done (({ s with sourceAnswers := rest,
                         calls := s.calls ++ [AgentCall.sourceRead D.source (P.decCap - D.len) a] }.putDec h D').respond
          ⟨out.length, out, surfaced D'⟩) := by
  rw [decTransaction_eq, if_pos ⟨hlen, hf⟩, sourceRead_eq_done.mpr ⟨rest, hpop, ha, rfl⟩]
  simp only [Txn.done_andThen, fillStep_filled hP hD hf hlen ha]

end

/-- The word `(h << 8) | 0x0E` is DEC_READ on slot `h` (R74, R201). -/
theorem decode_decRead {h : Nat} (hh : h < 256) (o : Operands) :
    decode (BitVec.ofNat 16 (256 * h + 0x0E)) o = .ok (.decRead h o.n) := by
  have hw : (BitVec.ofNat 16 (256 * h + 0x0E)).toNat = 256 * h + 0x0E := by
    rw [BitVec.toNat_ofNat]; omega
  have hop : (cmdOp (BitVec.ofNat 16 (256 * h + 0x0E))).toNat = 0x0E := by rw [cmdOp_toNat, hw]; omega
  have hha : (cmdHandle (BitVec.ofNat 16 (256 * h + 0x0E))).toNat = h := by rw [cmdHandle_toNat, hw]; omega
  simp only [decode, hop, hha]

end Sys2Proof.Machine

/-! ## The statements -/

namespace Sys2Proof.Machine

/-- Settles O14: no step from a well-formed state stops in a fault, and every step keeps the invariant. -/
theorem noIndexOutsideABufferAtAnyParameters : Obligations.NoIndexOutsideABufferAtAnyParameters := by
  intro Token _ P hP
  exact ⟨powerOn_inv P, fun s hs => ⟨stepWith_ne_fault hP hs, fun t => stepWith_keeps_inv hP hs⟩⟩

/-- Settles O10, by the cases of `Effect`. -/
theorem eachTransactionEndsInOneResponseOrOneModelFault :
    Obligations.EachTransactionEndsInOneResponseOrOneModelFault := by
  intro s t c rest hc h
  have htail : s.cmds.tail = rest := by rw [hc]; rfl
  rw [step_default] at h
  subst htail
  exact stepWith_ends h

/-- Settles O51: FILLING gives the filled decoder, and DECODING on it either moves the view or discards it. -/
theorem decReadFillsAndDecodes : Obligations.DecReadFillsAndDecodes := by
  refine ⟨fun h o hh => decode_decRead hh o, ?_⟩
  intro h n D a before after s hh hD hal hf hlen harr hoff hq hb ha S f m out st arr
  have hP : Config.params.Valid := by decide
  have hwf : D.Wf Config.params := ⟨harr, hoff, by rw [hf]; exact nofun⟩
  have hpop : popAnswer D.source s.sourceAnswers = some (a, before ++ after) := by rw [hq]; exact popAnswer_first hb
  have hdec := decodeStep_eq n (DecSlot.filled_wf hP hwf hf hlen ha)
  rw [DecSlot.filled_pending] at hdec
  rw [exec_default, execWith_decRead hh hD hal, decTransaction_filled hP hwf hf hlen ha hpop]
  by_cases hst : st = .none
  · rw [hdec.trans (if_pos hst), if_pos hst, if_neg (not_not.mpr hst)]
    simp only [DecSlot.filled, hal, Nat.zero_add]
    rfl
  · rw [hdec.trans (if_neg hst), if_neg hst, if_pos hst]
    simp only [DecSlot.filled, hal]
    rfl

/-- Settles O7, by the cases of `transact`. -/
theorem stepRunsTheDecodedCommand : Obligations.StepRunsTheDecodedCommand := by
  refine ⟨fun s c rest i hc hd => ?_, fun s hc => ?_, fun s nbits w i hi => ?_⟩
  · exact transact_decoded (fetch_cons hc) hd
  · exact transact_idle (fetch_nil hc)
  · exact transact_decoded (fetch_withFetchWord s nbits w) (decode_of_decodeTableWord hi)

/-- Settles O9: `exec` calls the parametric operations at the defaults, arm by arm. -/
theorem stepIsTheDefaultInstance : Obligations.StepIsTheDefaultInstance :=
  ⟨exec_default, step_default, by decide, rfl⟩

end Sys2Proof.Machine

/-! The statements of 10_state.md: the tables, the sentinel, the invariant, and what is unobservable. -/

namespace Sys2Proof.Machine

/-! ## The tables (R20-R23) -/

section

variable {P : Params}

/-- C2N as a formula (R21): an alphabet character's entry is its nibble, every other entry is the sentinel. -/
theorem c2n_eq (P : Params) (c : Byte) :
    c2n P c = if isAlphabet c then BitVec.ofNat 8 (nibbleOf c) else P.invalid := by
  have hc := c.isLt
  simp only [c2n, isAlphabet, nibbleOf]
  by_cases hlow : 0x6B ≤ c.toNat ∧ c.toNat ≤ 0x7A
  · rw [if_pos hlow, if_pos (.inr hlow), if_pos hlow.1]
    apply BitVec.eq_of_toNat_eq
    simp only [BitVec.toNat_sub, BitVec.toNat_ofNat]; omega
  · rw [if_neg hlow]
    by_cases hup : 0x4B ≤ c.toNat ∧ c.toNat ≤ 0x5A
    · rw [if_pos hup, if_pos (.inl hup), if_neg (by omega)]
      apply BitVec.eq_of_toNat_eq
      simp only [BitVec.toNat_sub, BitVec.toNat_ofNat]; omega
    · rw [if_neg hup, if_neg (not_or.mpr ⟨hup, hlow⟩)]

theorem c2n_of_isAlphabet {c : Byte} (hc : isAlphabet c) : c2n P c = BitVec.ofNat 8 (nibbleOf c) := by
  rw [c2n_eq, if_pos hc]

theorem c2n_of_not_isAlphabet {c : Byte} (hc : ¬ isAlphabet c) : c2n P c = P.invalid := by
  rw [c2n_eq, if_neg hc]

/-- The upper-case variant `N2C[n] - 0x20` has the entry `n` too (R22). -/
theorem c2n_n2c_upper (P : Params) (n : Nibble) : c2n P (n2c n - 0x20#8) = n.zeroExtend 8 := by
  have h : ∀ n : Nibble, isAlphabet (n2c n - 0x20#8) ∧
      BitVec.ofNat 8 (nibbleOf (n2c n - 0x20#8)) = n.zeroExtend 8 := by decide
  rw [c2n_of_isAlphabet (h n).1, (h n).2]

/-- No character stands twice in N2C (R22), because C2N gives its nibble back. -/
theorem n2c_injective {m n : Nibble} (h : n2c m = n2c n) : m = n := by
  have hz : m.zeroExtend 8 = n.zeroExtend 8 := by
    rw [← c2n_n2c Config.params m, ← c2n_n2c Config.params n, h]
  simpa using congrArg (BitVec.setWidth 4) hz

/-- An alphabet character is the entry of its nibble, or the upper-case variant of that entry (R20, R21). -/
theorem eq_n2c_of_isAlphabet {c : Byte} (hc : isAlphabet c) : ∃ n : Nibble, c = n2c n ∨ c = n2c n - 0x20#8 := by
  refine ⟨BitVec.ofNat 4 (nibbleOf c), hc.symm.imp (fun hlow => ?_) (fun hup => ?_)⟩
  · apply BitVec.eq_of_toNat_eq
    simp only [n2c_eq, nibbleOf, if_pos hlow.1, BitVec.toNat_sub, BitVec.truncate_eq_setWidth, BitVec.toNat_setWidth,
      BitVec.toNat_ofNat]
    omega
  · apply BitVec.eq_of_toNat_eq
    simp only [n2c_eq, nibbleOf, if_neg (show ¬ 0x6B ≤ c.toNat by omega), BitVec.toNat_sub,
      BitVec.truncate_eq_setWidth, BitVec.toNat_setWidth, BitVec.toNat_ofNat]
    omega

/-! ## A pair at the head of a decode (R140, R144) -/

variable {Token : Type} {p q : Byte}

theorem dec_pair_valid (hp : validChar P p = true) (hq : validChar P q = true) (rest : Bytes) :
    dec P (p :: q :: rest) Token =
      (packByte (c2n P p) (c2n P q) :: (dec P rest Token).1, (dec P rest Token).2) := by
  rw [dec, if_pos hp, if_pos hq]

theorem dec_pair_low_invalid (hp : validChar P p = true) (hq : ¬ validChar P q = true) (rest : Bytes) :
    dec P (p :: q :: rest) Token = ([], .invalidByte q) := by
  rw [dec, if_pos hp, if_neg hq]

theorem dec_pair_high_invalid (hp : ¬ validChar P p = true) (q : Byte) (rest : Bytes) :
    dec P (p :: q :: rest) Token = ([], .invalidByte p) := by
  rw [dec, if_neg hp]

/-! ## Case (40_lookup_engines.md R102) -/

/-- The two cases of an alphabet letter have one entry. -/
theorem c2n_sameUpToCase {c d : Byte} (h : sameUpToCase c d) : c2n P c = c2n P d := by
  rcases h with rfl | ⟨hc, hd, hcase⟩
  · rfl
  · have hn : nibbleOf c = nibbleOf d := by simp only [nibbleOf]; split <;> split <;> omega
    rw [c2n_of_isAlphabet hc, c2n_of_isAlphabet hd, hn]

theorem validChar_sameUpToCase {c d : Byte} (h : sameUpToCase c d) : validChar P c = validChar P d := by
  rw [validChar, validChar, c2n_sameUpToCase h]

/-- A byte that is no valid character has no other case. -/
theorem sameUpToCase_of_invalid (hinv : 15 < P.invalid.toNat) {c d : Byte} (h : sameUpToCase c d)
    (hc : ¬ validChar P c = true) : c = d :=
  h.resolve_right fun ⟨hal, _⟩ => hc ((validChar_iff hinv c).mpr hal)

/-- The decode of a text depends on no letter's case: valid characters have equal entries, and the character an error
names has no other case. -/
theorem dec_sameUpToCase (hinv : 15 < P.invalid.toNat) {src src' : Bytes}
    (h : List.Forall₂ sameUpToCase src src') : dec P src Token = dec P src' Token := by
  induction src using dec.induct (P := P) (Token := Token) generalizing src' with
  | case1 => cases h; rfl
  | case2 c hc =>
    obtain _ | ⟨hcd, _ | _⟩ := h
    rw [dec, dec, ← validChar_sameUpToCase hcd, if_pos hc, if_pos hc]
  | case3 c hc =>
    obtain _ | ⟨hcd, _ | _⟩ := h
    rw [sameUpToCase_of_invalid hinv hcd hc]
  | case4 p q rest hp hq ih =>
    obtain _ | ⟨hpp, _ | ⟨hqq, hrest⟩⟩ := h
    rw [dec_pair_valid hp hq, dec_pair_valid (validChar_sameUpToCase hpp ▸ hp) (validChar_sameUpToCase hqq ▸ hq),
      c2n_sameUpToCase hpp, c2n_sameUpToCase hqq, ih hrest]
  | case5 p q rest hp hq =>
    obtain _ | ⟨hpp, _ | ⟨hqq, hrest⟩⟩ := h
    obtain rfl := sameUpToCase_of_invalid hinv hqq hq
    rw [dec_pair_low_invalid hp hq, dec_pair_low_invalid (validChar_sameUpToCase hpp ▸ hp) hq]
  | case6 p q rest hp =>
    obtain _ | ⟨hpp, _ | ⟨hqq, hrest⟩⟩ := h
    obtain rfl := sameUpToCase_of_invalid hinv hpp hp
    rw [dec_pair_high_invalid hp, dec_pair_high_invalid hp]

/-! ## The sentinel (R23, 93_implementation_defined.md I3) -/

/-- The valid characters are the alphabet at any two sentinels above 15. -/
theorem validChar_sentinel {v : Byte} (hP : 15 < P.invalid.toNat) (hv : 15 < v.toNat) (c : Byte) :
    validChar P c = validChar { P with invalid := v } c := by
  rw [Bool.eq_iff_iff, validChar_iff hP, validChar_iff (P := { P with invalid := v }) hv]

/-- A valid character's entry is not the sentinel. -/
theorem c2n_sentinel (hP : 15 < P.invalid.toNat) (v : Byte) {c : Byte} (hc : validChar P c = true) :
    c2n P c = c2n { P with invalid := v } c := by
  have hal := (validChar_iff hP c).mp hc
  rw [c2n_of_isAlphabet hal, c2n_of_isAlphabet hal]

/-- The encoder's loop takes ENC_CHUNK from the parameters and nothing else. -/
theorem encLoop_sentinel [DecidableEq Token] (v : Byte) (fuel n : Nat) (p : Bytes) (E : EncSlot Token)
    (s : State Token) : encLoop P fuel n p E s = encLoop { P with invalid := v } fuel n p E s := by
  induction fuel generalizing n p E s with
  | zero => rfl
  | succ fuel ih => simp only [encLoop, Params.encChunk, ih]

variable {v : Byte} (hP : 15 < P.invalid.toNat) (hv : 15 < v.toNat)

include hP hv

/-- A decode shows no sentinel: it packs the entries of valid characters only. -/
theorem dec_sentinel (src : Bytes) : dec P src Token = dec { P with invalid := v } src Token := by
  have hvalid := validChar_sentinel hP hv
  induction src using dec.induct (P := P) (Token := Token) with
  | case1 => rfl
  | case2 c hc => rw [dec, dec, hvalid]
  | case3 c hc => rw [dec, dec, hvalid]
  | case4 p q rest hp hq ih =>
    rw [dec_pair_valid hp hq, dec_pair_valid (hvalid p ▸ hp) (hvalid q ▸ hq), c2n_sentinel hP v hp,
      c2n_sentinel hP v hq, ih]
  | case5 p q rest hp hq => rw [dec_pair_low_invalid hp hq, dec_pair_low_invalid (hvalid p ▸ hp) (hvalid q ▸ hq)]
  | case6 p q rest hp => rw [dec_pair_high_invalid hp, dec_pair_high_invalid (hvalid p ▸ hp)]

variable [DecidableEq Token]

/-- FILLING looks at the validity of a character alone (R203). -/
theorem fillStep_sentinel (D : DecSlot Token) (a : SourceAnswer Token) :
    fillStep P D a = fillStep { P with invalid := v } D a := by
  simp only [fillStep, fillFault, validChar_sentinel hP hv]

theorem decodeStep_sentinel (D : DecSlot Token) (n : Nat) :
    decodeStep P D n = decodeStep { P with invalid := v } D n := by
  simp only [decodeStep, dec_sentinel hP hv]

theorem decTransaction_sentinel (h n : Nat) (D : DecSlot Token) (s : State Token) :
    decTransaction P h n D s = decTransaction { P with invalid := v } h n D s := by
  simp only [decTransaction, fillStep_sentinel hP hv, decodeStep_sentinel hP hv]

/-- Every command but C2N runs alike at any two sentinels above 15. -/
theorem execWith_sentinel {i : Instr} (hi : ∀ c, i ≠ .c2n c) (s : State Token) :
    execWith P i s = execWith { P with invalid := v } i s := by
  cases i with
  | c2n c => exact absurd rfl (hi c)
  | decode dst src => simp only [execWith, decodeWith, dec_sentinel hP hv]
  | appendDecode buf src => simp only [execWith, appendDecodeWith, dec_sentinel hP hv]
  | decodeText src => simp only [execWith, decodeTextWith, dec_sentinel hP hv]
  | encWrite h p => simp only [execWith, encWriteWith, encTransaction, encLoop_sentinel v]
  | decRead h n => simp only [execWith, decReadWith, decTransaction_sentinel hP hv]
  | _ => rfl

end

/-! ## Unspecified contents (R29, R31, R37, R38): what alike states have in common -/

section

/-- Lists related entry by entry stay so when related values are put at one index. -/
theorem forall₂_set {α β : Type} {R : α → β → Prop} {l : List α} {m : List β} {a : α} {b : β}
    (hl : List.Forall₂ R l m) (hab : R a b) (h : Nat) : List.Forall₂ R (l.set h a) (m.set h b) := by
  induction hl generalizing h with
  | nil => exact .nil
  | cons hx hrest ih =>
    cases h with
    | zero => exact .cons hab hrest
    | succ h => exact .cons hx (ih h)

variable {Token : Type} {s s' : State Token}

theorem State.alike.respond (hs : s.alike s') (r : Response Token) : (s.respond r).alike (s'.respond r) := by
  obtain ⟨he, hd, hmf, hcmds, hresp, hsink, hsource, hcalls⟩ := hs
  exact ⟨he, hd, hmf, congrArg List.tail hcmds, congrArg (· ++ [r]) hresp, hsink, hsource, hcalls⟩

theorem State.alike.raiseFault (hs : s.alike s') (m : ModelFault) : (s.raiseFault m).alike (s'.raiseFault m) := by
  obtain ⟨he, hd, hmf, hcmds, hrest⟩ := hs
  exact ⟨he, hd, congrArg (· ++ [m]) hmf, congrArg List.tail hcmds, hrest⟩

/-- The count of draws is the model's own: nothing shows it. -/
theorem State.alike.drew (hs : s.alike s') : s.drew.alike s'.drew := hs

theorem State.alike.putEnc (hs : s.alike s') (h : Nat) {E F : EncSlot Token} (hEF : E.alike F) :
    (s.putEnc h E).alike (s'.putEnc h F) := by
  obtain ⟨he, hrest⟩ := hs
  exact ⟨forall₂_set he hEF h, hrest⟩

theorem State.alike.putDec (hs : s.alike s') (h : Nat) {D G : DecSlot Token} (hDG : D.alike G) :
    (s.putDec h D).alike (s'.putDec h G) := by
  obtain ⟨he, hd, hrest⟩ := hs
  exact ⟨he, forall₂_set hd hDG h, hrest⟩

end

/-! ## Transactions and outcomes that are alike -/

section

/-- Two transactions come to the same end, with values related by `R` where they are done. -/
inductive Txn.Alike {α β : Type} (R : α → β → Prop) : Txn α → Txn β → Prop where
  | done {a : α} {b : β} (h : R a b) : Txn.Alike R (.done a) (.done b)
  | waits : Txn.Alike R .waits .waits
  | fault (e : Fault) : Txn.Alike R (.fault e) (.fault e)
  | refuse (r : Refusal) : Txn.Alike R (.refuse r) (.refuse r)

/-- Sequences are alike when their first parts are and related values make their second parts alike. -/
theorem Txn.Alike.andThen {α β γ δ : Type} {R : α → β → Prop} {S : γ → δ → Prop} {x : Txn α} {y : Txn β}
    {f : α → Txn γ} {g : β → Txn δ} (hxy : Txn.Alike R x y) (hfg : ∀ a b, R a b → Txn.Alike S (f a) (g b)) :
    Txn.Alike S (x.andThen f) (y.andThen g) := by
  cases hxy with
  | done h => exact hfg _ _ h
  | waits => exact .waits
  | fault e => exact .fault e
  | refuse r => exact .refuse r

variable {Token : Type}

/-- Two outcomes are of one kind, with alike next states or the same reason. -/
inductive OutcomeAlike : Host.Outcome (State Token) Fault Refusal → Host.Outcome (State Token) Fault Refusal → Prop where
  | next {t t' : State Token} (h : t.alike t') : OutcomeAlike (.next t) (.next t')
  | fault (f : Fault) : OutcomeAlike (.fault f) (.fault f)
  | refused (r : Refusal) : OutcomeAlike (.refused r) (.refused r)

/-- An outcome alike to a next state is a next state alike to it. -/
theorem OutcomeAlike.of_next {t : State Token} {o : Host.Outcome (State Token) Fault Refusal}
    (h : OutcomeAlike (.next t) o) : ∃ t', o = .next t' ∧ t.alike t' := by
  cases h with
  | next ht => exact ⟨_, rfl, ht⟩

/-- Alike transactions begun in alike states conclude alike. -/
theorem Txn.Alike.conclude {s s' : State Token} {x y : Txn (State Token)} (hs : s.alike s')
    (hxy : Txn.Alike State.alike x y) : OutcomeAlike (conclude s x) (conclude s' y) := by
  cases hxy with
  | done h => exact .next h
  | waits => exact .next hs
  | fault e => exact .fault e
  | refuse r => exact .refused r

end

/-! ## Alike states run alike -/

section

variable {Token : Type} {P : Params} {s s' : State Token}

/-- A Sink call in alike states gets the same answer, within its contract. -/
theorem sinkWrite_alike (hs : s.alike s') (k : SinkId) (v : Bytes) :
    Txn.Alike (fun x y => x.1 = y.1 ∧ x.2.alike y.2) (sinkWrite k v s) (sinkWrite k v s') := by
  obtain ⟨he, hd, hmf, hcmds, hresp, hsink, hsource, hcalls⟩ := hs
  unfold sinkWrite
  rw [← hsink, ← hcalls]
  cases popAnswer k s.sinkAnswers with
  | none => exact .waits
  | some x =>
    simp only
    split
    · exact .done ⟨rfl, he, hd, hmf, hcmds, hresp, rfl, hsource, rfl⟩
    · exact .refuse _

/-- A Source call in alike states gets the same answer, within its contract. -/
theorem sourceRead_alike (hs : s.alike s') (k : SourceId) (r : Nat) :
    Txn.Alike (fun x y => x.1 = y.1 ∧ x.1.v.length ≤ r ∧ x.2.alike y.2) (sourceRead k r s) (sourceRead k r s') := by
  obtain ⟨he, hd, hmf, hcmds, hresp, hsink, hsource, hcalls⟩ := hs
  unfold sourceRead
  rw [← hsource, ← hcalls]
  cases popAnswer k s.sourceAnswers with
  | none => exact .waits
  | some x =>
    simp only
    split
    · next hle => exact .done ⟨rfl, hle, he, hd, hmf, hcmds, hresp, hsink, rfl, rfl⟩
    · exact .refuse _

variable [DecidableEq Token]

/-- What the loop of ENC_WRITE gives in alike states: the same progress, alike constructed encoders, alike states. -/
abbrev LoopAlike (x y : Nat × EncSlot Token × State Token) : Prop :=
  x.1 = y.1 ∧ x.2.1.alloc = true ∧ x.2.1.alike y.2.1 ∧ x.2.2.alike y.2.2

/-- The loop of ENC_WRITE on alike encoders: each pass overwrites the part of the scratch buffer it hands to the Sink
(R29). -/
theorem encLoop_alike (fuel n : Nat) (p : Bytes) {E F : EncSlot Token} (hs : s.alike s') (hEF : E.alike F)
    (ha : E.alloc = true) (hE : E.out.length = P.encCap) (hF : F.out.length = P.encCap) :
    Txn.Alike LoopAlike (encLoop P fuel n p E s) (encLoop P fuel n p F s') := by
  induction fuel generalizing n p E F s s' with
  | zero => exact .done ⟨rfl, ha, hEF, hs⟩
  | succ fuel ih =>
    have ⟨halloc, hseen⟩ := hEF
    obtain ⟨hsink, hfault⟩ := hseen ha
    by_cases hstop : p = [] ∨ E.fault ≠ .none
    · rw [encLoop_stop P _ n p E s hstop, encLoop_stop P _ n p F s' (hfault ▸ hstop)]
      exact .done ⟨rfl, ha, hEF, hs⟩
    · obtain ⟨hp, hf⟩ := not_or.mp hstop
      have hf := not_not.mp hf
      have hc : 2 * min p.length P.encChunk ≤ P.encCap := by simp only [Params.encChunk]; omega
      have hlen : ∀ B : Bytes, B.length = P.encCap → (enc (p.take (min p.length P.encChunk)) ++
          B.drop (2 * min p.length P.encChunk)).length = P.encCap := by
        intro B hB
        simp only [List.length_append, enc_length, List.length_take, List.length_drop]; omega
      rw [encLoop_succ_eq P fuel n p E s (List.length_pos_iff.mpr hp) hf hE,
        encLoop_succ_eq P fuel n p F s' (List.length_pos_iff.mpr hp) (hfault ▸ hf) hF, ← hsink, ← hfault]
      refine (sinkWrite_alike hs E.sink _).andThen ?_
      rintro ⟨a, t⟩ ⟨_, t'⟩ ⟨rfl, ht⟩
      exact ih _ _ ht ⟨halloc, fun _ => ⟨rfl, rfl⟩⟩ ha (hlen _ hE) (hlen _ hF)

theorem encTransaction_alike (h : Nat) (p : Bytes) {E F : EncSlot Token} (hs : s.alike s') (hEF : E.alike F)
    (ha : E.alloc = true) (hE : E.Wf P) (hF : F.Wf P) :
    Txn.Alike State.alike (encTransaction P h p E s) (encTransaction P h p F s') := by
  refine (encLoop_alike p.length 0 p hs hEF ha hE.1 hF.1).andThen ?_
  rintro ⟨n, E', t⟩ ⟨_, F', t'⟩ ⟨rfl, ha', hEF', ht⟩
  have hfault : E'.fault = F'.fault := (hEF'.2 ha').2
  exact .done (hfault ▸ (ht.putEnc h hEF').respond ⟨n, [], E'.fault⟩)

omit [DecidableEq Token] in
/-- Alike decoders after the same answer of their Source: the leftover byte goes to the front of both buffers (R202). -/
theorem DecSlot.alike.filled {D G : DecSlot Token} (hDG : D.alike G) (ha : D.alloc = true) (a : SourceAnswer Token) :
    (D.filled a).alike (G.filled a) := by
  obtain ⟨halloc, hseen⟩ := hDG
  obtain ⟨hsource, -, -, hpend⟩ := hseen ha
  refine ⟨halloc, fun _ => ⟨hsource, ?_, ?_, ?_⟩⟩
  · simp only [DecSlot.filled, hpend]
  · simp only [DecSlot.filled, hpend]
  · rw [DecSlot.filled_pending, DecSlot.filled_pending, hpend]

omit [DecidableEq Token] in
/-- The pending view of a decoder whose view has moved past `k` of its bytes (R205). -/
theorem DecSlot.pending_advance (D : DecSlot Token) (k : Nat) :
    ({ D with off := D.off + k, len := D.len - k } : DecSlot Token).pending = D.pending.drop k := by
  simp only [DecSlot.pending, List.drop_take, List.drop_drop]

omit [DecidableEq Token] in
/-- Alike decoders surface the same fault (R207). -/
theorem DecSlot.alike.surfaced {D G : DecSlot Token} (hDG : D.alike G) (ha : D.alloc = true) :
    surfaced D = surfaced G := by
  obtain ⟨-, hfault, hlen, -⟩ := hDG.2 ha
  simp only [Machine.surfaced, hlen, hfault]

/-- DECODING alike decoders gives the same bytes and alike decoders: it reads the pending view alone (R204-R206). -/
theorem decodeStep_alike (n : Nat) {D G : DecSlot Token} (hDG : D.alike G) (ha : D.alloc = true) (hD : D.Wf P)
    (hG : G.Wf P) :
    Txn.Alike (fun x y => x.1.alloc = true ∧ x.1.alike y.1 ∧ x.2 = y.2) (decodeStep P D n) (decodeStep P G n) := by
  obtain ⟨halloc, hseen⟩ := hDG
  obtain ⟨hsource, hfault, hlen, hpend⟩ := hseen ha
  rw [decodeStep_eq n hD, decodeStep_eq n hG, ← hpend, ← hlen]
  split
  · refine .done ⟨ha, ⟨halloc, fun _ => ⟨hsource, hfault, rfl, ?_⟩⟩, rfl⟩
    rw [DecSlot.pending_advance, hlen, DecSlot.pending_advance, hpend]
  · exact .done ⟨ha, ⟨halloc, fun _ => ⟨hsource, rfl, rfl, rfl⟩⟩, rfl⟩

/-- What DEC_READ does after the fill: DECODING, the record put back, and the response (R204-R207). -/
theorem decodeAndRespond_alike (h n : Nat) {D G : DecSlot Token} (hs : s.alike s') (hDG : D.alike G)
    (ha : D.alloc = true) (hD : D.Wf P) (hG : G.Wf P) :
    Txn.Alike State.alike
      ((decodeStep P D n).andThen fun (D', out) => .done ((s.putDec h D').respond ⟨out.length, out, surfaced D'⟩))
      ((decodeStep P G n).andThen fun (G', out) => .done ((s'.putDec h G').respond ⟨out.length, out, surfaced G'⟩)) := by
  refine (decodeStep_alike n hDG ha hD hG).andThen ?_
  rintro ⟨D', out⟩ ⟨G', _⟩ ⟨ha', hDG', rfl⟩
  exact .done (hDG'.surfaced ha' ▸ (hs.putDec h hDG').respond ⟨out.length, out, surfaced D'⟩)

theorem decTransaction_alike (hP : P.Valid) (h n : Nat) {D G : DecSlot Token} (hs : s.alike s') (hDG : D.alike G)
    (ha : D.alloc = true) (hD : D.Wf P) (hG : G.Wf P) :
    Txn.Alike State.alike (decTransaction P h n D s) (decTransaction P h n G s') := by
  obtain ⟨hsource, hfault, hlen, -⟩ := hDG.2 ha
  rw [decTransaction_eq, decTransaction_eq, ← hsource, ← hfault, ← hlen]
  split
  · next hstarved =>
    obtain ⟨hlt, hf⟩ := hstarved
    refine (sourceRead_alike hs D.source _).andThen ?_
    rintro ⟨a, t⟩ ⟨_, t'⟩ ⟨rfl, hle, ht⟩
    have hltG : G.len < 2 := hlen ▸ hlt
    have hfG : G.fault = .none := hfault ▸ hf
    have hleG : a.v.length ≤ P.decCap - G.len := hlen ▸ hle
    simp only [fillStep_filled hP hD hf hlt hle, fillStep_filled hP hG hfG hltG hleG, Txn.done_andThen]
    exact decodeAndRespond_alike h n ht (hDG.filled ha a) ha (DecSlot.filled_wf hP hD hf hlt hle)
      (DecSlot.filled_wf hP hG hfG hltG hleG)
  · exact decodeAndRespond_alike h n hs hDG ha hD hG

omit [DecidableEq Token] in
/-- Fresh encoders differ in the scratch buffer alone (R38). -/
theorem freshEnc_alike (P : Params) (k : SinkId) (d d' : Nat) :
    EncSlot.alike (Token := Token) (freshEnc P k d) (freshEnc P k d') := ⟨rfl, fun _ => ⟨rfl, rfl⟩⟩

omit [DecidableEq Token] in
/-- Fresh decoders differ in the buffer alone, none of which is pending (R38, R200). -/
theorem freshDec_alike (P : Params) (k : SourceId) (d d' : Nat) :
    DecSlot.alike (Token := Token) (freshDec P k d) (freshDec P k d') := ⟨rfl, fun _ => ⟨rfl, rfl, rfl, rfl⟩⟩

omit [DecidableEq Token] in
/-- ENC_NEW in alike states: BAD_HANDLE in both, or a fresh encoder in the slot of both. -/
theorem encNewWith_alike (h : Nat) (k : SinkId) (hs : s.alike s') :
    OutcomeAlike (encNewWith P h k s) (encNewWith P h k s') := by
  have hlen : s.enc.length = s'.enc.length := hs.1.length_eq
  unfold encNewWith
  rw [← hlen]
  split
  · exact .next (hs.raiseFault _)
  · split
    · exact .fault _
    · exact .next ((hs.drew.putEnc h (freshEnc_alike P k _ _)).respond _)

omit [DecidableEq Token] in
/-- DEC_NEW in alike states, likewise. -/
theorem decNewWith_alike (h : Nat) (k : SourceId) (hs : s.alike s') :
    OutcomeAlike (decNewWith P h k s) (decNewWith P h k s') := by
  have hlen : s.dec.length = s'.dec.length := hs.2.1.length_eq
  unfold decNewWith
  rw [← hlen]
  split
  · exact .next (hs.raiseFault _)
  · split
    · exact .fault _
    · exact .next ((hs.drew.putDec h (freshDec_alike P k _ _)).respond _)

/-- ENC_WRITE in alike states: BAD_HANDLE in both, or the transaction on alike encoders. -/
theorem encWriteWith_alike (h : Nat) (p : Bytes) (hs : s.alike s') (hi : s.Inv P) (hi' : s'.Inv P) :
    OutcomeAlike (encWriteWith P h p s) (encWriteWith P h p s') := by
  unfold encWriteWith
  split
  · exact .next (hs.raiseFault _)
  · next hh =>
    have hl : h < s.enc.length := by rw [hi.1]; omega
    have hl' : h < s'.enc.length := by rw [hi'.1]; omega
    have hE := List.getElem?_eq_getElem hl
    have hF := List.getElem?_eq_getElem hl'
    have hEF : s.enc[h].alike s'.enc[h] := hs.1.get hl hl'
    simp only [hE, hF, ← hEF.1]
    split
    · next ha => exact (encTransaction_alike h p hs hEF ha (inv_enc_wf hi hE) (inv_enc_wf hi' hF)).conclude hs
    · exact .next (hs.raiseFault _)

/-- DEC_READ in alike states: BAD_HANDLE in both, or the transaction on alike decoders. -/
theorem decReadWith_alike (hP : P.Valid) (h n : Nat) (hs : s.alike s') (hi : s.Inv P) (hi' : s'.Inv P) :
    OutcomeAlike (decReadWith P h n s) (decReadWith P h n s') := by
  unfold decReadWith
  split
  · exact .next (hs.raiseFault _)
  · next hh =>
    have hl : h < s.dec.length := by rw [hi.2.1]; omega
    have hl' : h < s'.dec.length := by rw [hi'.2.1]; omega
    have hD := List.getElem?_eq_getElem hl
    have hG := List.getElem?_eq_getElem hl'
    have hDG : s.dec[h].alike s'.dec[h] := hs.2.1.get hl hl'
    simp only [hD, hG, ← hDG.1]
    split
    · next ha => exact (decTransaction_alike hP h n hs hDG ha (inv_dec_wf hi hD) (inv_dec_wf hi' hG)).conclude hs
    · exact .next (hs.raiseFault _)

/-- Every command runs alike in alike well-formed states, at any valid parameters. -/
theorem execWith_alike (hP : P.Valid) (i : Instr) (hs : s.alike s') (hi : s.Inv P) (hi' : s'.Inv P) :
    OutcomeAlike (execWith P i s) (execWith P i s') := by
  cases i with
  | encode dst src =>
    simp only [execWith, encodeWith]
    split
    · exact .next (hs.raiseFault _)
    · exact .next (hs.respond _)
  | decode dst src =>
    simp only [execWith, decodeWith]
    split
    · exact .next (hs.raiseFault _)
    · exact .next (hs.respond _)
  | encNew h k => exact encNewWith_alike h k hs
  | encWrite h p => exact encWriteWith_alike h p hs hi hi'
  | decNew h k => exact decNewWith_alike h k hs
  | decRead h n => exact decReadWith_alike hP h n hs hi hi'
  | _ => exact .next (hs.respond _)

end

end Sys2Proof.Machine

/-! ## The statements -/

namespace Sys2Proof.Machine

/-- Settles O13: `step` is the machine at the defaults, which are valid, and every step of it keeps the invariant. -/
theorem stepKeepsTheInvariant : Obligations.StepKeepsTheInvariant := by
  intro s t hs h
  rw [step_default] at h
  exact stepWith_keeps_inv (by decide) hs h

/-- Settles O19, by the simulation `execWith_alike` at the defaults. -/
theorem unspecifiedContentsAreUnobservable : Obligations.UnspecifiedContentsAreUnobservable := by
  intro i s s' t hi hi' hs h
  rw [exec_default] at h ⊢
  exact (h ▸ execWith_alike (by decide) i hs hi hi').of_next

/-- Settles O23: the two cases of a letter have one entry, and a character that an error names has no other case. -/
theorem caseOfAnAlphabetLetterNeverMatters : Obligations.CaseOfAnAlphabetLetterNeverMatters := by
  intro P hP
  obtain ⟨-, -, -, hinv, -⟩ := hP
  refine ⟨fun n => ⟨c2n_n2c P n, c2n_n2c_upper P n⟩, fun src src' h => dec_sameUpToCase hinv h, ?_⟩
  intro c hlo hhi hc
  have hupper : ¬ isAlphabet (c - 0x20#8) := by
    simp only [isAlphabet, BitVec.toNat_sub, BitVec.toNat_ofNat] at hc ⊢; omega
  have hinvalid : ∀ d : Byte, ¬ isAlphabet d → ¬ validChar P d = true := fun d => mt (validChar_iff hinv d).mp
  exact ⟨Bool.eq_false_of_not_eq_true (hinvalid c hc), Bool.eq_false_of_not_eq_true (hinvalid _ hupper),
    fun q rest => ⟨dec_pair_high_invalid (hinvalid c hc) q rest, dec_pair_high_invalid (hinvalid _ hupper) q rest⟩⟩

/-- Settles O24: no command but C2N packs, compares or returns an entry that is the sentinel. -/
theorem sentinelShowsOnlyInC2n : Obligations.SentinelShowsOnlyInC2n := by
  intro Token _ P v hP hv
  obtain ⟨-, -, -, hinv, -⟩ := hP
  exact ⟨validChar_sentinel hinv hv, fun i s hi => execWith_sentinel hinv hv hi s⟩

/-- Settles O11. -/
theorem resetIsPowerOn : Obligations.ResetIsPowerOn := by
  refine ⟨rfl, List.length_replicate, List.length_replicate, fun E hE => ?_, fun D hD => ?_, n2c_eq,
    c2n_eq Config.params⟩
  · rw [List.eq_of_mem_replicate hE]; rfl
  · rw [List.eq_of_mem_replicate hD]; rfl

/-- Settles O12, by the invariant of the power-on state at any parameters. -/
theorem resetMeetsTheInvariant : Obligations.ResetMeetsTheInvariant := powerOn_inv Config.params

/-- Settles O22: C2N gives the nibble of both cases back, and the bytes with another entry than the sentinel are the
alphabet's. -/
theorem tablesInvertEachOther : Obligations.TablesInvertEachOther := by
  intro P _
  refine ⟨fun n => ⟨c2n_n2c P n, c2n_n2c_upper P n⟩, fun m n => n2c_injective, fun c hc => ?_⟩
  refine c2n_of_not_isAlphabet fun hal => ?_
  obtain ⟨n, hn⟩ := eq_n2c_of_isAlphabet hal
  exact not_or.mpr (hc n) hn

end Sys2Proof.Machine

/-! The statements of 20_memory.md: one-shot commands are pure, and a streaming command is confined to its slot. -/

namespace Sys2Proof.Machine

/-! ## One-shot commands (R61) -/

/-- A one-shot command returns one response or raises one model fault, whatever the state it is run on. -/
theorem execWith_oneShot {Token : Type} [DecidableEq Token] (P : Params) {i : Instr} (hi : oneShot i = true) :
    (∃ r, ∀ s : State Token, execWith P i s = .next (s.respond r)) ∨
      ∃ m, ∀ s : State Token, execWith P i s = .next (s.raiseFault m) := by
  cases i with
  | encode dst src =>
    by_cases hd : dst.length < 2 * src.length
    · exact .inr ⟨_, fun s => if_pos hd⟩
    · exact .inl ⟨_, fun s => if_neg hd⟩
  | decode dst src =>
    by_cases hd : dst.length < src.length / 2
    · exact .inr ⟨_, fun s => if_pos hd⟩
    · exact .inl ⟨_, fun s => if_neg hd⟩
  | encNew | encWrite | decNew | decRead => cases hi
  | _ => exact .inl ⟨_, fun s => rfl⟩

/-! ## Streaming commands (R61, R257) -/

section

variable {Token : Type} [DecidableEq Token] {P : Params} {i : Instr} {s t : State Token}

/-- An encoder command on slot `h` leaves every decoder, the Sources' answers and every encoder but `h`. -/
theorem Effect.encoder_frame {h : Nat} (he : Effect P s i t)
    (hi : (∃ k, i = .encNew h k) ∨ (∃ p, i = .encWrite h p)) :
    t.dec = s.dec ∧ t.sourceAnswers = s.sourceAnswers ∧ ∀ j, j ≠ h → t.enc[j]? = s.enc[j]? := by
  rcases hi with ⟨k, rfl⟩ | ⟨p, rfl⟩
  · cases he with
    | responds _ _ hone => cases hone
    | faults => exact ⟨rfl, rfl, fun _ _ => rfl⟩
    | encNew => exact ⟨rfl, rfl, fun j hj => List.getElem?_set_ne hj.symm⟩
  · cases he with
    | responds _ _ hone => cases hone
    | faults => exact ⟨rfl, rfl, fun _ _ => rfl⟩
    | encWaits => exact ⟨rfl, rfl, fun _ _ => rfl⟩
    | encWrite _ _ E n E' u hh hE ha hloop =>
      rw [encLoop_frame hloop]
      exact ⟨rfl, rfl, fun j hj => List.getElem?_set_ne hj.symm⟩

/-- A decoder command on slot `h` leaves every encoder, the Sinks' answers and every decoder but `h`. -/
theorem Effect.decoder_frame {h : Nat} (he : Effect P s i t)
    (hi : (∃ k, i = .decNew h k) ∨ (∃ n, i = .decRead h n)) :
    t.enc = s.enc ∧ t.sinkAnswers = s.sinkAnswers ∧ ∀ j, j ≠ h → t.dec[j]? = s.dec[j]? := by
  rcases hi with ⟨k, rfl⟩ | ⟨n, rfl⟩
  · cases he with
    | responds _ _ hone => cases hone
    | faults => exact ⟨rfl, rfl, fun _ _ => rfl⟩
    | decNew => exact ⟨rfl, rfl, fun j hj => List.getElem?_set_ne hj.symm⟩
  · cases he with
    | responds _ _ hone => cases hone
    | faults => exact ⟨rfl, rfl, fun _ _ => rfl⟩
    | decWaits => exact ⟨rfl, rfl, fun _ _ => rfl⟩
    | decRead _ _ D _ hh hD ha htx =>
      obtain ⟨D', r, ht⟩ := decTransaction_frame htx
      rw [ht]
      exact ⟨rfl, rfl, fun j hj => List.getElem?_set_ne hj.symm⟩

/-- Only ENC_WRITE takes a Sink's answer: every other effect keeps the list as it is. -/
theorem Effect.sinkAnswers_taken (he : Effect P s i t) (hne : t.sinkAnswers ≠ s.sinkAnswers) :
    ∃ h p, i = .encWrite h p := by
  cases he with
  | encWrite h p => exact ⟨h, p, rfl⟩
  | decRead h n D _ hh hD ha htx =>
    obtain ⟨-, hsink, -⟩ := (Effect.decRead h n D t hh hD ha htx).decoder_frame (.inr ⟨n, rfl⟩)
    exact absurd hsink hne
  | _ => exact absurd rfl hne

/-- Only DEC_READ takes a Source's answer. -/
theorem Effect.sourceAnswers_taken (he : Effect P s i t) (hne : t.sourceAnswers ≠ s.sourceAnswers) :
    ∃ h n, i = .decRead h n := by
  cases he with
  | decRead h n => exact ⟨h, n, rfl⟩
  | encWrite h p E n E' u hh hE ha hloop =>
    obtain ⟨-, hsource, -⟩ := (Effect.encWrite h p E n E' u hh hE ha hloop).encoder_frame (.inr ⟨p, rfl⟩)
    exact absurd hsource hne
  | _ => exact absurd rfl hne

end

end Sys2Proof.Machine

/-! ## The statements -/

namespace Sys2Proof.Machine

/-- Settles O18, by the frame of each effect: a slot file is written at the command's handle only. -/
theorem slotsAreIndependent : Obligations.SlotsAreIndependent := by
  intro i s t h
  rw [exec_default] at h
  have he := execWith_effect h
  exact ⟨fun _ => he.encoder_frame, fun _ => he.decoder_frame, he.sinkAnswers_taken, he.sourceAnswers_taken⟩

/-- Settles O17: the response or the model fault of `execWith_oneShot` is chosen before the state. -/
theorem oneShotCommandsArePure : Obligations.OneShotCommandsArePure := by
  intro i hi
  rcases execWith_oneShot (Token := IoToken) Config.params hi with ⟨r, hr⟩ | ⟨m, hm⟩
  · refine ⟨[r], [], rfl, fun s => ?_⟩
    rw [exec_default, hr, List.append_nil]
    rfl
  · refine ⟨[], [m], rfl, fun s => ?_⟩
    rw [exec_default, hm, List.append_nil]
    rfl

end Sys2Proof.Machine

/-! The statements of 30_encoding.md: command words, their decoding, the assembler text, and re-encoding. -/

namespace Sys2Proof

/-! ## The fields of a word (R74) -/

/-- A word is its two fields. -/
theorem cmdWord_ext {v w : CmdWord} (hop : cmdOp v = cmdOp w) (hh : cmdHandle v = cmdHandle w) : v = w := by
  have hop := congrArg BitVec.toNat hop
  have hh := congrArg BitVec.toNat hh
  rw [cmdOp_toNat, cmdOp_toNat] at hop
  rw [cmdHandle_toNat, cmdHandle_toNat] at hh
  apply BitVec.eq_of_toNat_eq
  omega

open Laws.OpcodeByte (opcode handle) in
/-- Every command's word has the opcode and the handle of its row of R76: the family `OpcodeByte`, put together. -/
theorem encode_fields (i : Instr) : cmdOp (encode i).1 = opcode i ∧ cmdHandle (encode i).1 = handle i := by
  cases i <;> exact Laws.OpcodeByte.cmdWord_fields _ _

/-! ## Decoding (R79, R80) -/

/-- A row without a handle spells a command exactly when the handle byte is 0x00 (R79). -/
theorem noHandle_eq_ok {w : CmdWord} {i j : Instr} :
    noHandle w i = .ok j ↔ cmdHandle w = 0x00#8 ∧ i = j := by
  rw [noHandle]
  split <;> simp [*]

open Laws.OpcodeByte (opcode handle) in
/-- Decoding what `encode` wrote reads the row of the opcode, and every operand field from where it was put (R77). -/
theorem decode_encode {i : Instr} (hi : i.wf = true) : decode (encode i).1 (encode i).2 = .ok i := by
  obtain ⟨hop, hh⟩ := encode_fields i
  have hstream : ∀ h : Nat, decide (h < 256) = true → (BitVec.ofNat 8 h).toNat = h := fun h hlt =>
    Nat.mod_eq_of_lt (of_decide_eq_true hlt)
  unfold decode
  rw [hop]
  cases i with
  | encNew h | encWrite h | decNew h | decRead h =>
    rw [hh]
    simp only [opcode, handle, encode, hstream h hi]
    rfl
  | _ => exact noHandle_eq_ok.mpr ⟨hh, rfl⟩

open Laws.OpcodeByte (opcode handle) in
/-- A word that spells a command has the fields of that command's row (R76), and the handle fits its field (R82). -/
theorem decode_fields {w : CmdWord} {o : Operands} {i : Instr} (h : decode w o = .ok i) :
    i.wf = true ∧ cmdOp w = opcode i ∧ cmdHandle w = handle i := by
  unfold decode at h
  split at h
  case h_15 => cases h
  case h_11 _ hop | h_12 _ hop | h_13 _ hop | h_14 _ hop =>
    cases h
    refine ⟨decide_eq_true (cmdHandle w).isLt, BitVec.eq_of_toNat_eq hop, ?_⟩
    rw [handle, BitVec.ofNat_toNat, BitVec.setWidth_eq]
  all_goals
    rename_i hop
    obtain ⟨hh, rfl⟩ := noHandle_eq_ok.mp h
    exact ⟨rfl, BitVec.eq_of_toNat_eq hop, hh⟩

/-- The words that spell a command (R76, R79): an opcode without a handle under a zero handle byte, or a streaming
opcode under any. -/
abbrev LegalWord (w : Nat) : Prop :=
  (1 ≤ w % 256 ∧ w % 256 ≤ 0x0A ∧ w / 256 = 0) ∨ (0x0B ≤ w % 256 ∧ w % 256 ≤ 0x0E)

/-- Exactly the legal words spell a command. -/
theorem exists_decode_iff (w : CmdWord) (o : Operands) : (∃ i, decode w o = .ok i) ↔ LegalWord w.toNat := by
  have hop := cmdOp_toNat w
  have hrow : ∀ i : Instr, (∃ j, noHandle w i = .ok j) ↔ w.toNat / 256 = 0 := fun i => by
    rw [← cmdHandle_toNat]
    simp [noHandle_eq_ok, BitVec.toNat_eq]
  unfold decode
  split
  case h_11 | h_12 | h_13 | h_14 => exact iff_of_true ⟨_, rfl⟩ (by omega)
  case h_15 =>
    simp only [imp_false] at *
    exact iff_of_false nofun (by omega)
  all_goals rw [hrow]; omega

/-- A word that is not legal is an error (R79). -/
theorem exists_decode_error_iff (w : CmdWord) (o : Operands) :
    (∃ e, decode w o = .error e) ↔ ¬ LegalWord w.toNat := by
  rw [← exists_decode_iff w o]
  cases decode w o <;> simp

/-- The rows of R76 with a handle, whatever the handle byte. -/
theorem decode_streaming (w : CmdWord) (o : Operands) :
    (w.toNat % 256 = 0x0B → decode w o = .ok (.encNew (w.toNat / 256) o.sink)) ∧
    (w.toNat % 256 = 0x0C → decode w o = .ok (.encWrite (w.toNat / 256) o.p)) ∧
    (w.toNat % 256 = 0x0D → decode w o = .ok (.decNew (w.toNat / 256) o.source)) ∧
    (w.toNat % 256 = 0x0E → decode w o = .ok (.decRead (w.toNat / 256) o.n)) := by
  refine ⟨?_, ?_, ?_, ?_⟩ <;> intro hop <;> simp only [decode, cmdOp_toNat, hop, cmdHandle_toNat]

/-- The rows of R76 without one, under the handle byte 0x00. -/
theorem decode_of_handle_zero {w : CmdWord} (o : Operands) (hh : w.toNat / 256 = 0) :
    (w.toNat % 256 = 0x01 → decode w o = .ok (.n2c o.nib)) ∧
    (w.toNat % 256 = 0x02 → decode w o = .ok (.c2n o.chr)) ∧
    (w.toNat % 256 = 0x03 → decode w o = .ok (.encode o.dst o.src)) ∧
    (w.toNat % 256 = 0x04 → decode w o = .ok (.appendEncode o.buf o.src)) ∧
    (w.toNat % 256 = 0x05 → decode w o = .ok (.encodeToText o.src)) ∧
    (w.toNat % 256 = 0x06 → decode w o = .ok (.decode o.dst o.src)) ∧
    (w.toNat % 256 = 0x07 → decode w o = .ok (.appendDecode o.buf o.src)) ∧
    (w.toNat % 256 = 0x08 → decode w o = .ok (.decodeText o.src)) ∧
    (w.toNat % 256 = 0x09 → decode w o = .ok (.encLen o.n)) ∧
    (w.toNat % 256 = 0x0A → decode w o = .ok (.decLen o.n)) := by
  refine ⟨?_, ?_, ?_, ?_, ?_, ?_, ?_, ?_, ?_, ?_⟩ <;> intro hop <;>
    simp only [decode, cmdOp_toNat, hop, noHandle_zero hh]

/-! ## The count of R80 -/

/-- A predicate that below `n` holds on the interval from `a` to `b` holds `b + 1 - a` times there. -/
theorem count_of_interval {p : Nat → Prop} [DecidablePred p] {n a b : Nat} (hb : b < n)
    (hp : ∀ j < n, p j ↔ a ≤ j ∧ j ≤ b) : Nat.count p n = b + 1 - a := by
  have hIcc : (Finset.range n).filter p = Finset.Icc a b := by
    ext j
    rw [Finset.mem_filter, Finset.mem_range, Finset.mem_Icc]
    exact ⟨fun ⟨hj, h⟩ => (hp j hj).mp h, fun h => ⟨by omega, (hp j (by omega)).mpr h⟩⟩
  rw [Nat.count_eq_card_filter_range, hIcc, Nat.card_Icc]

/-- Under the handle byte 0x00 the opcodes 0x01..0x0E are legal. -/
theorem count_legalWord_firstPage : Nat.count LegalWord 256 = 14 :=
  count_of_interval (a := 0x01) (b := 0x0E) (by decide) fun j hj => by unfold LegalWord; omega

/-- Under any other handle byte the streaming opcodes are. -/
theorem count_legalWord_page {k : Nat} (hk : 0 < k) : Nat.count (fun j => LegalWord (256 * k + j)) 256 = 4 :=
  count_of_interval (a := 0x0B) (b := 0x0E) (by decide) fun j hj => by unfold LegalWord; omega

/-- The legal words under the first `k + 1` handle bytes. -/
theorem count_legalWord (k : Nat) : Nat.count LegalWord (256 * (k + 1)) = 10 + 4 * (k + 1) := by
  induction k with
  | zero => exact count_legalWord_firstPage
  | succ k ih => rw [Nat.mul_succ, Nat.count_add, ih, count_legalWord_page (Nat.succ_pos k)]; omega

/-- The words the decoder takes are counted by `LegalWord`. -/
theorem length_filter_decode (o : Operands) {n : Nat} (hn : n ≤ 65536) :
    ((List.range n).filter fun w => (decode (BitVec.ofNat 16 w) o).toOption.isSome).length =
      Nat.count LegalWord n := by
  have hlegal : ∀ w ∈ List.range n,
      (decode (BitVec.ofNat 16 w) o).toOption.isSome = decide (LegalWord w) := by
    intro w hw
    rw [List.mem_range] at hw
    have hd := exists_decode_iff (BitVec.ofNat 16 w) o
    rw [BitVec.toNat_ofNat, Nat.mod_eq_of_lt (by omega)] at hd
    rw [Bool.eq_iff_iff, decide_eq_true_iff, ← hd]
    cases decode (BitVec.ofNat 16 w) o <;> simp [Except.toOption]
  rw [List.filter_congr hlegal, Nat.count_eq_card_filter_range]
  rfl

end Sys2Proof

namespace Sys2Proof.Machine

/-! ## The assembler (R81): words and numbers -/

/-- A text that does not go on with a character of a word. -/
abbrev EndsWord (cs : List Char) : Prop := ∀ c ∈ cs.head?, isWordChar c = false

/-- The word at the front of a text, when every character of `w` is one of a word and the text behind ends it. -/
theorem spanWord_append {w cs : List Char} (hw : ∀ c ∈ w, isWordChar c = true) (hcs : EndsWord cs) :
    spanWord (w ++ cs) = (w, cs) := by
  induction w with
  | nil =>
    cases cs with
    | nil => rfl
    | cons c cs => simp [spanWord, hcs c rfl]
  | cons c w ih =>
    obtain ⟨hc, hw⟩ := List.forall_mem_cons.mp hw
    simp [spanWord, hc, ih hw]

/-- The characters the reader looks for before a word are in no word. -/
theorem ne_of_isWordChar {c d : Char} (hc : isWordChar c = true) (hd : isWordChar d = false) : c ≠ d := by
  rintro rfl
  exact Bool.false_ne_true (hd.symm.trans hc)

theorem isWordChar_of_isDigit {c : Char} (h : c.isDigit = true) : isWordChar c = true := by
  simp [isWordChar, Char.isAlphanum, h]

theorem asmNat_isDigit {n : Nat} : ∀ c ∈ asmNat n, c.isDigit = true := fun _ =>
  Nat.isDigit_of_mem_toDigits (by decide) (by decide)

theorem asmNat_isWordChar {n : Nat} : ∀ c ∈ asmNat n, isWordChar c = true := fun c hc =>
  isWordChar_of_isDigit (asmNat_isDigit c hc)

/-- A decimal number is read back. -/
theorem readDec_asmNat (n : Nat) : readDec (asmNat n) = some n := by
  have hall : (asmNat n).all Char.isDigit = true := List.all_eq_true.mpr asmNat_isDigit
  rw [readDec, if_pos ⟨Nat.toDigits_ne_nil, hall⟩, asmNat, Nat.ofDigitChars_ten_toDigits]

/-- A word of digits alone is read in decimal: `x` is no digit. -/
theorem wordTok_of_digits {w : List Char} (hne : w ≠ []) (hw : ∀ c ∈ w, c.isDigit = true) :
    wordTok w = (readDec w).map .num := by
  unfold wordTok
  split
  · exact absurd rfl hne
  · next c cs =>
    obtain ⟨hc, hcs⟩ := List.forall_mem_cons.mp hw
    rw [if_pos hc]
    split
    · exact absurd (hcs 'x' (List.mem_cons_self ..)) (by decide)
    · rfl

theorem wordTok_asmNat (n : Nat) : wordTok (asmNat n) = some (.num n) := by
  rw [wordTok_of_digits (w := asmNat n) Nat.toDigits_ne_nil asmNat_isDigit, readDec_asmNat]
  rfl

/-! ## The tokens of a line -/

/-- The reader finds the tokens `ts` in `cs`, whenever it is given enough fuel. -/
def Lexes (cs : List Char) (ts : List AsmTok) : Prop := ∀ fuel, cs.length ≤ fuel → lex fuel cs = some ts

theorem Lexes.nil : Lexes [] [] := by
  intro fuel _
  cases fuel <;> rfl

section

variable {cs : List Char} {ts : List AsmTok} (h : Lexes cs ts)

include h

theorem Lexes.space : Lexes (' ' :: cs) ts
  | _ + 1, hf => h _ (Nat.le_of_succ_le_succ hf)

theorem Lexes.opening : Lexes ('[' :: cs) (.opening :: ts)
  | _ + 1, hf => congrArg (Option.map _) (h _ (Nat.le_of_succ_le_succ hf))

theorem Lexes.closing : Lexes (']' :: cs) (.closing :: ts)
  | _ + 1, hf => congrArg (Option.map _) (h _ (Nat.le_of_succ_le_succ hf))

/-- A comma is written with a space behind it. -/
theorem Lexes.comma : Lexes (',' :: ' ' :: cs) (.comma :: ts)
  | _ + 1, hf => congrArg (Option.map _) (h.space _ (Nat.le_of_succ_le_succ hf))

/-- A word is one token, when the text behind it ends it. -/
theorem Lexes.word {w : List Char} {t : AsmTok} (hw : ∀ c ∈ w, isWordChar c = true) (ht : wordTok w = some t)
    (hcs : EndsWord cs) : Lexes (w ++ cs) (t :: ts) := by
  obtain _ | ⟨c, w⟩ := w
  · cases ht
  · rintro (_ | fuel) hf
    · cases hf
    · have hc : ∀ d : Char, isWordChar d = false → c ≠ d := fun d =>
        ne_of_isWordChar (hw c (List.mem_cons_self ..))
      have hspan : spanWord (c :: (w ++ cs)) = (c :: w, cs) := spanWord_append hw hcs
      have hlen : cs.length ≤ fuel := by simp only [List.length_append, List.length_cons] at hf; omega
      rw [List.cons_append, lex]
      iterate 6 rw [if_neg (hc _ (by decide))]
      rw [hspan, ht, h fuel hlen]
      rfl

theorem Lexes.num (n : Nat) (hcs : EndsWord cs) : Lexes (asmNat n ++ cs) (.num n :: ts) :=
  h.word asmNat_isWordChar (wordTok_asmNat n) hcs

end

/-! ## Byte operands -/

/-- The tokens of a byte operand after its first byte. -/
def tailToks : Bytes → List AsmTok
  | [] => [.closing]
  | b :: bs => .comma :: .num b.toNat :: tailToks bs

/-- The tokens of a byte operand. -/
def bytesToks : Bytes → List AsmTok
  | [] => [.opening, .closing]
  | b :: bs => .opening :: .num b.toNat :: tailToks bs

theorem endsWord_asmTail (bs : Bytes) (cs : List Char) : EndsWord (asmTail bs ++ ']' :: cs) := by
  rintro c hc
  cases bs <;> cases hc <;> decide

theorem Lexes.tail {cs : List Char} {ts : List AsmTok} (h : Lexes cs ts) (bs : Bytes) :
    Lexes (asmTail bs ++ ']' :: cs) (tailToks bs ++ ts) := by
  induction bs with
  | nil => exact h.closing
  | cons b bs ih => simpa [asmTail, tailToks] using (ih.num b.toNat (endsWord_asmTail bs cs)).comma

theorem Lexes.bytes {cs : List Char} {ts : List AsmTok} (h : Lexes cs ts) (bs : Bytes) :
    Lexes (asmBytes bs ++ cs) (bytesToks bs ++ ts) := by
  cases bs with
  | nil => exact h.closing.opening
  | cons b bs => simpa [asmBytes, bytesToks] using ((h.tail bs).num b.toNat (endsWord_asmTail bs cs)).opening

theorem readTail_tailToks (bs : Bytes) (ts : List AsmTok) : readTail (tailToks bs ++ ts) = some (bs, ts) := by
  induction bs with
  | nil => rfl
  | cons b bs ih => simp [tailToks, readTail, ih, b.isLt]

theorem readBytes_bytesToks (bs : Bytes) (ts : List AsmTok) : readBytes (bytesToks bs ++ ts) = some (bs, ts) := by
  cases bs with
  | nil => rfl
  | cons b bs => simp [bytesToks, readBytes, readTail_tailToks, b.isLt]

theorem readOne_bytesToks (k : Bytes → Instr) (bs : Bytes) : readOne k (bytesToks bs) = some (k bs) := by
  rw [readOne, ← List.append_nil (bytesToks bs), readBytes_bytesToks]

theorem readTwo_bytesToks (k : Bytes → Bytes → Instr) (a b : Bytes) :
    readTwo k (bytesToks a ++ .comma :: bytesToks b) = some (k a b) := by
  rw [readTwo, readBytes_bytesToks]
  exact readOne_bytesToks (k a) b

/-! ## Slots and agents -/

/-- The number behind the letters of a slot or an agent is read back. -/
theorem readIndexed_append (lead : List Char) (n : Nat) : readIndexed lead (lead ++ asmNat n) = some n := by
  rw [readIndexed, List.take_left, if_pos rfl, List.drop_left, readDec_asmNat]

/-- A word that begins like a name is a name. -/
theorem wordTok_append {lead : List Char} (hlead : wordTok lead = some (.name lead)) (w : List Char) :
    wordTok (lead ++ w) = some (.name (lead ++ w)) := by
  cases lead with
  | nil => cases hlead
  | cons c cs =>
    have hc : c.isDigit = false := Bool.eq_false_of_not_eq_true fun hc => by
      simp only [wordTok, hc, if_true] at hlead
      split at hlead <;> simp at hlead
    simp [wordTok, hc]

/-- A slot or an agent: a name that is `lead` and a number. -/
theorem Lexes.indexed {cs : List Char} {ts : List AsmTok} (h : Lexes cs ts) {lead : List Char}
    (hlead : ∀ c ∈ lead, isWordChar c = true) (hname : wordTok lead = some (.name lead)) (n : Nat)
    (hcs : EndsWord cs) : Lexes (lead ++ asmNat n ++ cs) (.name (lead ++ asmNat n) :: ts) :=
  h.word (fun c hc => (List.mem_append.mp hc).elim (hlead c) (asmNat_isWordChar c))
    (wordTok_append hname _) hcs

theorem readSlot_indexed (lead : List Char) (k : Nat → List AsmTok → Option Instr) {h : Nat} (hh : h < 256)
    (ts : List AsmTok) : readSlot lead k (.name (lead ++ asmNat h) :: .comma :: ts) = k h ts := by
  simp only [readSlot, readIndexed_append, if_pos hh]

theorem readAgent_indexed (lead : List Char) (k : Nat → Instr) (n : Nat) :
    readAgent lead k [.name (lead ++ asmNat n)] = some (k n) := by
  simp only [readAgent, readIndexed_append, Option.map_some]

/-! ## Lines and commands -/

/-- The tokens of a command's operands. -/
def operandToks : Instr → List AsmTok
  | .n2c nib => [.num nib.toNat]
  | .c2n chr => [.num chr.toNat]
  | .encode dst src => bytesToks dst ++ .comma :: bytesToks src
  | .appendEncode buf src => bytesToks buf ++ .comma :: bytesToks src
  | .encodeToText src => bytesToks src
  | .decode dst src => bytesToks dst ++ .comma :: bytesToks src
  | .appendDecode buf src => bytesToks buf ++ .comma :: bytesToks src
  | .decodeText src => bytesToks src
  | .encLen n => [.num n]
  | .decLen n => [.num n]
  | .encNew h sink => [.name ('e' :: asmNat h), .comma, .name ("sink".toList ++ asmNat sink)]
  | .encWrite h p => .name ('e' :: asmNat h) :: .comma :: bytesToks p
  | .decNew h source => [.name ('d' :: asmNat h), .comma, .name ("source".toList ++ asmNat source)]
  | .decRead h n => [.name ('d' :: asmNat h), .comma, .num n]

theorem endsWord_nil : EndsWord [] := nofun

theorem endsWord_comma (cs : List Char) : EndsWord (',' :: cs) := by
  rintro c ⟨⟩
  decide

theorem endsWord_space (cs : List Char) : EndsWord (' ' :: cs) := by
  rintro c ⟨⟩
  decide

theorem lexes_asmNat (n : Nat) : Lexes (asmNat n) [.num n] := by
  simpa using Lexes.nil.num n endsWord_nil

theorem lexes_asmBytes (bs : Bytes) : Lexes (asmBytes bs) (bytesToks bs) := by
  simpa using Lexes.nil.bytes bs

/-- Two byte operands, separated by a comma. -/
theorem lexes_two (a b : Bytes) :
    Lexes (asmBytes a ++ ',' :: ' ' :: asmBytes b) (bytesToks a ++ .comma :: bytesToks b) :=
  (lexes_asmBytes b).comma.bytes a

/-- A slot, a comma and what follows. -/
theorem Lexes.slot {cs : List Char} {ts : List AsmTok} (h : Lexes cs ts) {l : Char} (hl : isWordChar l = true)
    (hname : wordTok [l] = some (.name [l])) (n : Nat) :
    Lexes (l :: (asmNat n ++ ',' :: ' ' :: cs)) (.name (l :: asmNat n) :: .comma :: ts) :=
  h.comma.indexed (List.forall_mem_singleton.mpr hl) hname n (endsWord_comma _)

/-- An agent at the end of a line. -/
theorem lexes_agent {lead : List Char} (hlead : lead.all isWordChar = true)
    (hname : wordTok lead = some (.name lead)) (n : Nat) : Lexes (lead ++ asmNat n) [.name (lead ++ asmNat n)] := by
  simpa using Lexes.nil.indexed (List.all_eq_true.mp hlead) hname n endsWord_nil

/-- The operands of a command are written as its operand tokens. -/
theorem lexes_asmOperands (i : Instr) : Lexes (asmOperands i) (operandToks i) := by
  cases i with
  | n2c nib => exact lexes_asmNat _
  | c2n chr => exact lexes_asmNat _
  | encLen n => exact lexes_asmNat n
  | decLen n => exact lexes_asmNat n
  | encode a b => exact lexes_two a b
  | appendEncode a b => exact lexes_two a b
  | decode a b => exact lexes_two a b
  | appendDecode a b => exact lexes_two a b
  | encodeToText src => exact lexes_asmBytes src
  | decodeText src => exact lexes_asmBytes src
  | encNew h k => exact (lexes_agent rfl rfl k).slot rfl rfl h
  | encWrite h p => exact (lexes_asmBytes p).slot rfl rfl h
  | decNew h k => exact (lexes_agent rfl rfl k).slot rfl rfl h
  | decRead h n => exact (lexes_asmNat n).slot rfl rfl h

/-- A mnemonic is a word. -/
theorem mnemonic_isWordChar (i : Instr) : ∀ c ∈ mnemonic i, isWordChar c = true :=
  List.all_eq_true.mp (by cases i <;> rfl)

/-- A mnemonic begins with a letter, so it is a name. -/
theorem wordTok_mnemonic (i : Instr) : wordTok (mnemonic i) = some (.name (mnemonic i)) := by
  cases i <;> rfl

/-- A line is its mnemonic and its operand tokens. -/
theorem lexes_asm (i : Instr) : Lexes (asm i) (.name (mnemonic i) :: operandToks i) :=
  (lexes_asmOperands i).space.word (mnemonic_isWordChar i) (wordTok_mnemonic i) (endsWord_space _)

/-- A number below its bound is read. -/
theorem readNum_below {b n : Nat} (k : Nat → Instr) (hn : n < b) : readNum (some b) k [.num n] = some (k n) :=
  if_pos (decide_eq_true hn)

/-- The operands of a well-formed command are read back under its mnemonic. -/
theorem readCommand_operandToks {i : Instr} (hi : i.wf = true) :
    readCommand (mnemonic i) (operandToks i) = some i := by
  cases i with
  | n2c nib =>
    have hread := readNum_below (fun n => .n2c (BitVec.ofNat 4 n)) nib.isLt
    rwa [BitVec.ofNat_toNat, BitVec.setWidth_eq] at hread
  | c2n chr =>
    have hread := readNum_below (fun n => .c2n (BitVec.ofNat 8 n)) chr.isLt
    rwa [BitVec.ofNat_toNat, BitVec.setWidth_eq] at hread
  | encLen n => rfl
  | decLen n => rfl
  | encode a b => exact readTwo_bytesToks _ a b
  | appendEncode a b => exact readTwo_bytesToks _ a b
  | decode a b => exact readTwo_bytesToks _ a b
  | appendDecode a b => exact readTwo_bytesToks _ a b
  | encodeToText src => exact readOne_bytesToks _ src
  | decodeText src => exact readOne_bytesToks _ src
  | encNew h k => exact (readSlot_indexed ['e'] _ (of_decide_eq_true hi) _).trans (readAgent_indexed _ _ k)
  | encWrite h p => exact (readSlot_indexed ['e'] _ (of_decide_eq_true hi) _).trans (readOne_bytesToks _ p)
  | decNew h k => exact (readSlot_indexed ['d'] _ (of_decide_eq_true hi) _).trans (readAgent_indexed _ _ k)
  | decRead h n => exact (readSlot_indexed ['d'] _ (of_decide_eq_true hi) _).trans rfl

/-! ## Re-encoding (R71-R73) -/

/-- A valid character's entry is a nibble, and that nibble's character is the lowercase form (R22, R73). -/
theorem lowerCase_of_isAlphabet (P : Params) {c : Byte} (hc : isAlphabet c) :
    ∃ n : Nibble, c2n P c = n.zeroExtend 8 ∧ lowerCase c = n2c n := by
  have hlower : ∀ n : Nibble, lowerCase (n2c n) = n2c n ∧ lowerCase (n2c n - 0x20#8) = n2c n := by decide
  obtain ⟨n, rfl | rfl⟩ := eq_n2c_of_isAlphabet hc
  · exact ⟨n, c2n_n2c P n, (hlower n).1⟩
  · exact ⟨n, c2n_n2c_upper P n, (hlower n).2⟩

/-- Packing two nibbles loses neither (R10, R72). -/
theorem nibbles_packByte (m n : Nibble) :
    hiNibble (packByte (m.zeroExtend 8) (n.zeroExtend 8)) = m ∧
      loNibble (packByte (m.zeroExtend 8) (n.zeroExtend 8)) = n := by
  revert m n
  decide

/-- A pair of valid characters, packed and encoded again, is the pair in lower case. -/
theorem enc2_packByte (P : Params) {p q : Byte} (hp : isAlphabet p) (hq : isAlphabet q) :
    enc2 (packByte (c2n P p) (c2n P q)) = [lowerCase p, lowerCase q] := by
  obtain ⟨m, hm, hlp⟩ := lowerCase_of_isAlphabet P hp
  obtain ⟨n, hn, hlq⟩ := lowerCase_of_isAlphabet P hq
  obtain ⟨hhi, hlo⟩ := nibbles_packByte m n
  rw [hm, hn, hlp, hlq, enc2, hhi, hlo]

/-- Well-formed text decodes without error, and its decode encodes to its lowercase form (R73). -/
theorem dec_wellFormedText {Token : Type} {P : Params} (hinv : 15 < P.invalid.toNat) {t : Bytes}
    (ht : wellFormedText P t) : (dec P t Token).2 = .none ∧ enc (dec P t Token).1 = t.map lowerCase := by
  induction t using dec.induct (P := P) (Token := Token) with
  | case1 => exact ⟨rfl, rfl⟩
  | case2 | case3 => exact absurd ht.1 Nat.one_ne_zero
  | case4 p q rest hp hq ih =>
    obtain ⟨heven, hvalid⟩ := ht
    have hrest : wellFormedText P rest :=
      ⟨by simp only [List.length_cons] at heven; omega, fun c hc => hvalid c (by simp [hc])⟩
    obtain ⟨hst, henc⟩ := ih hrest
    rw [dec_pair_valid hp hq, enc_cons, henc,
      enc2_packByte P ((validChar_iff hinv p).mp hp) ((validChar_iff hinv q).mp hq)]
    exact ⟨hst, rfl⟩
  | case5 p q rest hp hq => exact absurd (ht.2 q (by simp)) hq
  | case6 p q rest hp => exact absurd (ht.2 p (by simp)) hp

end Sys2Proof.Machine

/-! ## The statements -/

namespace Sys2Proof.Machine

/-- Settles O3, by the fields of the word that `encode` writes. -/
theorem decodeOfEncodeIsTheInstruction : Obligations.DecodeOfEncodeIsTheInstruction := fun _ => decode_encode

/-- Settles O2: the map row by row, the legal words, and their count page by page. -/
theorem decodeFollowsTheProcedure : Obligations.DecodeFollowsTheProcedure := by
  refine ⟨fun w o => ?_, ?_⟩
  · obtain ⟨hencNew, hencWrite, hdecNew, hdecRead⟩ := decode_streaming w o
    refine ⟨hencNew, hencWrite, hdecNew, hdecRead, decode_of_handle_zero o, fun hill => ?_⟩
    rw [exists_decode_error_iff]
    unfold LegalWord
    omega
  · rw [length_filter_decode _ le_rfl]
    exact count_legalWord 255

/-- Settles O4: a word and the word of the command it spells have the same fields. -/
theorem encodeOfDecodeIsTheWord : Obligations.EncodeOfDecodeIsTheWord := by
  intro w o i h
  obtain ⟨hwf, hop, hh⟩ := decode_fields h
  obtain ⟨hop', hh'⟩ := encode_fields i
  exact ⟨hwf, cmdWord_ext (hop'.trans hop.symm) (hh'.trans hh.symm)⟩

/-- Settles O8: the words the statement calls illegal are those that are not legal. -/
theorem illegalWordsAreRecordedAndSkipped : Obligations.IllegalWordsAreRecordedAndSkipped := by
  intro s c rest hc
  have hfetch : fetch s = some c := fetch_cons hc
  refine ⟨fun hill => ?_, fun hleg => ?_⟩
  · obtain ⟨e, he⟩ := (exists_decode_error_iff c.word c.ops).mpr (by unfold LegalWord; omega)
    rw [step, transact_illegal hfetch he, State.raiseFault, hc, List.tail_cons]
  · obtain ⟨i, hi⟩ := (exists_decode_iff c.word c.ops).mpr (by unfold LegalWord; omega)
    exact ⟨i, hi, transact_decoded hfetch hi⟩

/-- Settles O1, by evaluating the decoder on each word. -/
theorem sampleWordsDecodeAsTheMapSays : Obligations.SampleWordsDecodeAsTheMapSays := by
  intro o
  refine ⟨rfl, rfl, rfl, rfl, rfl, rfl, rfl, rfl, rfl, rfl, rfl, rfl, rfl, rfl, ?_⟩
  simp only [List.forall_mem_cons]
  exact ⟨rfl, rfl, rfl, rfl, rfl, rfl, nofun⟩

/-- Settles O5: the line's tokens are its mnemonic and its operands, and the reader takes each operand back. -/
theorem assemblerReadsWhatItWrites : Obligations.AssemblerReadsWhatItWrites := by
  intro i hi
  rw [assemble, lexes_asm i _ le_rfl]
  exact readCommand_operandToks hi

/-- Settles O35: the length by `dec_length_of_none`, the text by the pairs of `dec_wellFormedText`. -/
theorem reencodingGivesTheLowercaseForm : Obligations.ReencodingGivesTheLowercaseForm := by
  intro P hP t ht
  obtain ⟨-, -, -, hinv, -⟩ := hP
  obtain ⟨hst, henc⟩ := dec_wellFormedText (Token := IoToken) hinv ht
  have hlen := dec_length_of_none P t hst
  exact ⟨by omega, henc⟩

end Sys2Proof.Machine

/-! The statements of 40_lookup_engines.md: one table entry per command. -/

namespace Sys2Proof.Machine

/-! ## The two commands (R100, R101) -/

/-- N2C returns the entry of its nibble, and its frame is the response's. -/
theorem exec_n2c (nib : Nibble) (s : State) : exec (.n2c nib) s = .next (s.respond ⟨1, [n2c nib], .none⟩) := rfl

/-- C2N returns the entry of its character, and its frame is the response's. -/
theorem exec_c2n (chr : Byte) (s : State) :
    exec (.c2n chr) s = .next (s.respond ⟨1, [c2n Config.params chr], .none⟩) := rfl

/-- The upper-case variant of an entry by its code (R20, R70). -/
theorem n2c_upper_eq (n : Nibble) : n2c n - 0x20#8 = 0x5A#8 - n.zeroExtend 8 := by
  rw [n2c_eq, BitVec.sub_sub, BitVec.add_comm, ← BitVec.sub_sub]
  rfl

/-- Either code of a nibble, lower case or upper case, has that nibble as its entry (R21). -/
theorem c2n_code (P : Params) (n : Nibble) {c : Byte}
    (hc : c ∈ [0x7A#8 - n.zeroExtend 8, 0x5A#8 - n.zeroExtend 8]) : c2n P c = n.zeroExtend 8 := by
  rw [← n2c_eq, ← n2c_upper_eq, List.mem_pair] at hc
  rcases hc with rfl | rfl
  · exact c2n_n2c P n
  · exact c2n_n2c_upper P n

end Sys2Proof.Machine

/-! ## The statements -/

namespace Sys2Proof.Machine

/-- Settles O20: the entry returned is the table's formula. -/
theorem n2cReturnsTheAlphabetCharacter : Obligations.N2cReturnsTheAlphabetCharacter := by
  refine ⟨fun _ => rfl, fun nib s => ?_⟩
  rw [exec_n2c, n2c_eq]
  rfl

/-- Settles O21, by the entry of either code of a nibble and by the sentinel outside the alphabet. -/
theorem c2nReturnsTheNibbleOrTheSentinel : Obligations.C2nReturnsTheNibbleOrTheSentinel := by
  refine ⟨fun _ => rfl, fun n s c hc => ?_, fun c s hc => ?_⟩
  · rw [exec_c2n, c2n_code Config.params n hc]
    rfl
  · rw [exec_c2n, c2n_of_not_isAlphabet hc]
    rfl

end Sys2Proof.Machine

/-! The statements of 41_oneshot_encode.md: the text of a source, and the three commands that answer it. -/

namespace Sys2Proof.Machine

/-! ## The text of a source (R120, R124) -/

/-- The model's encode is the library's `flatMap` of the two characters of a byte. -/
theorem enc_eq_flatMap (src : Bytes) : enc src = src.flatMap enc2 := by
  induction src with
  | nil => rfl
  | cons b rest ih => rw [enc_cons, ih, List.flatMap_cons]

theorem enc_append (s u : Bytes) : enc (s ++ u) = enc s ++ enc u := by
  simp only [enc_eq_flatMap, List.flatMap_append]

/-- However a source is cut into chunks, the texts of the chunks make the text of the whole. -/
theorem flatten_map_enc (chunks : List Bytes) : (chunks.map enc).flatten = enc chunks.flatten := by
  induction chunks with
  | nil => rfl
  | cons c cs ih => rw [List.map_cons, List.flatten_cons, ih, List.flatten_cons, enc_append]

theorem hiNibble_eq_ofNat (b : Byte) : hiNibble b = BitVec.ofNat 4 (b.toNat / 16) := by
  simp [hiNibble, BitVec.extractLsb', Nat.shiftRight_eq_div_pow]

theorem loNibble_eq_ofNat (b : Byte) : loNibble b = BitVec.ofNat 4 (b.toNat % 16) := by
  apply BitVec.eq_of_toNat_eq
  simp [loNibble]

/-- The two characters of a byte stand at twice its index, high nibble first. -/
theorem enc_getElem?_pair {src : Bytes} {k : Nat} {b : Byte} (hb : src[k]? = some b) :
    (enc src)[2 * k]? = some (n2c (hiNibble b)) ∧ (enc src)[2 * k + 1]? = some (n2c (loNibble b)) := by
  induction src generalizing k with
  | nil => cases hb
  | cons c rest ih =>
    cases k with
    | zero =>
      obtain rfl : c = b := Option.some.inj hb
      exact ⟨rfl, rfl⟩
    | succ k => exact ih hb

/-! ## A destination buffer with a text in it (R120) -/

theorem fillDst_getElem?_written (dst : Bytes) {t : Bytes} {j : Nat} {c : Byte} (hc : t[j]? = some c) :
    (fillDst dst t)[j]? = some c := by
  obtain ⟨hj, -⟩ := List.getElem?_eq_some_iff.mp hc
  rw [fillDst, List.getElem?_append_left hj, hc]

theorem fillDst_getElem?_kept (dst : Bytes) {t : Bytes} {j : Nat} (hj : t.length ≤ j) :
    (fillDst dst t)[j]? = dst[j]? := by
  rw [fillDst, List.getElem?_append_right hj, List.getElem?_drop, Nat.add_sub_cancel' hj]

theorem take_fillDst (dst t : Bytes) : (fillDst dst t).take t.length = t := List.take_left

/-! ## The three commands (R120, R121, R122) -/

/-- ENCODE with room answers the filled destination, and its frame is the response's. -/
theorem exec_encode {dst src : Bytes} (h : 2 * src.length ≤ dst.length) (s : State) :
    exec (.encode dst src) s = .next (s.respond ⟨2 * src.length, fillDst dst (enc src), .none⟩) :=
  if_neg (Nat.not_lt.mpr h)

/-- ENCODE without room is the model fault, and its frame is the fault's. -/
theorem exec_encode_tooSmall {dst src : Bytes} (h : dst.length < 2 * src.length) (s : State) :
    exec (.encode dst src) s = .next (s.raiseFault .dstTooSmall) := if_pos h

/-- APPEND_ENCODE answers the extended buffer. -/
theorem exec_appendEncode (buf src : Bytes) (s : State) : exec (.appendEncode buf src) s =
    .next (s.respond ⟨(buf ++ enc src).length, buf ++ enc src, .none⟩) := rfl

/-- ENCODE_TO_TEXT answers the text. -/
theorem exec_encodeToText (src : Bytes) (s : State) :
    exec (.encodeToText src) s = .next (s.respond ⟨(enc src).length, enc src, .none⟩) := rfl

end Sys2Proof.Machine

/-! ## The statements -/

namespace Sys2Proof.Machine

/-- Settles O25: the destination is the text written from its start, the text by the two characters of each byte. -/
theorem encodeWritesHighNibbleFirst : Obligations.EncodeWritesHighNibbleFirst := by
  refine ⟨fun _ => rfl, fun dst src s => ⟨fun hroom => ?_, fun hsmall => exec_encode_tooSmall hsmall s⟩⟩
  have hlen : (enc src).length ≤ dst.length := by rwa [enc_length]
  refine ⟨fillDst dst (enc src), exec_encode hroom s, fillDst_length hlen, fun k b hb => ?_, fun j hj => ?_⟩
  · obtain ⟨hhi, hlo⟩ := enc_getElem?_pair hb
    rw [← hiNibble_eq_ofNat, ← loNibble_eq_ofNat]
    exact ⟨fillDst_getElem?_written dst hhi, fillDst_getElem?_written dst hlo⟩
  · exact fillDst_getElem?_kept dst (by rwa [enc_length])

/-- Settles O29: the length of the text, and encode's two laws over concatenation. -/
theorem encodingDoublesLengthAndConcatenates : Obligations.EncodingDoublesLengthAndConcatenates :=
  ⟨fun src => ⟨enc_length src, rfl⟩, enc_append, flatten_map_enc⟩

/-- Settles O26, by the equation of APPEND_ENCODE. -/
theorem appendEncodeExtendsTheBuffer : Obligations.AppendEncodeExtendsTheBuffer :=
  ⟨fun _ => rfl, exec_appendEncode⟩

/-- Settles O27, by the equation of ENCODE_TO_TEXT. -/
theorem encodeToTextReturnsTheText : Obligations.EncodeToTextReturnsTheText :=
  ⟨fun _ => rfl, exec_encodeToText⟩

/-- Settles O28: the text is the start of the destination, the end of the buffer, and the whole new value. -/
theorem encodeFormsAgree : Obligations.EncodeFormsAgree := by
  intro src buf dst s hroom
  refine ⟨_, _, _, exec_encode hroom s, exec_appendEncode buf src s, exec_encodeToText src s, ?_, ?_,
    rfl, rfl, rfl, rfl⟩
  · rw [← enc_length, take_fillDst]
  · rw [← enc_length, List.length_append, Nat.add_sub_cancel, List.drop_left]

end Sys2Proof.Machine

/-! The statements of 42_oneshot_decode.md: the decode of a text around its longest run of valid pairs, and the three
commands that answer it. -/

namespace Sys2Proof.Machine

/-! ## The decode of a concatenation (R140, R144, R147) -/

section

variable {Token : Type} {P : Params}

/-- A text that decodes without error is a run of valid pairs: induction over its pairs. -/
theorem dec_none_induction {motive : (t : Bytes) → (dec P t Token).2 = .none → Prop} (nil : motive [] rfl)
    (pair : ∀ (p q : Byte) (rest : Bytes) (hp : validChar P p = true) (hq : validChar P q = true)
      (hrest : (dec P rest Token).2 = .none), motive rest hrest →
        motive (p :: q :: rest) ((congrArg Prod.snd (dec_pair_valid hp hq rest)).trans hrest))
    (t : Bytes) (ht : (dec P t Token).2 = .none) : motive t ht := by
  induction t using dec.induct (P := P) (Token := Token) with
  | case1 => exact nil
  | case2 c hc => rw [dec, if_pos hc] at ht; cases ht
  | case3 c hc => rw [dec, if_neg hc] at ht; cases ht
  | case4 p q rest hp hq ih =>
    have hrest : (dec P rest Token).2 = .none := (congrArg Prod.snd (dec_pair_valid hp hq rest)).symm.trans ht
    exact pair p q rest hp hq hrest (ih hrest)
  | case5 p q rest hp hq => rw [dec_pair_low_invalid hp hq] at ht; cases ht
  | case6 p q rest hp => rw [dec_pair_high_invalid hp] at ht; cases ht

/-- After a text that decodes without error, a decode goes on as if the rest stood alone. -/
theorem dec_append {t : Bytes} (ht : (dec P t Token).2 = .none) (u : Bytes) :
    dec P (t ++ u) Token = ((dec P t Token).1 ++ (dec P u Token).1, (dec P u Token).2) := by
  induction t, ht using dec_none_induction with
  | nil => rfl
  | pair p q rest hp hq _ ih =>
    rw [List.cons_append, List.cons_append, dec_pair_valid hp hq, dec_pair_valid hp hq, ih, List.cons_append]

/-- The pairs that gave the output decode alone to that output, without error. -/
theorem dec_take_output (src : Bytes) :
    dec P (src.take (2 * (dec P src Token).1.length)) Token = ((dec P src Token).1, .none) := by
  induction src using dec.induct (P := P) (Token := Token) with
  | case1 => rfl
  | case2 c hc => rw [dec, if_pos hc]; rfl
  | case3 c hc => rw [dec, if_neg hc]; rfl
  | case4 p q rest hp hq ih =>
    rw [dec_pair_valid hp hq, List.length_cons, Nat.mul_succ, List.take_succ_cons, List.take_succ_cons,
      dec_pair_valid hp hq, ih]
  | case5 p q rest hp hq => rw [dec_pair_low_invalid hp hq]; rfl
  | case6 p q rest hp => rw [dec_pair_high_invalid hp]; rfl

/-- What follows those pairs decodes to nothing. -/
theorem dec_drop_output (src : Bytes) :
    (dec P (src.drop (2 * (dec P src Token).1.length)) Token).1 = [] := by
  have htake := dec_take_output (Token := Token) (P := P) src
  have happ := dec_append (congrArg Prod.snd htake) (src.drop (2 * (dec P src Token).1.length))
  rw [List.take_append_drop, htake] at happ
  exact List.self_eq_append_right.mp (congrArg Prod.fst happ)

/-- A run of first pairs that decodes without error gives no more bytes than the whole text does. -/
theorem le_dec_length_of_take {src : Bytes} {k : Nat} (hk : 2 * k ≤ src.length)
    (h : (dec P (src.take (2 * k)) Token).2 = .none) : k ≤ (dec P src Token).1.length := by
  have hlen := dec_length_of_none P _ h
  have happ := dec_append h (src.drop (2 * k))
  rw [List.length_take_of_le hk] at hlen
  rw [List.take_append_drop] at happ
  rw [happ, List.length_append]
  omega

/-- A text that decodes without error is well-formed. -/
theorem wellFormedText_of_dec {t : Bytes} (ht : (dec P t Token).2 = .none) : wellFormedText P t := by
  refine ⟨by have := dec_length_of_none P t ht; omega, ?_⟩
  induction t, ht using dec_none_induction with
  | nil => nofun
  | pair p q rest hp hq _ ih => exact List.forall_mem_cons.mpr ⟨hp, List.forall_mem_cons.mpr ⟨hq, ih⟩⟩

/-- A decode that gives no byte has no valid pair to start with. -/
theorem cases_of_dec_nil {u : Bytes} (h : (dec P u Token).1 = []) :
    u = [] ∨ (∃ p q rest, u = p :: q :: rest ∧ (validChar P p = false ∨ validChar P q = false)) ∨ ∃ c, u = [c] := by
  match u with
  | [] => exact .inl rfl
  | [c] => exact .inr (.inr ⟨c, rfl⟩)
  | p :: q :: rest =>
    refine .inr (.inl ⟨p, q, rest, rfl, ?_⟩)
    by_contra! hvalid
    rw [dec_pair_valid (by simpa using hvalid.1) (by simpa using hvalid.2)] at h
    cases h

/-! ## The bytes of a decode (R72, R140, R146) -/

/-- Packing two entries at most 15 is the sum `16 * h + l` (R10, R72). -/
theorem packByte_toNat {h l : Byte} (hh : h.toNat ≤ 15) (hl : l.toNat ≤ 15) :
    (packByte h l).toNat = 16 * h.toNat + l.toNat := by
  rw [packByte, BitVec.toNat_or, BitVec.toNat_shiftLeft, Nat.mod_eq_of_lt (by rw [Nat.shiftLeft_eq]; omega),
    ← Nat.shiftLeft_add_eq_or_of_lt (by omega), Nat.shiftLeft_eq]
  omega

/-- A byte is its two nibbles, packed. -/
theorem packByte_nibbles (b : Byte) : packByte ((hiNibble b).zeroExtend 8) ((loNibble b).zeroExtend 8) = b := by
  revert b
  decide

theorem validChar_n2c (n : Nibble) : validChar P (n2c n) = true := by
  rw [validChar, c2n_n2c, decide_eq_true_iff, BitVec.toNat_setWidth]
  omega

/-- The two characters of a byte decode to that byte. -/
theorem dec_enc (B : Bytes) : dec P (enc B) Token = (B, .none) := by
  induction B with
  | nil => rfl
  | cons b rest ih =>
    rw [enc_cons, enc2, List.cons_append, List.cons_append, List.nil_append,
      dec_pair_valid (validChar_n2c _) (validChar_n2c _), ih, c2n_n2c, c2n_n2c, packByte_nibbles]

/-- Byte `k` of the output of a text without error comes from the pair at `2 * k`. -/
theorem dec_getElem?_toNat {t : Bytes} (ht : (dec P t Token).2 = .none) {k : Nat} {p q : Byte}
    (hp : t[2 * k]? = some p) (hq : t[2 * k + 1]? = some q) :
    (dec P t Token).1[k]?.map BitVec.toNat = some (16 * (c2n P p).toNat + (c2n P q).toNat) := by
  induction t, ht using dec_none_induction generalizing k with
  | nil => cases hp
  | pair a b rest ha hb _ ih =>
    rw [dec_pair_valid ha hb]
    cases k with
    | zero =>
      obtain rfl : a = p := Option.some.inj hp
      obtain rfl : b = q := Option.some.inj hq
      exact congrArg some (packByte_toNat (of_decide_eq_true ha) (of_decide_eq_true hb))
    | succ k => exact ih hp hq

end

/-! ## The three commands (R141, R142, R143) -/

/-- DECODE with room answers the filled destination, and its frame is the response's. -/
theorem exec_decode {dst src : Bytes} (h : src.length / 2 ≤ dst.length) (s : State) :
    exec (.decode dst src) s = .next (s.respond ⟨(dec Config.params src).1.length,
      fillDst dst (dec Config.params src).1, (dec Config.params src).2⟩) :=
  if_neg (Nat.not_lt.mpr h)

/-- DECODE without room is the model fault, and its frame is the fault's. -/
theorem exec_decode_tooSmall {dst src : Bytes} (h : dst.length < src.length / 2) (s : State) :
    exec (.decode dst src) s = .next (s.raiseFault .dstTooSmall) := if_pos h

/-- APPEND_DECODE answers the extended buffer, an error included. -/
theorem exec_appendDecode (buf src : Bytes) (s : State) : exec (.appendDecode buf src) s =
    .next (s.respond ⟨(buf ++ (dec Config.params src).1).length, buf ++ (dec Config.params src).1,
      (dec Config.params src).2⟩) := rfl

/-- DECODE_TEXT answers the output of the primitive. -/
theorem exec_decodeText (src : Bytes) (s : State) : exec (.decodeText src) s =
    .next (s.respond ⟨(dec Config.params src).1.length, (dec Config.params src).1, (dec Config.params src).2⟩) := rfl

end Sys2Proof.Machine

/-! ## The statements -/

namespace Sys2Proof.Machine

/-- Settles O30: each form is a well-formed run and what follows it, and the run of any input is the pairs that gave
its output. -/
theorem decodeReportsTheFirstInvalidCharacter : Obligations.DecodeReportsTheFirstInvalidCharacter := by
  intro P hP
  obtain ⟨-, -, -, hinv, -⟩ := hP
  refine ⟨fun t ht => ?_, fun src => ?_⟩
  · obtain ⟨hst, -⟩ := dec_wellFormedText (Token := IoToken) hinv ht
    have after {u : Bytes} {st : Status IoToken} (hu : dec P u = ([], st)) :
        dec P (t ++ u) = ((dec P t).1, st) := by rw [dec_append hst, hu, List.append_nil]
    refine ⟨(dec P t).1, Prod.ext rfl hst, dec_length_of_none P t hst, fun k p q => dec_getElem?_toNat hst,
      fun p q rest hp => after (dec_pair_high_invalid (by simp [hp]) q rest),
      fun p q rest hp hq => after (dec_pair_low_invalid hp (by simp [hq]) rest),
      fun c hc => after (by rw [dec, hc]; rfl), fun c hc => after (by rw [dec, if_pos hc])⟩
  · have hsplit := List.take_append_drop (2 * (dec P src).1.length) src
    refine ⟨_, wellFormedText_of_dec (congrArg Prod.snd (dec_take_output (Token := IoToken) src)), ?_⟩
    obtain hu | ⟨p, q, rest, hu, hbad⟩ | ⟨c, hu⟩ := cases_of_dec_nil (dec_drop_output (Token := IoToken) (P := P) src)
    · exact .inl (by rw [hu, List.append_nil] at hsplit; exact hsplit.symm)
    · exact .inr (.inl ⟨p, q, rest, hu ▸ hsplit.symm, hbad⟩)
    · exact .inr (.inr ⟨c, hu ▸ hsplit.symm⟩)

/-- Settles O36: the pairs that gave the output, and no run of first pairs gives more bytes than the whole text. -/
theorem partialOutputIsTheDecodeOfAPrefix : Obligations.PartialOutputIsTheDecodeOfAPrefix :=
  fun _ _ src _ => ⟨dec_take_output src, fun _ => le_dec_length_of_take⟩

/-- Settles O34: the characters of each byte decode to it, and a well-formed text decodes without error. -/
theorem roundTripIsLossless : Obligations.RoundTripIsLossless := by
  intro P hP
  obtain ⟨-, -, -, hinv, -⟩ := hP
  refine ⟨dec_enc, fun t ht => ?_⟩
  obtain ⟨hst, -⟩ := dec_wellFormedText (Token := IoToken) hinv ht
  have hlen := dec_length_of_none P t hst
  exact ⟨by omega, hst⟩

/-- Settles O31: the destination is the output written from its start, and half of the source is room enough. -/
theorem decodeKeepsPartialOutput : Obligations.DecodeKeepsPartialOutput := by
  refine ⟨fun _ => rfl, fun dst src s => ⟨fun hroom => ?_, fun hsmall => exec_decode_tooSmall hsmall s⟩⟩
  have hlen : (dec Config.params src).1.length ≤ dst.length := by
    have := dec_length_le (Token := IoToken) Config.params src
    omega
  exact ⟨_, exec_decode hroom s, fillDst_length hlen, take_fillDst dst _, fun _ => fillDst_getElem?_kept dst⟩

/-- Settles O32, by the equation of APPEND_DECODE. -/
theorem appendDecodeExtendsTheBuffer : Obligations.AppendDecodeExtendsTheBuffer :=
  ⟨fun _ => rfl, exec_appendDecode⟩

/-- Settles O33, by the equation of DECODE_TEXT. -/
theorem decodeTextReturnsTheBytes : Obligations.DecodeTextReturnsTheBytes :=
  ⟨fun _ => rfl, exec_decodeText⟩

end Sys2Proof.Machine

/-! The statements of 43_length_helpers.md: the two helpers, their laws, and the counts of ENCODE and DECODE against
them. -/

namespace Sys2Proof.Machine

/-! ## The two commands (R160, R161) -/

/-- ENCLEN answers the encoded length, and its frame is the response's. -/
theorem exec_encLen (n : Nat) (s : State) :
    exec (.encLen n) s = .next (s.respond ⟨encodedLength n, [], .none⟩) := rfl

/-- DECLEN answers the decoded length, and its frame is the response's. -/
theorem exec_decLen (n : Nat) (s : State) :
    exec (.decLen n) s = .next (s.respond ⟨decodedLength n, [], .none⟩) := rfl

/-! ## The sizing laws (R163) -/

theorem decodedLength_encodedLength (n : Nat) : decodedLength (encodedLength n) = n :=
  Nat.mul_div_cancel_left n Nat.two_pos

theorem encodedLength_decodedLength (n : Nat) :
    encodedLength (decodedLength n) = if n % 2 = 0 then n else n - 1 := by
  unfold encodedLength decodedLength
  split <;> omega

/-! ## The response of a finished command -/

section

variable {Token : Type} {o : Host.Outcome (State Token) Fault Refusal} {s t : State Token} {r : Response Token}

/-- The response a command has added is the one it returned. -/
theorem eq_of_next_respond {q : Response Token} (ho : o = .next (s.respond q)) (ht : o = .next t)
    (hr : t.responses = s.responses ++ [r]) : r = q := by
  cases ho.symm.trans ht
  exact (List.append_singleton_inj.mp hr).2.symm

/-- A command that raises a model fault adds no response. -/
theorem responses_ne_of_next_raiseFault {m : ModelFault} (ho : o = .next (s.raiseFault m)) (ht : o = .next t) :
    t.responses ≠ s.responses ++ [r] := by
  cases ho.symm.trans ht
  simp

end

section

variable {dst src : Bytes} {s t : State} {r : Response}

/-- A response of ENCODE counts the whole text: without room there is none. -/
theorem encode_response_count (ht : exec (.encode dst src) s = .next t) (hr : t.responses = s.responses ++ [r]) :
    r.count = encodedLength src.length := by
  rcases Nat.lt_or_ge dst.length (2 * src.length) with hsmall | hroom
  · exact absurd hr (responses_ne_of_next_raiseFault (exec_encode_tooSmall hsmall s) ht)
  · rw [eq_of_next_respond (exec_encode hroom s) ht hr, encodedLength]

/-- A response of DECODE counts the output, which takes two characters a byte: without room there is none. -/
theorem decode_response_count_le (ht : exec (.decode dst src) s = .next t) (hr : t.responses = s.responses ++ [r]) :
    r.count ≤ decodedLength src.length := by
  rcases Nat.lt_or_ge dst.length (src.length / 2) with hsmall | hroom
  · exact absurd hr (responses_ne_of_next_raiseFault (exec_decode_tooSmall hsmall s) ht)
  · rw [eq_of_next_respond (exec_decode hroom s) ht hr, decodedLength, Nat.le_div_iff_mul_le Nat.two_pos, Nat.mul_comm]
    exact dec_length_le Config.params src

end

end Sys2Proof.Machine

/-! ## The statements -/

namespace Sys2Proof.Machine

/-- Settles O39: the two laws of the helpers, and the counts by the one response each command can give. -/
theorem sizingLaws : Obligations.SizingLaws :=
  ⟨decodedLength_encodedLength, encodedLength_decodedLength, fun _ _ _ _ _ => encode_response_count,
    fun _ _ _ _ _ => decode_response_count_le⟩

/-- Settles O37, by the equation of ENCLEN. -/
theorem encLenDoubles : Obligations.EncLenDoubles := ⟨fun _ => rfl, exec_encLen⟩

/-- Settles O38, by the equation of DECLEN. -/
theorem decLenHalves : Obligations.DecLenHalves := ⟨fun _ => rfl, exec_decLen⟩

end Sys2Proof.Machine

/-! The statements of 44_stream_encoder.md: one pass of ENC_WRITE's loop, the passes of a finished write, and a write
whose Sink accepts everything. -/

namespace Sys2Proof.Machine

/-! ## One pass of the loop (R171, R172) -/

section

variable {Token : Type} {P : Params} {E : EncSlot Token}

/-- The encoder after a pass over the front of `p` that its Sink answered with `a`: the chunk's text at the front of the
scratch buffer, and the signal's fault (R171, R173). -/
def EncSlot.afterPass (P : Params) (E : EncSlot Token) (p : Bytes) (a : SinkAnswer Token) : EncSlot Token :=
  { E with out := enc (p.take P.encChunk) ++ E.out.drop (enc (p.take P.encChunk)).length,
           fault := sinkFault a.sig E.fault }

@[simp] theorem EncSlot.afterPass_sink (p : Bytes) (a : SinkAnswer Token) : (E.afterPass P p a).sink = E.sink := rfl
@[simp] theorem EncSlot.afterPass_fault (p : Bytes) (a : SinkAnswer Token) :
    (E.afterPass P p a).fault = sinkFault a.sig E.fault := rfl

/-- A pass keeps the buffer's length: a chunk's text has at most ENC_CAP bytes. -/
theorem EncSlot.afterPass_out_length (hout : E.out.length = P.encCap) (p : Bytes) (a : SinkAnswer Token) :
    (E.afterPass P p a).out.length = P.encCap := by
  simp only [EncSlot.afterPass, List.length_append, List.length_drop, enc_length, List.length_take, Params.encChunk,
    hout]
  omega

theorem encChunk_pos (hP : P.Valid) : 0 < P.encChunk := by
  obtain ⟨-, hcap, -⟩ := hP
  rw [Params.encChunk]
  omega

/-- One pass of the loop, with the chunk as the front of the payload. -/
theorem encLoop_pass [DecidableEq Token] (fuel n : Nat) {p : Bytes} (s : State Token) (hp : p ≠ [])
    (hf : E.fault = .none) (hout : E.out.length = P.encCap) :
    encLoop P (fuel + 1) n p E s = (sinkWrite E.sink (enc (p.take P.encChunk)) s).andThen fun (a, t) =>
      encLoop P fuel (n + a.w / 2) (p.drop P.encChunk) (E.afterPass P p a) t := by
  have htake : p.take (min p.length P.encChunk) = p.take P.encChunk := by
    rw [Nat.min_comm, ← List.take_take, List.take_length]
  have hdrop : p.drop (min p.length P.encChunk) = p.drop P.encChunk := by
    rcases Nat.le_total p.length P.encChunk with hle | hle
    · rw [Nat.min_eq_left hle, List.drop_length, List.drop_of_length_le hle]
    · rw [Nat.min_eq_right hle]
  rw [encLoop_succ_eq P fuel n p E s (List.length_pos_iff.mpr hp) hf hout, htake, hdrop]
  simp only [EncSlot.afterPass, enc_length, List.length_take, Nat.min_comm P.encChunk]

/-! ## The passes of a finished write (R173, R175, R178) -/

theorem accepted_append (k : SinkId) (xs ys : List (AgentCall Token)) :
    accepted k (xs ++ ys) = accepted k xs ++ accepted k ys := by
  induction xs with
  | nil => rfl
  | cons c cs ih => cases c <;> simp only [List.cons_append, accepted, ih, List.append_assoc]

/-- `EncRun P p E m E' new`: a loop that ends, over the payload `p` from the encoder `E`, makes the progress `m` and the
calls `new` and leaves the encoder `E'`. -/
inductive EncRun (P : Params) : Bytes → EncSlot Token → Nat → EncSlot Token → List (AgentCall Token) → Prop where
  /-- The loop stops on an empty payload or a stored fault (R174). -/
  | stop (p : Bytes) (E : EncSlot Token) (h : p = [] ∨ E.fault ≠ .none) : EncRun P p E 0 E []
  /-- The Sink answers the first chunk inside its contract, and the loop goes on with the rest (R171). -/
  | pass (p : Bytes) (E : EncSlot Token) (a : SinkAnswer Token) (m : Nat) (E' : EncSlot Token)
      (new : List (AgentCall Token)) (hp : p ≠ []) (hf : E.fault = .none)
      (hw : a.w ≤ (enc (p.take P.encChunk)).length)
      (rest : EncRun P (p.drop P.encChunk) (E.afterPass P p a) m E' new) :
      EncRun P p E (a.w / 2 + m) E' (.sinkWrite E.sink (enc (p.take P.encChunk)) a :: new)

/-- A loop that is done has run as `EncRun` says. -/
theorem encLoop_run [DecidableEq Token] {fuel n n' : Nat} {p : Bytes} {E' : EncSlot Token} {s t : State Token}
    (hc : 0 < P.encChunk) (hfuel : p.length ≤ fuel) (hout : E.out.length = P.encCap)
    (h : encLoop P fuel n p E s = .done (n', E', t)) :
    ∃ m new, n' = n + m ∧ t.calls = s.calls ++ new ∧ EncRun P p E m E' new := by
  induction fuel generalizing n p E s with
  | zero =>
    cases h
    exact ⟨0, [], rfl, (List.append_nil _).symm, .stop _ _ (.inl (List.length_eq_zero_iff.mp (by omega)))⟩
  | succ fuel ih =>
    by_cases hstop : p = [] ∨ E.fault ≠ .none
    · rw [encLoop_stop P _ n p E s hstop] at h
      cases h
      exact ⟨0, [], rfl, (List.append_nil _).symm, .stop _ _ hstop⟩
    · obtain ⟨hp, hf⟩ := not_or.mp hstop
      have hf := not_not.mp hf
      rw [encLoop_pass fuel n s hp hf hout] at h
      obtain ⟨⟨a, u⟩, hs, hrest⟩ := Txn.andThen_eq_done.mp h
      obtain ⟨rest, -, hw, rfl⟩ := sinkWrite_eq_done.mp hs
      obtain ⟨m, new, rfl, hcalls, hrun⟩ :=
        ih (by have := List.length_pos_iff.mpr hp; rw [List.length_drop]; omega)
          (EncSlot.afterPass_out_length hout p a) hrest
      refine ⟨a.w / 2 + m, _, Nat.add_assoc .., ?_, .pass p E a m E' new hp hf hw hrun⟩
      rw [hcalls, List.append_assoc, List.singleton_append]

namespace EncRun

variable {p : Bytes} {m : Nat} {E' : EncSlot Token} {new : List (AgentCall Token)}

theorem sink_eq (run : EncRun P p E m E' new) : E'.sink = E.sink := by
  induction run with
  | stop => rfl
  | pass p E a _ _ _ _ _ _ _ ih => exact ih.trans (EncSlot.afterPass_sink p a)

/-- The progress is at most the payload: an answer is at most two characters a byte. -/
theorem progress_le (run : EncRun P p E m E' new) : m ≤ p.length := by
  induction run with
  | stop => exact Nat.zero_le _
  | pass p E a m E' new hp hf hw _ ih =>
    rw [enc_length, List.length_take] at hw
    rw [List.length_drop] at ih
    omega

/-- The Sink has been sent the text of the front of the payload, and all of it where every call was accepted in full
with no fault (R178). -/
theorem sent_front (run : EncRun P p E m E' new) : ∃ q, q <+: p ∧ sent E.sink new = enc q ∧
    (E.fault = .none → (∀ c ∈ new, ∃ v : Bytes, c = .sinkWrite E.sink v ⟨v.length, none⟩) →
      m = p.length ∧ E'.fault = .none ∧ q = p) := by
  induction run with
  | stop p E h =>
    refine ⟨[], List.nil_prefix, rfl, fun hf _ => ?_⟩
    obtain rfl := h.resolve_right (not_not.mpr hf)
    exact ⟨rfl, hf, rfl⟩
  | pass p E a m E' new hp hf hw _ ih =>
    obtain ⟨q, hq, hsent, hfull⟩ := ih
    refine ⟨p.take P.encChunk ++ q, ?_, ?_, fun _ hall => ?_⟩
    · rw [← List.prefix_append_right_inj (p.take P.encChunk), List.take_append_drop] at hq
      exact hq
    · rw [sent, if_pos rfl, enc_append, ← hsent, EncSlot.afterPass_sink]
    · obtain ⟨⟨v, hv⟩, hrest⟩ := List.forall_mem_cons.mp hall
      obtain ⟨-, rfl, rfl⟩ := AgentCall.sinkWrite.inj hv
      obtain ⟨rfl, hf', rfl⟩ := hfull hf hrest
      refine ⟨?_, hf', List.take_append_drop ..⟩
      rw [enc_length, Nat.mul_div_cancel_left _ Nat.two_pos, ← List.length_append, List.take_append_drop]

/-- Full progress leaves no byte of the payload undelivered: each pass must have been accepted in full (R179). -/
theorem accepted_of_full (run : EncRun P p E m E' new) (hm : m = p.length) : accepted E.sink new = enc p := by
  induction run with
  | stop p E h =>
    rw [List.length_eq_zero_iff.mp hm.symm]
    rfl
  | pass p E a m E' new hp hf hw rest ih =>
    have hle := rest.progress_le
    have hsplit := congrArg List.length (List.take_append_drop P.encChunk p)
    rw [List.length_append] at hsplit
    rw [enc_length] at hw
    rw [EncSlot.afterPass_sink] at ih
    rw [accepted, if_pos rfl, List.take_of_length_le (by rw [enc_length]; omega), ih (by omega), ← enc_append,
      List.take_append_drop]

end EncRun

end

section

variable {Token : Type} [DecidableEq Token] {P : Params} {h : Nat} {p : Bytes} {E : EncSlot Token} {s t : State Token}

/-- An ENC_WRITE that answers a response has run its loop to the end: the response is the progress and the fault of that
run (R175). -/
theorem encWrite_run {r : Response Token} (hP : P.Valid) (hs : s.Inv P) (hE : s.enc[h]? = some E)
    (ht : execWith P (.encWrite h p) s = .next t) (hr : t.responses = s.responses ++ [r]) :
    ∃ E' new, EncRun P p E r.count E' new ∧ r.data = [] ∧ r.status = E'.fault ∧ t.enc[h]? = some E' ∧
      t.calls = s.calls ++ new := by
  cases execWith_effect ht with
  | responds _ _ hone => cases hone
  | faults => simp at hr
  | encWaits => simp at hr
  | encWrite _ _ F n E' u hh hF ha hloop =>
    obtain rfl : E = F := Option.some.inj (hE.symm.trans hF)
    obtain ⟨m, new, rfl, hcalls, hrun⟩ := encLoop_run (encChunk_pos hP) le_rfl (inv_enc_wf hs hE).1 hloop
    have hframe := encLoop_frame hloop
    have henc : u.enc = s.enc := by rw [hframe]
    have hresp : u.responses = s.responses := by rw [hframe]
    rw [State.respond_responses, State.putEnc_responses, hresp] at hr
    obtain rfl := (List.append_singleton_inj.mp hr).2
    refine ⟨E', new, by simpa using hrun, rfl, rfl, ?_, hcalls⟩
    rw [State.respond_enc, State.putEnc_enc, henc]
    exact List.getElem?_set_self (List.getElem?_eq_some_iff.mp hE).1

/-- A write that is answered with full progress has delivered the text of its payload. -/
theorem encWrite_delivers {st : Status Token} (hP : P.Valid) (hs : s.Inv P) (hE : s.enc[h]? = some E)
    (ht : execWith P (.encWrite h p) s = .next t) (hr : t.responses = s.responses ++ [⟨p.length, [], st⟩]) :
    accepted E.sink t.calls = accepted E.sink s.calls ++ enc p := by
  obtain ⟨E', new, hrun, -, -, -, hcalls⟩ := encWrite_run hP hs hE ht hr
  rw [hcalls, accepted_append, hrun.accepted_of_full rfl]

/-- Writes that are each answered with full progress have delivered the text of all payloads: the Sink stays the slot's
and the invariant holds after each. -/
theorem writeAll_delivers {ps : List Bytes} (hP : P.Valid) (hs : s.Inv P) (hE : s.enc[h]? = some E)
    (ht : writeAll P h ps s = some t) : accepted E.sink t.calls = accepted E.sink s.calls ++ enc ps.flatten := by
  induction ps generalizing s E with
  | nil =>
    cases ht
    exact (List.append_nil _).symm
  | cons p ps ih =>
    rw [writeAll] at ht
    split at ht
    · next u hu =>
      obtain ⟨hr, ht⟩ := Option.ite_none_right_eq_some.mp ht
      obtain ⟨E', _, hrun, -, -, hE', -⟩ := encWrite_run hP hs hE hu hr
      have hrest := ih ((execWith_effect hu).keeps_inv hP hs) hE' ht
      rw [hrun.sink_eq, encWrite_delivers hP hs hE hu hr, List.append_assoc, ← enc_append] at hrest
      exact hrest
    · cases ht

end

/-! ## The two command words (R74) -/

/-- The opcode and the handle of the word `(h << 8) | op`. -/
theorem handleWord_fields {h op : Nat} (hh : h < 256) (hop : op < 256) :
    (BitVec.ofNat 16 (256 * h + op)).toNat % 256 = op ∧ (BitVec.ofNat 16 (256 * h + op)).toNat / 256 = h := by
  rw [BitVec.toNat_ofNat]
  omega

/-- The word `(h << 8) | 0x0B` is ENC_NEW on slot `h` (R170). -/
theorem decode_encNew {h : Nat} (hh : h < 256) (o : Operands) :
    decode (BitVec.ofNat 16 (256 * h + 0x0B)) o = .ok (.encNew h o.sink) := by
  obtain ⟨hop, hhandle⟩ := handleWord_fields (op := 0x0B) hh (by decide)
  rw [(decode_streaming _ o).1 hop, hhandle]

/-- The word `(h << 8) | 0x0C` is ENC_WRITE on slot `h` (R171). -/
theorem decode_encWrite {h : Nat} (hh : h < 256) (o : Operands) :
    decode (BitVec.ofNat 16 (256 * h + 0x0C)) o = .ok (.encWrite h o.p) := by
  obtain ⟨hop, hhandle⟩ := handleWord_fields (op := 0x0C) hh (by decide)
  rw [(decode_streaming _ o).2.1 hop, hhandle]

/-! ## ENC_NEW (R170) -/

section

variable {Token : Type} [DecidableEq Token] {P : Params} {h : Nat} {p : Bytes} {E : EncSlot Token} {s : State Token}

/-- ENC_NEW on a slot the parameters give constructs it, whatever it held. -/
theorem execWith_encNew (k : SinkId) (hh : h < P.numEncSlots) (hl : s.enc.length = P.numEncSlots) :
    execWith P (.encNew h k) s = .next ((s.drew.putEnc h (freshEnc P k s.draws)).respond ⟨0, [], .none⟩) := by
  rw [execWith, encNewWith, if_neg (Nat.not_le.mpr hh), if_neg (by omega)]

/-- ENC_NEW past the slots is the model fault. -/
theorem execWith_encNew_badHandle (k : SinkId) (hh : P.numEncSlots ≤ h) :
    execWith P (.encNew h k) s = .next (s.raiseFault .badHandle) := if_pos hh

/-! ## The transaction of ENC_WRITE (R171-R177) -/

/-- Without a byte to write, or with a fault stored, ENC_WRITE only answers (R174, R176, R177). -/
theorem execWith_encWrite_stop (hh : h < P.numEncSlots) (hE : s.enc[h]? = some E) (ha : E.alloc = true)
    (hstop : p = [] ∨ E.fault ≠ .none) : execWith P (.encWrite h p) s = .next (s.respond ⟨0, [], E.fault⟩) := by
  simp only [execWith_encWrite hh hE ha, encTransaction, encLoop_stop P _ _ _ _ _ hstop, Txn.done_andThen,
    State.putEnc_same hE, conclude]

/-- The transaction of ENC_WRITE that is done has added one response. -/
theorem encTransaction_responses {t : State Token} (ht : encTransaction P h p E s = .done t) :
    ∃ r, t.responses = s.responses ++ [r] := by
  obtain ⟨n, E', u, hloop, rfl⟩ := encTransaction_eq_done.mp ht
  rw [encLoop_frame hloop]
  exact ⟨_, rfl⟩

/-- A command other than ENC_NEW on its slot leaves a faulted encoder as it is: ENC_WRITE on the slot stops at once, and
no other command writes it (R176, R257). -/
theorem Effect.faulted_encoder {i : Instr} {t : State Token} (he : Effect P s i t) (hE : s.enc[h]? = some E)
    (hf : E.fault ≠ .none) (hi : ∀ k, i ≠ .encNew h k) : t.enc[h]? = some E := by
  cases he with
  | responds | faults | encWaits | decWaits | decNew => exact hE
  | encNew j k =>
    have hj : h ≠ j := fun hj => hi k (by rw [hj])
    exact (List.getElem?_set_ne hj.symm).trans hE
  | decRead j n D _ hs hD ha htx =>
    obtain ⟨henc, -, -⟩ := (Effect.decRead j n D t hs hD ha htx).decoder_frame (.inr ⟨n, rfl⟩)
    rw [henc]
    exact hE
  | encWrite j p F n E' u hs hF ha hloop =>
    by_cases hj : h = j
    · subst hj
      obtain rfl : E = F := Option.some.inj (hE.symm.trans hF)
      rw [encLoop_stop P _ _ _ _ _ (.inr hf)] at hloop
      cases hloop
      rw [State.putEnc_same hE]
      exact hE
    · obtain ⟨-, -, hother⟩ := (Effect.encWrite j p F n E' u hs hF ha hloop).encoder_frame (.inr ⟨p, rfl⟩)
      rw [hother h hj]
      exact hE

/-- The transaction reads the encoder it is given and not the record its slot holds. -/
theorem encTransaction_putEnc (F : EncSlot Token) :
    encTransaction P h p E (s.putEnc h F) = encTransaction P h p E s := by
  have hslots := encLoop_slots P p.length 0 p E s (s.enc.set h F) s.dec
  rw [encTransaction, State.putEnc, hslots, encTransaction]
  cases hloop : encLoop P p.length 0 p E s with
  | done x =>
    obtain ⟨n, E', t⟩ := x
    have hframe := encLoop_frame hloop
    have henc : t.enc = s.enc := by rw [hframe]
    have hdec : t.dec = s.dec := by rw [hframe]
    simp only [Txn.done_andThen, State.putEnc, List.set_set, henc, ← hdec]
  | _ => rfl

/-- `s` with `k` added to the count of its last response. -/
def State.addProgress (k : Nat) (s : State Token) : State Token :=
  { s with responses := s.responses.dropLast ++
      (s.responses.getLast?.map fun r => { r with count := k + r.count }).toList }

omit [DecidableEq Token] in
/-- `State.addProgress` on a state whose last response is `r`. -/
theorem State.addProgress_eq {k : Nat} {rs : List (Response Token)} {r : Response Token}
    (hr : s.responses = rs ++ [r]) :
    s.addProgress k = { s with responses := rs ++ [⟨k + r.count, r.data, r.status⟩] } := by
  rw [State.addProgress, hr, List.dropLast_concat, List.getLast?_concat]
  rfl

omit [DecidableEq Token] in
theorem State.addProgress_respond (k n : Nat) (data : Bytes) (st : Status Token) :
    (s.respond ⟨n, data, st⟩).addProgress k = s.respond ⟨k + n, data, st⟩ :=
  State.addProgress_eq (State.respond_responses s ⟨n, data, st⟩)

/-- The state after a Sink call on the front of `p`, with the answers `rest` still to come. -/
def afterSinkCall (P : Params) (E : EncSlot Token) (p : Bytes) (a : SinkAnswer Token)
    (rest : List (SinkId × SinkAnswer Token)) (s : State Token) : State Token :=
  { s with sinkAnswers := rest, calls := s.calls ++ [.sinkWrite E.sink (enc (p.take P.encChunk)) a] }

section

variable {a : SinkAnswer Token} {rest : List (SinkId × SinkAnswer Token)}
  (hp : p ≠ []) (hf : E.fault = .none) (hout : E.out.length = P.encCap)
  (hpop : popAnswer E.sink s.sinkAnswers = some (a, rest)) (hw : a.w ≤ (enc (p.take P.encChunk)).length)
include hp hf hout hpop hw

/-- One pass whose Sink call is answered inside its contract. -/
theorem encLoop_pass_answered (fuel n : Nat) : encLoop P (fuel + 1) n p E s =
    encLoop P fuel (n + a.w / 2) (p.drop P.encChunk) (E.afterPass P p a) (afterSinkCall P E p a rest s) := by
  rw [encLoop_pass fuel n s hp hf hout, sinkWrite_eq_done.mpr ⟨rest, hpop, hw, rfl⟩]
  rfl

/-- The transaction on a payload with a byte to write: one Sink call, then the loop over the rest with `w / 2` added to
its progress. -/
theorem encTransaction_pass (hP : P.Valid) :
    encTransaction P h p E s =
      (encLoop P (p.drop P.encChunk).length 0 (p.drop P.encChunk) (E.afterPass P p a)
        (afterSinkCall P E p a rest s)).andThen fun (n, E', t) =>
          .done ((t.putEnc h E').respond ⟨a.w / 2 + n, [], E'.fault⟩) := by
  have hchunk := encChunk_pos hP
  obtain ⟨fuel, hfuel⟩ := Nat.exists_eq_succ_of_ne_zero (mt List.length_eq_zero_iff.mp hp)
  have hloop : encLoop P p.length 0 p E s =
      encLoop P (p.drop P.encChunk).length (a.w / 2) (p.drop P.encChunk) (E.afterPass P p a)
        (afterSinkCall P E p a rest s) := by
    rw [hfuel, encLoop_pass_answered hp hf hout hpop hw, Nat.zero_add]
    exact encLoop_fuel hchunk (by rw [List.length_drop]; omega) le_rfl
  rw [encTransaction, hloop, ← Nat.add_zero (a.w / 2), encLoop_offset, Nat.add_zero]
  cases encLoop P (p.drop P.encChunk).length 0 (p.drop P.encChunk) (E.afterPass P p a)
    (afterSinkCall P E p a rest s) <;> rfl

/-- A pass that is the last one, by a signalled fault or an empty rest, ends the transaction. -/
theorem encTransaction_lastPass (hP : P.Valid) (hlast : p.drop P.encChunk = [] ∨ (E.afterPass P p a).fault ≠ .none) :
    encTransaction P h p E s = .done (((afterSinkCall P E p a rest s).putEnc h (E.afterPass P p a)).respond
      ⟨a.w / 2, [], (E.afterPass P p a).fault⟩) := by
  rw [encTransaction_pass hp hf hout hpop hw hP, encLoop_stop P _ _ _ _ _ hlast]
  rfl

/-- A transaction after its first pass is the transaction on the rest, in the state after the call, with `w / 2` added
to the count of its response: it waits where that one waits and is refused where that one is (log 8, log 9). -/
theorem encTransaction_rest (hP : P.Valid) :
    encTransaction P h p E s =
      (encTransaction P h (p.drop P.encChunk) (E.afterPass P p a)
        ((afterSinkCall P E p a rest s).putEnc h (E.afterPass P p a))).andThen fun u =>
          .done (u.addProgress (a.w / 2)) := by
  rw [encTransaction_putEnc, encTransaction_pass hp hf hout hpop hw hP, encTransaction]
  cases encLoop P (p.drop P.encChunk).length 0 (p.drop P.encChunk) (E.afterPass P p a)
    (afterSinkCall P E p a rest s) with
  | done x => exact congrArg Txn.done (State.addProgress_respond ..).symm
  | _ => rfl

end

end

/-! ## A payload in chunks (R172) -/

/-- The chunks of at most `c` bytes that the loop takes from the front of a payload (none where `c = 0`). -/
def payloadChunks (c : Nat) (p : Bytes) : List Bytes :=
  if p = [] ∨ c = 0 then [] else p.take c :: payloadChunks c (p.drop c)
termination_by p.length
decreasing_by
  have := List.length_pos_iff.mpr (not_or.mp ‹_›).1
  rw [List.length_drop]
  omega

@[simp] theorem payloadChunks_nil (c : Nat) : payloadChunks c [] = [] := by rw [payloadChunks, if_pos (.inl rfl)]

theorem payloadChunks_cons {c : Nat} {p : Bytes} (hc : 0 < c) (hp : p ≠ []) :
    payloadChunks c p = p.take c :: payloadChunks c (p.drop c) := by
  rw [payloadChunks, if_neg (not_or.mpr ⟨hp, hc.ne'⟩)]

/-- Induction over a payload chunk by chunk. -/
theorem payload_induction {motive : Bytes → Prop} {c : Nat} (hc : 0 < c) (nil : motive [])
    (chunk : ∀ p, p ≠ [] → motive (p.drop c) → motive p) (p : Bytes) : motive p := by
  induction p using payloadChunks.induct (c := c) with
  | case1 p h => rwa [h.resolve_right hc.ne']
  | case2 p h ih => exact chunk p (not_or.mp h).1 ih

section

variable {c : Nat} (hc : 0 < c) (p : Bytes)
include hc

theorem flatten_payloadChunks : (payloadChunks c p).flatten = p := by
  induction p using payload_induction hc with
  | nil => rw [payloadChunks_nil]; rfl
  | chunk p hp ih => rw [payloadChunks_cons hc hp, List.flatten_cons, ih, List.take_append_drop]

theorem payloadChunks_getElem? {j : Nat} {u : Bytes} (hu : (payloadChunks c p)[j]? = some u) :
    u = (p.drop (c * j)).take c := by
  induction p using payload_induction hc generalizing j with
  | nil => rw [payloadChunks_nil] at hu; cases hu
  | chunk p hp ih =>
    rw [payloadChunks_cons hc hp] at hu
    cases j with
    | zero => exact (Option.some.inj hu).symm
    | succ j => rw [ih hu, List.drop_drop, Nat.mul_succ, Nat.add_comm]

/-- The chunks by their lengths: `m / c` full ones, and a shorter last one where `c` does not divide `m`. -/
theorem map_length_payloadChunks {β : Type} (f : Nat → β) :
    (payloadChunks c p).map (fun u => f u.length) =
      List.replicate (p.length / c) (f c) ++ if p.length % c = 0 then [] else [f (p.length % c)] := by
  induction p using payload_induction hc with
  | nil => simp
  | chunk p hp ih =>
    rw [payloadChunks_cons hc hp, List.map_cons]
    rcases Nat.lt_or_ge p.length c with hlt | hle
    · have hne : p.length ≠ 0 := mt List.length_eq_zero_iff.mp hp
      rw [List.drop_of_length_le hlt.le, payloadChunks_nil, List.take_of_length_le hlt.le, Nat.div_eq_of_lt hlt,
        Nat.mod_eq_of_lt hlt, if_neg hne]
      rfl
    · rw [ih, List.length_take_of_le hle, List.length_drop, ← Nat.mod_eq_sub_mod hle,
        Nat.div_eq_sub_div hc hle, List.replicate_succ, List.cons_append]

theorem length_payloadChunks :
    (payloadChunks c p).length = p.length / c + if p.length % c = 0 then 0 else 1 := by
  have h := congrArg List.length (map_length_payloadChunks hc p id)
  rwa [List.length_map, List.length_append, List.length_replicate, apply_ite List.length] at h

end

/-! ## A write whose Sink accepts everything (R172, R178) -/

section

variable {Token : Type}

/-- The answer that accepts the text of a chunk in full with no fault. -/
def fullAnswer (u : Bytes) : SinkAnswer Token := ⟨2 * u.length, none⟩

/-- The call that hands the text of a chunk to Sink `k`, so answered. -/
def fullCall (k : SinkId) (u : Bytes) : AgentCall Token := .sinkWrite k (enc u) (fullAnswer u)

theorem sent_map_fullCall (k : SinkId) (us : List Bytes) :
    sent k (us.map (fullCall (Token := Token) k)) = enc us.flatten := by
  induction us with
  | nil => rfl
  | cons u us ih => rw [List.map_cons, fullCall, sent, if_pos rfl, ih, List.flatten_cons, enc_append]

theorem accepted_map_fullCall (k : SinkId) (us : List Bytes) :
    accepted k (us.map (fullCall (Token := Token) k)) = enc us.flatten := by
  induction us with
  | nil => rfl
  | cons u us ih =>
    rw [List.map_cons, fullCall, accepted, if_pos rfl, ih, fullAnswer, ← enc_length, List.take_length,
      List.flatten_cons, enc_append]

/-- The loop over a payload whose every chunk the Sink accepts in full: it makes one call a chunk and full progress, and
changes the encoder in its scratch buffer alone. -/
theorem encLoop_accepting [DecidableEq Token] {P : Params} {E : EncSlot Token} {fuel n : Nat} {p : Bytes}
    {s : State Token} {rest : List (SinkId × SinkAnswer Token)} (hc : 0 < P.encChunk) (hfuel : p.length ≤ fuel)
    (hf : E.fault = .none) (hout : E.out.length = P.encCap)
    (hq : s.sinkAnswers = (payloadChunks P.encChunk p).map (fun u => (E.sink, fullAnswer u)) ++ rest) :
    ∃ out : Bytes, out.length = P.encCap ∧ encLoop P fuel n p E s = .done (n + p.length, { E with out := out },
      { s with sinkAnswers := rest, calls := s.calls ++ (payloadChunks P.encChunk p).map (fullCall E.sink) }) := by
  induction p using payload_induction hc generalizing fuel n E s with
  | nil =>
    rw [payloadChunks_nil, List.map_nil, List.nil_append] at hq
    refine ⟨E.out, hout, ?_⟩
    rw [encLoop_stop P _ _ _ _ _ (.inl rfl), payloadChunks_nil, List.map_nil, List.append_nil, ← hq]
    rfl
  | chunk p hp ih =>
    obtain ⟨fuel, rfl⟩ : ∃ k, fuel = k + 1 := Nat.exists_eq_succ_of_ne_zero (by
      have := List.length_pos_iff.mpr hp
      omega)
    rw [payloadChunks_cons hc hp, List.map_cons, List.cons_append] at hq
    have hpop := (congrArg (popAnswer E.sink) hq).trans (popAnswer_head ..)
    have hrest : (p.drop P.encChunk).length ≤ fuel := by
      rw [List.length_drop]
      omega
    have hcount : n + (fullAnswer (Token := Token) (p.take P.encChunk)).w / 2 + (p.drop P.encChunk).length =
        n + p.length := by
      rw [fullAnswer, Nat.mul_div_cancel_left _ Nat.two_pos, Nat.add_assoc, ← List.length_append, List.take_append_drop]
    obtain ⟨out, hout', hloop⟩ := ih (E := E.afterPass P p (fullAnswer (p.take P.encChunk)))
      (n := n + (fullAnswer (Token := Token) (p.take P.encChunk)).w / 2)
      (s := afterSinkCall P E p (fullAnswer (p.take P.encChunk)) _ s)
      hrest hf (EncSlot.afterPass_out_length hout p _) rfl
    refine ⟨out, hout', (encLoop_pass_answered hp hf hout hpop (enc_length _).ge fuel n).trans (hloop.trans ?_)⟩
    rw [hcount, payloadChunks_cons hc hp, List.map_cons, List.append_cons]
    rfl

end

end Sys2Proof.Machine

/-! ## The statements -/

namespace Sys2Proof.Machine

/-- Settles O47: induction over the writes, each of which delivers its own text. -/
theorem anyChunkingDeliversTheSameText : Obligations.AnyChunkingDeliversTheSameText :=
  fun _ _ _ _ _ _ _ _ hP => writeAll_delivers hP

/-- Settles O41: the last pass in the first two clauses, the transaction on the rest in the third. -/
theorem encWriteHandsTheFirstChunkToTheSink : Obligations.EncWriteHandsTheFirstChunkToTheSink := by
  refine ⟨fun h o hh => decode_encWrite hh o, ?_⟩
  intro h p E a before after s hh hE ha hf hout hp hq hb hw v E1 s1
  have hP : Config.params.Valid := by decide
  have hpop : popAnswer E.sink s.sinkAnswers = some (a, before ++ after) := by rw [hq]; exact popAnswer_first hb
  have hw' : a.w ≤ (enc (p.take Config.params.encChunk)).length := by
    rw [enc_length, List.length_take, Nat.min_comm]
    exact hw
  have hE1 (hsig : a.sig = none) : E.afterPass Config.params p a = E1 := by
    rw [EncSlot.afterPass, hsig]
    rfl
  have hexec : exec (.encWrite h p) s = conclude s (encTransaction Config.params h p E s) := by
    rw [exec_default, execWith_encWrite hh hE ha]
  refine ⟨fun t hsig => ?_, fun hsig hlen => ?_, ?_⟩
  · have hfault : (E.afterPass Config.params p a).fault = .ioFault t := by rw [EncSlot.afterPass_fault, hsig]; rfl
    rw [hexec, encTransaction_lastPass hp hf hout hpop hw' hP (.inr (by rw [hfault]; nofun)), hfault,
      EncSlot.afterPass, hsig]
    rfl
  · rw [hexec, encTransaction_lastPass hp hf hout hpop hw' hP (.inl (List.drop_of_length_le hlen)), hE1 hsig,
      show E1.fault = .none from hf]
    rfl
  · intro hsig _ s2
    have hE2 : s2.enc[h]? = some E1 := List.getElem?_set_self (List.getElem?_eq_some_iff.mp hE).1
    have hexec2 : exec (.encWrite h (p.drop 512)) s2 =
        conclude s2 (encTransaction Config.params h (p.drop 512) E1 s2) := by
      rw [exec_default, execWith_encWrite hh hE2 ha]
    have hrest : encTransaction Config.params h p E s = (encTransaction Config.params h (p.drop 512) E1 s2).andThen
        fun u => .done (u.addProgress (a.w / 2)) := by
      rw [encTransaction_rest hp hf hout hpop hw' hP, hE1 hsig]
      rfl
    rw [hexec, hexec2, hrest]
    refine ⟨fun u r hu hr => ?_, fun hu => ?_, fun e he => ?_⟩
    · rcases conclude_eq_next.mp hu with hu | ⟨-, rfl⟩
      · rw [hu, Txn.done_andThen, State.addProgress_eq hr]
        rfl
      · exact absurd hr (by simp [s2, s1])
    · rcases conclude_eq_next.mp hu with hu | ⟨hu, -⟩
      · obtain ⟨r, hr⟩ := encTransaction_responses hu
        exact absurd hr (by simp)
      · rw [hu]
        rfl
    · rw [conclude_eq_refused.mp he]
      rfl

/-- Settles O42: the answers are the chunks', one by one, so each chunk is accepted in full. -/
theorem encWriteCompletesWhenTheSinkAcceptsAll : Obligations.EncWriteCompletesWhenTheSinkAcceptsAll := by
  intro h p E rest s hh hE ha hf hout hq
  have hc : 0 < Config.params.encChunk := by decide
  have hflat := flatten_payloadChunks hc p
  have hanswers : s.sinkAnswers =
      (payloadChunks Config.params.encChunk p).map (fun u => (E.sink, fullAnswer u)) ++ rest :=
    hq.trans (congrArg (· ++ rest) (map_length_payloadChunks hc p fun m => (E.sink, (⟨2 * m, none⟩ : SinkAnswer))).symm)
  obtain ⟨out, hout', hloop⟩ := encLoop_accepting (n := 0) hc le_rfl hf hout hanswers
  refine ⟨out, (payloadChunks Config.params.encChunk p).map (fullCall E.sink), hout', ?_, ?_, ?_, ?_, fun j c hj => ?_⟩
  · rw [exec_default, execWith_encWrite hh hE ha, encTransaction, hloop, Nat.zero_add, ← hf]
    rfl
  · rw [accepted_map_fullCall, hflat]
  · rw [sent_map_fullCall, hflat]
  · rw [List.length_map]
    exact length_payloadChunks hc p
  · rw [List.getElem?_map, Option.map_eq_some_iff] at hj
    obtain ⟨u, hu, rfl⟩ := hj
    rw [payloadChunks_getElem? hc p hu]
    exact ⟨_, rfl⟩

/-- Settles O45, by the passes of the write that answered. -/
theorem encWriteProgressIsBounded : Obligations.EncWriteProgressIsBounded := by
  intro h p E s t r hs hE ht hr
  rw [exec_default] at ht
  obtain ⟨E', new, hrun, hdata, hstatus, hE', hcalls⟩ := encWrite_run (by decide) hs hE ht hr
  obtain ⟨q, hq, hsent, hfull⟩ := hrun.sent_front
  refine ⟨hrun.progress_le, hdata, ⟨E', hE', hstatus⟩, new, q, hcalls, hq, hsent, ?_⟩
  rwa [hstatus]

/-- Settles O46: a pass that is not accepted in full costs progress. -/
theorem fullProgressMeansTheTextIsDelivered : Obligations.FullProgressMeansTheTextIsDelivered := by
  intro h p E s t st hs hE ht hr
  rw [exec_default] at ht
  exact encWrite_delivers (by decide) hs hE ht hr

/-- Settles O48, by the cases of `Effect`: only ENC_WRITE on the slot reaches the record, and its loop stops at once. -/
theorem encoderFaultIsSticky : Obligations.EncoderFaultIsSticky := by
  intro i h E s t hE hf hi ht
  rw [exec_default] at ht
  exact (execWith_effect ht).faulted_encoder hE hf hi

/-- Settles O40, by the two equations of ENC_NEW. -/
theorem encNewConstructsACleanEncoder : Obligations.EncNewConstructsACleanEncoder := by
  refine ⟨fun h o hh => decode_encNew hh o, fun h k s => ⟨fun hh hl => ?_, fun hh => ?_⟩,
    fun Token _ P h k s _ => ⟨fun hh hl => ?_, execWith_encNew_badHandle k⟩⟩
  · exact ⟨_, _, freeBytes_length .., (exec_default _ s).trans (execWith_encNew k hh hl)⟩
  · exact (exec_default _ s).trans (execWith_encNew_badHandle k hh)
  · exact ⟨_, _, freeBytes_length .., execWith_encNew k hh hl⟩

/-- Settles O43: a stored fault stops the loop at once. -/
theorem encWriteOnAFaultedEncoderDoesNothing : Obligations.EncWriteOnAFaultedEncoderDoesNothing := by
  intro h p E s hh hE ha hf
  rw [exec_default]
  exact execWith_encWrite_stop hh hE ha (.inr hf)

/-- Settles O44: an empty payload stops the loop at once. -/
theorem encWriteOfNothingCallsNoSink : Obligations.EncWriteOfNothingCallsNoSink := by
  intro h E s hh hE ha
  rw [exec_default]
  exact execWith_encWrite_stop hh hE ha (.inl rfl)

end Sys2Proof.Machine

/-! The statements of 45_stream_decoder.md: DEC_NEW, the two paths of DEC_READ, and what a decoder read to the end of
its stream answers. -/

namespace Sys2Proof.Machine

/-! ## DEC_NEW (R200) -/

/-- The word `(h << 8) | 0x0D` is DEC_NEW on slot `h` (R74, R200). -/
theorem decode_decNew {h : Nat} (hh : h < 256) (o : Operands) :
    decode (BitVec.ofNat 16 (256 * h + 0x0D)) o = .ok (.decNew h o.source) := by
  obtain ⟨hop, hhandle⟩ := handleWord_fields (op := 0x0D) hh (by decide)
  rw [(decode_streaming _ o).2.2.1 hop, hhandle]

section

variable {Token : Type} [DecidableEq Token] {P : Params} {h : Nat} {s : State Token}

/-- DEC_NEW on a slot the parameters give constructs it, whatever it held. -/
theorem execWith_decNew (k : SourceId) (hh : h < P.numDecSlots) (hl : s.dec.length = P.numDecSlots) :
    execWith P (.decNew h k) s = .next ((s.drew.putDec h (freshDec P k s.draws)).respond ⟨0, [], .none⟩) := by
  rw [execWith, decNewWith, if_neg (Nat.not_le.mpr hh), if_neg (by omega)]

/-- DEC_NEW past the slots is the model fault. -/
theorem execWith_decNew_badHandle (k : SourceId) (hh : P.numDecSlots ≤ h) :
    execWith P (.decNew h k) s = .next (s.raiseFault .badHandle) := if_pos hh

end

/-! ## DECODING and the response (R204-R207) -/

section

variable {Token : Type} {D : DecSlot Token} {n : Nat}

/-- The whole pairs a read of `n` bytes decodes, at the front of the pending view (R204). -/
def DecSlot.front (D : DecSlot Token) (n : Nat) : Bytes := D.pending.take (2 * min n (D.len / 2))

/-- A decoder with fewer than 2 pending bytes has no pair to decode. -/
theorem DecSlot.front_of_lt (hlen : D.len < 2) : D.front n = [] := by
  rw [DecSlot.front, Nat.div_eq_of_lt hlen, Nat.min_zero, Nat.mul_zero, List.take_zero]

/-- A response with a status is that of a drained decoder, whose fault it is (R207). -/
theorem drained_of_surfaced (h : surfaced D ≠ .none) : D.len < 2 ∧ D.fault = surfaced D := by
  unfold surfaced at h ⊢
  split at h
  · next hlen => exact ⟨hlen, (if_pos hlen).symm⟩
  · exact absurd rfl h

/-- A response without status is that of a decoder that is not FAULTED (R33). -/
theorem not_faulted_of_surfaced (h : surfaced D = .none) : D.fault = .none ∨ 2 ≤ D.len := by
  unfold surfaced at h
  split at h
  · exact .inl h
  · exact .inr (by omega)

/-- No response of DEC_READ says ODD_LENGTH, since no decoder stores it (R206, R242). -/
theorem DecSlot.Wf.surfaced_ne_oddLength {P : Params} (hD : D.Wf P) : surfaced D ≠ .oddLength := by
  obtain ⟨-, -, hodd⟩ := hD
  unfold surfaced
  split
  · exact hodd
  · nofun

variable [DecidableEq Token] {P : Params}

/-- The decoder after DECODING: the pairs leave the view, or an error discards it and is stored (R205, R206). -/
def DecSlot.decoded (P : Params) (D : DecSlot Token) (n : Nat) : DecSlot Token :=
  if (dec P (D.front n) Token).2 = .none then
    { D with off := D.off + 2 * min n (D.len / 2), len := D.len - 2 * min n (D.len / 2) }
  else { D with off := 0, len := 0, fault := (dec P (D.front n) Token).2 }

/-- The response of a read that decodes on `D` (R207). -/
def DecSlot.reply (P : Params) (D : DecSlot Token) (n : Nat) : Response Token :=
  ⟨(dec P (D.front n) Token).1.length, (dec P (D.front n) Token).1, surfaced (D.decoded P n)⟩

theorem DecSlot.decoded_of_none (h : (dec P (D.front n) Token).2 = .none) : D.decoded P n =
    { D with off := D.off + 2 * min n (D.len / 2), len := D.len - 2 * min n (D.len / 2) } := if_pos h

theorem DecSlot.decoded_of_error (h : (dec P (D.front n) Token).2 ≠ .none) :
    D.decoded P n = { D with off := 0, len := 0, fault := (dec P (D.front n) Token).2 } := if_neg h

theorem DecSlot.decoded_of_lt (hlen : D.len < 2) : D.decoded P n = D := by
  rw [DecSlot.decoded_of_none (by rw [DecSlot.front_of_lt hlen, dec_nil]), Nat.div_eq_of_lt hlen, Nat.min_zero]
  rfl

@[simp] theorem DecSlot.decoded_alloc : (D.decoded P n).alloc = D.alloc := by
  unfold DecSlot.decoded
  split <;> rfl

@[simp] theorem DecSlot.decoded_source : (D.decoded P n).source = D.source := by
  unfold DecSlot.decoded
  split <;> rfl

/-- DECODING on a decoder whose pending view is inside its buffer. -/
theorem decodeStep_decoded (hin : D.off + D.len ≤ D.arr.length) :
    decodeStep P D n = .done (D.decoded P n, (dec P (D.front n) Token).1) := by
  have hfront : D.front n = (D.arr.drop D.off).take (2 * min n (D.len / 2)) := by
    rw [DecSlot.front, DecSlot.pending, List.take_take, Nat.min_eq_left (by omega)]
  rw [DecSlot.decoded, hfront, decodeStep, memRead_inside (by omega), Txn.done_andThen]
  split <;> rfl

/-- DECODING keeps a decoder well formed. -/
theorem DecSlot.Wf.decoded (hD : D.Wf P) : (D.decoded P n).Wf P :=
  (decodeStep_wf hD (decodeStep_decoded (hD.2.1.trans_eq hD.1.symm))).1

/-- A decode error is surfaced at once (R206). -/
theorem dec_front_of_reply_none (h : (D.reply P n).status = .none) : (dec P (D.front n) Token).2 = .none := by
  by_contra herr
  rw [DecSlot.reply, DecSlot.decoded_of_error herr] at h
  exact herr h

end

/-! ## The path with no fill (R209) -/

section

variable {Token : Type} [DecidableEq Token] {P : Params} {h n : Nat} {D : DecSlot Token} {s : State Token}

/-- A decoder whose read calls its Source: fewer than 2 pending bytes and no fault (R202). -/
abbrev DecSlot.Starved (D : DecSlot Token) : Prop := D.len < 2 ∧ D.fault = .none

/-- DEC_READ's transaction on a decoder that is not starved: DECODING on the record as it is, and no Source call. -/
theorem decTransaction_fed (hfed : ¬ D.Starved) (hin : D.off + D.len ≤ D.arr.length) :
    decTransaction P h n D s = .done ((s.putDec h (D.decoded P n)).respond (D.reply P n)) := by
  rw [decTransaction_eq, if_neg hfed, decodeStep_decoded hin]
  rfl

/-- DEC_READ's transaction on a FAULTED decoder only answers (R208). -/
theorem decTransaction_faulted (hD : s.dec[h]? = some D) (hf : D.fault ≠ .none) (hlen : D.len < 2)
    (hin : D.off + D.len ≤ D.arr.length) : decTransaction P h n D s = .done (s.respond ⟨0, [], D.fault⟩) := by
  rw [decTransaction_fed (fun hst => hf hst.2) hin, DecSlot.reply, DecSlot.decoded_of_lt hlen,
    DecSlot.front_of_lt hlen, State.putDec_same hD, surfaced, if_pos hlen]
  rfl

/-- The row FAULTED of the phase table (R33). -/
theorem DecSlot.phase_eq_faulted : D.phase = .faulted ↔ D.fault ≠ .none ∧ D.len < 2 := by
  unfold DecSlot.phase
  split
  · next hf => exact ⟨nofun, fun h => absurd hf h.1⟩
  · next hf =>
    split
    · next hlen => exact ⟨nofun, fun h => absurd h.2 (Nat.not_lt.mpr hlen)⟩
    · next hlen => exact ⟨fun _ => ⟨hf, Nat.not_le.mp hlen⟩, fun _ => rfl⟩

/-- A command other than DEC_NEW on its slot leaves a FAULTED decoder as it is: DEC_READ on the slot only answers, and
no other command writes it (R208, R257). -/
theorem Effect.faulted_decoder {i : Instr} {t : State Token} (he : Effect P s i t) (hD : s.dec[h]? = some D)
    (hf : D.fault ≠ .none) (hlen : D.len < 2) (hin : D.off + D.len ≤ D.arr.length) (hi : ∀ k, i ≠ .decNew h k) :
    t.dec[h]? = some D := by
  cases he with
  | responds | faults | encWaits | decWaits | encNew => exact hD
  | encWrite j p E n E' u hs hE ha hloop =>
    obtain ⟨hdec, -, -⟩ := (Effect.encWrite j p E n E' u hs hE ha hloop).encoder_frame (.inr ⟨p, rfl⟩)
    rw [hdec]
    exact hD
  | decNew j k =>
    have hj : h ≠ j := fun hj => hi k (by rw [hj])
    exact (List.getElem?_set_ne hj.symm).trans hD
  | decRead j n F _ hs hF ha htx =>
    by_cases hj : h = j
    · subst hj
      obtain rfl : D = F := Option.some.inj (hD.symm.trans hF)
      rw [decTransaction_faulted hD hf hlen hin] at htx
      cases htx
      exact hD
    · obtain ⟨-, -, hother⟩ := (Effect.decRead j n F t hs hF ha htx).decoder_frame (.inr ⟨n, rfl⟩)
      rw [hother h hj]
      exact hD

/-- A DEC_READ that answers a response has run its transaction to the end. -/
theorem decRead_transaction {t : State Token} {r : Response Token} (ht : execWith P (.decRead h n) s = .next t)
    (hr : t.responses = s.responses ++ [r]) :
    ∃ D, h < P.numDecSlots ∧ s.dec[h]? = some D ∧ D.alloc = true ∧ decTransaction P h n D s = .done t := by
  cases execWith_effect ht with
  | responds _ _ hone => cases hone
  | faults => simp at hr
  | decWaits => simp at hr
  | decRead _ _ D _ hh hD ha htx => exact ⟨D, hh, hD, ha, htx⟩

end

/-! ## The text a decode has still to read (R140, R201) -/

section

variable {Token : Type} {P : Params}

/-- An error in whole pairs ends the decode: what follows them is never read (R144). -/
theorem dec_append_of_error {t : Bytes} (heven : t.length % 2 = 0) (herr : (dec P t Token).2 ≠ .none) (u : Bytes) :
    dec P (t ++ u) Token = dec P t Token := by
  induction t using dec.induct (P := P) (Token := Token) with
  | case1 => exact absurd rfl herr
  | case2 c hc | case3 c hc => cases heven
  | case4 p q rest hp hq ih =>
    rw [dec_pair_valid hp hq] at herr ⊢
    rw [List.cons_append, List.cons_append, dec_pair_valid hp hq,
      ih (by simpa [Nat.add_assoc] using heven) herr]
  | case5 p q rest hp hq =>
    rw [List.cons_append, List.cons_append, dec_pair_low_invalid hp hq, dec_pair_low_invalid hp hq]
  | case6 p q rest hp =>
    rw [List.cons_append, List.cons_append, dec_pair_high_invalid hp, dec_pair_high_invalid hp]

/-- The status a stream ends with, by the status of the one-shot decode of its text (R213). -/
def streamStatus : Status Token → Status Token
  | .none => .endOfStream
  | .oddLength => .unexpectedEos
  | e => e

theorem streamStatus_of_error {st : Status Token} (hnone : st ≠ .none) (hodd : st ≠ .oddLength) :
    streamStatus st = st := by
  cases st with
  | none => exact absurd rfl hnone
  | oddLength => exact absurd rfl hodd
  | _ => rfl

/-- Whole pairs leave the verdict of a fill as it is: it speaks of the parity and of the last byte alone (R203). -/
theorem fillVerdict_drop {S : Bytes} {m : Nat} (hm : 2 * m ≤ S.length) (sig : SourceSig Token) :
    fillVerdict (S.drop (2 * m)) sig = fillVerdict S sig := by
  cases sig with
  | none | ioFault => rfl
  | endOfStream =>
    have hparity : (S.drop (2 * m)).length % 2 = S.length % 2 := by rw [List.length_drop]; omega
    rcases Nat.mod_two_eq_zero_or_one S.length with heven | hodd
    · simp only [fillVerdict, hparity, heven, if_true]
    · have hlast : (S.drop (2 * m)).getLastD 0#8 = S.getLastD 0#8 := by
        rw [List.getLastD_eq_getLast?, List.getLast?_drop, if_neg (by omega), List.getLastD_eq_getLast?]
      simp only [fillVerdict, hparity, hlast]

/-- A drained view gives no byte, and its decode has the status of the verdict (R203, R213). -/
theorem dec_of_lt_two (hinv : 15 < P.invalid.toNat) {S : Bytes} (hlen : S.length < 2) :
    (dec P S Token).1 = [] ∧ streamStatus (dec P S Token).2 = fillVerdict S .endOfStream := by
  match S, hlen with
  | [], _ => exact ⟨rfl, rfl⟩
  | [c], _ =>
    by_cases hc : validChar P c = true
    · rw [dec, if_pos hc]
      exact ⟨rfl, (if_pos ((validChar_iff hinv c).mp hc)).symm⟩
    · rw [dec, if_neg hc]
      exact ⟨rfl, (if_neg (mt (validChar_iff hinv c).mpr hc)).symm⟩

theorem fillVerdict_ne_none (S : Bytes) {sig : SourceSig Token} (hsig : sig ≠ .none) : fillVerdict S sig ≠ .none := by
  cases sig with
  | none => exact absurd rfl hsig
  | ioFault => nofun
  | endOfStream =>
    simp only [fillVerdict]
    split
    · nofun
    · split <;> nofun

end

/-! ## The path with a fill (R202, R203) -/

section

variable {Token : Type}

theorem answersOf_append {α : Type} (k : Nat) (q r : List (Nat × α)) :
    answersOf k (q ++ r) = answersOf k q ++ answersOf k r := List.filterMap_append

theorem answersOf_cons_self {α : Type} (k : Nat) (a : α) (q : List (Nat × α)) :
    answersOf k ((k, a) :: q) = a :: answersOf k q := List.filterMap_cons_some (if_pos rfl)

theorem answersOf_eq_nil {α : Type} {k : Nat} {q : List (Nat × α)} (h : ∀ x ∈ q, x.1 ≠ k) : answersOf k q = [] :=
  List.filterMap_eq_nil_iff.mpr fun x hx => if_neg (h x hx)

/-- Taking agent `k`'s next answer takes the first of its own. -/
theorem answersOf_of_popAnswer {α : Type} {k : Nat} {q rest : List (Nat × α)} {a : α}
    (h : popAnswer k q = some (a, rest)) : answersOf k q = a :: answersOf k rest := by
  obtain ⟨before, after, rfl, rfl, hb⟩ := popAnswer_eq_some h
  rw [answersOf_append, answersOf_append, answersOf_eq_nil hb, List.nil_append, List.nil_append, answersOf_cons_self]

/-- An agent with an answer of its own to come gives it next. -/
theorem popAnswer_of_answersOf {α : Type} {k : Nat} {q : List (Nat × α)} {a : α} {as : List α}
    (h : answersOf k q = a :: as) : ∃ rest, popAnswer k q = some (a, rest) := by
  cases hpop : popAnswer k q with
  | none => rw [answersOf_eq_nil (popAnswer_eq_none.mp hpop)] at h; cases h
  | some x =>
    obtain ⟨b, rest⟩ := x
    rw [answersOf_of_popAnswer hpop] at h
    cases h
    exact ⟨rest, rfl⟩

/-- `Delivers sig q vs`: a Source with the answers `q` to come delivers the sequences `vs` up to its first signal, which
is `sig`. -/
inductive Delivers (sig : SourceSig Token) : List (SourceAnswer Token) → List Bytes → Prop where
  | last (a : SourceAnswer Token) (more : List (SourceAnswer Token)) (ha : a.sig = sig) :
      Delivers sig (a :: more) [a.v]
  | next (a : SourceAnswer Token) (q : List (SourceAnswer Token)) (vs : List Bytes) (ha : a.sig = .none)
      (hq : Delivers sig q vs) : Delivers sig (a :: q) (a.v :: vs)

/-- `D.Awaits sig q vs`: the stream of the decoder `D` whose Source has the answers `q` to come has `vs` still to be
delivered: up to the first signal `sig`, or nothing where that signal's verdict is stored. -/
inductive DecSlot.Awaits (sig : SourceSig Token) (D : DecSlot Token) (q : List (SourceAnswer Token)) :
    List Bytes → Prop where
  | idle {vs : List Bytes} (hf : D.fault = .none) (hq : Delivers sig q vs) : D.Awaits sig q vs
  | ended (hf : D.fault = fillVerdict D.pending sig) : D.Awaits sig q []

/-- `Filling P D s D' u`: FILLING in the state `s` gives the decoder `D'` to DECODING, in the state `u`. -/
inductive Filling (P : Params) (D : DecSlot Token) (s : State Token) : DecSlot Token → State Token → Prop where
  /-- The decoder is not starved, and no Source is called. -/
  | fed (hfed : ¬ D.Starved) : Filling P D s D s
  /-- The Source answers inside its contract (R57). -/
  | filled (a : SourceAnswer Token) (rest : List (SourceId × SourceAnswer Token)) (hst : D.Starved)
      (hpop : popAnswer D.source s.sourceAnswers = some (a, rest)) (ha : a.v.length ≤ P.decCap - D.len) :
      Filling P D s (D.filled a)
        { s with sourceAnswers := rest, calls := s.calls ++ [.sourceRead D.source (P.decCap - D.len) a] }

/-- FILLING loses and adds nothing: the text pending and still to be delivered stays the same, and a Source call takes
the first delivery. -/
theorem Filling.awaits {P : Params} {D D' : DecSlot Token} {s u : State Token} {sig : SourceSig Token}
    {vs : List Bytes} (fill : Filling P D s D' u) (hsig : sig ≠ .none)
    (haw : D.Awaits sig (answersOf D.source s.sourceAnswers) vs) :
    ∃ vs', D'.Awaits sig (answersOf D'.source u.sourceAnswers) vs' ∧
      D'.pending ++ vs'.flatten = D.pending ++ vs.flatten ∧ vs' <:+ vs ∧ (D.Starved → vs'.length < vs.length) := by
  cases fill with
  | fed hfed => exact ⟨vs, haw, rfl, List.suffix_rfl, fun hst => absurd hst hfed⟩
  | filled a rest hst hpop ha =>
    rw [answersOf_of_popAnswer hpop] at haw
    rw [DecSlot.filled_pending]
    cases haw with
    | ended hf => exact absurd (hf.symm.trans hst.2) (fillVerdict_ne_none _ hsig)
    | idle hf hq =>
      cases hq with
      | last _ _ hlast =>
        refine ⟨[], .ended ?_, by simp, List.nil_suffix, fun _ => Nat.zero_lt_one⟩
        rw [DecSlot.filled_pending, ← hlast]
        rfl
      | next _ _ vs hnone hq =>
        refine ⟨vs, .idle ?_ hq, by simp, List.suffix_cons .., fun _ => Nat.lt_succ_self _⟩
        rw [DecSlot.filled, hnone]
        rfl

/-- FILLING writes nothing but the record, the Source's answers and the call log, and keeps the decoder's Source. -/
theorem Filling.frame {P : Params} {D D' : DecSlot Token} {s u : State Token} (fill : Filling P D s D' u) :
    D'.alloc = D.alloc ∧ D'.source = D.source ∧ u = { s with sourceAnswers := u.sourceAnswers, calls := u.calls } := by
  cases fill <;> exact ⟨rfl, rfl, rfl⟩

theorem Filling.len_le {P : Params} {D D' : DecSlot Token} {s u : State Token} (hwf : D.Wf P)
    (fill : Filling P D s D' u) : D.len ≤ D'.len := by
  cases fill with
  | fed => exact le_rfl
  | filled a => simp only [DecSlot.filled, List.length_append, hwf.pending_length, Nat.le_add_right]

variable [DecidableEq Token]

/-- The state after a read that decodes on `D` in slot `h`. -/
def State.afterRead (P : Params) (h n : Nat) (D : DecSlot Token) (u : State Token) : State Token :=
  (u.putDec h (D.decoded P n)).respond (D.reply P n)

section

variable {P : Params} {h n : Nat} {D D' : DecSlot Token} {s t u : State Token} (hP : P.Valid) (hwf : D.Wf P)

include hP hwf

theorem Filling.wf (fill : Filling P D s D' u) : D'.Wf P := by
  cases fill with
  | fed => exact hwf
  | filled a rest hst hpop ha => exact DecSlot.filled_wf hP hwf hst.2 hst.1 ha

/-- A filling goes on with DECODING. -/
theorem Filling.decTransaction (fill : Filling P D s D' u) :
    decTransaction P h n D s = .done (u.afterRead P h n D') := by
  have hwf' := fill.wf hP hwf
  have hdec := decodeStep_decoded (P := P) (n := n) (hwf'.2.1.trans_eq hwf'.1.symm)
  cases fill with
  | fed hfed => rw [decTransaction_eq, if_neg hfed, hdec]; rfl
  | filled a rest hst hpop ha => rw [decTransaction_filled hP hwf hst.2 hst.1 ha hpop, hdec]; rfl

/-- A transaction that is done has filled. -/
theorem exists_filling (ht : Machine.decTransaction P h n D s = .done t) :
    ∃ D' u, Filling P D s D' u ∧ t = u.afterRead P h n D' := by
  have hfill : ∃ D' u, Filling P D s D' u := by
    by_cases hst : D.Starved
    · rw [decTransaction_eq, if_pos hst] at ht
      obtain ⟨⟨a, u⟩, hs, -⟩ := Txn.andThen_eq_done.mp ht
      obtain ⟨rest, hpop, ha, -⟩ := sourceRead_eq_done.mp hs
      exact ⟨_, _, .filled a rest hst hpop ha⟩
    · exact ⟨D, s, .fed hst⟩
  obtain ⟨D', u, fill⟩ := hfill
  rw [fill.decTransaction hP hwf] at ht
  cases ht
  exact ⟨D', u, fill, rfl⟩

end

end

/-! ## One read of a stream (R204-R207) -/

section

variable {Token : Type} {P : Params} {n : Nat} {D : DecSlot Token}

/-- The pending view is the pairs that are decoded and the rest. -/
theorem DecSlot.front_append_drop (D : DecSlot Token) (n : Nat) :
    D.front n ++ D.pending.drop (2 * min n (D.len / 2)) = D.pending := List.take_append_drop ..

theorem DecSlot.Wf.front_length (hwf : D.Wf P) : (D.front n).length = 2 * min n (D.len / 2) := by
  rw [DecSlot.front, List.length_take, hwf.pending_length]
  omega

variable [DecidableEq Token]

theorem DecSlot.decoded_pending (h : (dec P (D.front n) Token).2 = .none) :
    (D.decoded P n).pending = D.pending.drop (2 * min n (D.len / 2)) := by
  rw [DecSlot.decoded_of_none h, DecSlot.pending_advance]

/-- DECODING without error leaves the text behind the decoded pairs. -/
theorem dec_pending_append (h : (dec P (D.front n) Token).2 = .none) (w : Bytes) :
    dec P (D.pending ++ w) Token = ((D.reply P n).data ++ (dec P ((D.decoded P n).pending ++ w) Token).1,
      (dec P ((D.decoded P n).pending ++ w) Token).2) := by
  rw [DecSlot.decoded_pending h, ← D.front_append_drop n, List.append_assoc, dec_append h, DecSlot.front_append_drop]
  rfl

variable {sig : SourceSig Token} {q : List (SourceAnswer Token)} {vs : List Bytes}

/-- DECODING without error keeps what the stream has still to deliver, and the stored verdict. -/
theorem DecSlot.Awaits.decoded (hwf : D.Wf P) (haw : D.Awaits sig q vs) (h : (dec P (D.front n) Token).2 = .none) :
    (D.decoded P n).Awaits sig q vs := by
  cases haw with
  | idle hf hq => exact .idle (by rw [DecSlot.decoded_of_none h]; exact hf) hq
  | ended hf =>
    refine .ended ?_
    have hlen := hwf.pending_length
    rw [DecSlot.decoded_pending h, fillVerdict_drop (by omega), ← hf, DecSlot.decoded_of_none h]

omit [DecidableEq Token] in
/-- A drained decoder with a stored fault has come to the end of its stream: what is left decodes to nothing, with the
status that the fault stands for. -/
theorem DecSlot.Awaits.drained (hinv : 15 < P.invalid.toNat) (hwf : D.Wf P) (haw : D.Awaits .endOfStream q vs)
    (hlen : D.len < 2) (hf : D.fault ≠ .none) :
    (dec P (D.pending ++ vs.flatten) Token).1 = [] ∧
      D.fault = streamStatus (dec P (D.pending ++ vs.flatten) Token).2 := by
  cases haw with
  | idle hidle => exact absurd hidle hf
  | ended hended =>
    obtain ⟨hdata, hst⟩ := dec_of_lt_two (Token := Token) hinv (hwf.pending_length.trans_lt hlen)
    rw [List.flatten_nil, List.append_nil, hended]
    exact ⟨hdata, hst.symm⟩

/-- The read that answers a status answers the rest of the one-shot decode of the stream, and its status (R213). -/
theorem DecSlot.Awaits.final_reply (hinv : 15 < P.invalid.toNat) (hwf : D.Wf P) (haw : D.Awaits .endOfStream q vs)
    (hst : (D.reply P n).status ≠ .none) :
    (D.reply P n).data = (dec P (D.pending ++ vs.flatten) Token).1 ∧
      (D.reply P n).status = streamStatus (dec P (D.pending ++ vs.flatten) Token).2 := by
  obtain ⟨hlen, hfault⟩ := drained_of_surfaced hst
  have hstatus : (D.reply P n).status = (D.decoded P n).fault := hfault.symm
  by_cases hdec : (dec P (D.front n) Token).2 = .none
  · obtain ⟨hdata, hend⟩ := (haw.decoded hwf hdec).drained hinv hwf.decoded hlen (hfault ▸ hst)
    rw [hstatus, dec_pending_append hdec, hdata, List.append_nil]
    exact ⟨rfl, hend⟩
  · have heven : (D.front n).length % 2 = 0 := by rw [hwf.front_length]; omega
    have hodd : (dec P (D.front n) Token).2 ≠ .oddLength := fun h => by
      have := dec_oddLength P _ h
      omega
    rw [hstatus, DecSlot.decoded_of_error hdec, ← D.front_append_drop n, List.append_assoc,
      dec_append_of_error heven hdec, streamStatus_of_error hdec hodd]
    exact ⟨rfl, rfl⟩

end

/-! ## Reads one after another (R213) -/

section

variable {Token : Type} [DecidableEq Token] {P : Params} {h n : Nat} {D D' : DecSlot Token} {s t u : State Token}

/-- A well-formed state with the constructed decoder `D` in slot `h`. -/
structure State.Holds (P : Params) (s : State Token) (h : Nat) (D : DecSlot Token) : Prop where
  inv : s.Inv P
  slot : s.dec[h]? = some D
  alloc : D.alloc = true

omit [DecidableEq Token] in
theorem State.Holds.wf (hs : s.Holds P h D) : D.Wf P := inv_dec_wf hs.inv hs.slot

omit [DecidableEq Token] in
theorem State.Holds.inside (hs : s.Holds P h D) : D.off + D.len ≤ D.arr.length := hs.wf.2.1.trans_eq hs.wf.1.symm

omit [DecidableEq Token] in
theorem State.Holds.handle_lt (hs : s.Holds P h D) : h < P.numDecSlots :=
  hs.inv.2.1 ▸ (List.getElem?_eq_some_iff.mp hs.slot).1

/-- A read that fills is answered. -/
theorem State.Holds.read (hP : P.Valid) (hs : s.Holds P h D) (fill : Filling P D s D' u) :
    execWith P (.decRead h n) s = .next (u.afterRead P h n D') := by
  rw [execWith_decRead hs.handle_lt hs.slot hs.alloc, fill.decTransaction hP hs.wf]
  rfl

/-- After a read that fills, the slot holds the decoded record, in a well-formed state. -/
theorem State.Holds.afterRead (hP : P.Valid) (hs : s.Holds P h D) (fill : Filling P D s D' u) :
    (u.afterRead P h n D').Holds P h (D'.decoded P n) := by
  obtain ⟨halloc, -, hframe⟩ := fill.frame
  have hdec : u.dec = s.dec := by rw [hframe]
  refine ⟨(execWith_effect (hs.read hP fill)).keeps_inv hP hs.inv, ?_, ?_⟩
  · rw [State.afterRead, State.respond_dec, State.putDec_dec, hdec]
    exact List.getElem?_set_self (List.getElem?_eq_some_iff.mp hs.slot).1
  · rw [DecSlot.decoded_alloc, halloc, hs.alloc]

theorem Filling.afterRead_responses (fill : Filling P D s D' u) :
    (u.afterRead P h n D').responses = s.responses ++ [D'.reply P n] := by
  obtain ⟨-, -, hframe⟩ := fill.frame
  rw [hframe]
  rfl

/-- The first read of a list, when it is answered: it ends the list, or its data goes before that of the rest. -/
theorem readUntilStatus_cons {ns : List Nat} {r : Response Token} (hu : execWith P (.decRead h n) s = .next u)
    (hr : u.responses = s.responses ++ [r]) :
    readUntilStatus P h (n :: ns) s =
      if r.status = .none then (readUntilStatus P h ns u).map fun (d, st, t) => (r.data ++ d, st, t)
      else some (r.data, r.status, u) := by
  rw [readUntilStatus, hu]
  simp only [hr, List.drop_left]

/-- Reads that come to a status have an answered first read. -/
theorem exec_of_readUntilStatus {ns : List Nat} {x : Bytes × Status Token × State Token}
    (hx : readUntilStatus P h (n :: ns) s = some x) :
    ∃ u r, execWith P (.decRead h n) s = .next u ∧ u.responses = s.responses ++ [r] := by
  rw [readUntilStatus] at hx
  split at hx
  · next u hu =>
    split at hx
    · next r hr =>
      rcases (execWith_effect hu).ends with rfl | ⟨m, rfl⟩ | ⟨r', -, hr', -⟩
      · simp at hr
      · simp at hr
      · exact ⟨u, r', hu, hr'⟩
    · cases hx
  · cases hx

/-- Reads that come to a status have given the one-shot decode of the text that was pending and to be delivered, and
leave the decoder FAULTED with that status. -/
theorem reads_decode {ns : List Nat} {vs : List Bytes} {data : Bytes} {st : Status Token} (hP : P.Valid)
    (hs : s.Holds P h D) (haw : D.Awaits .endOfStream (answersOf D.source s.sourceAnswers) vs)
    (ht : readUntilStatus P h ns s = some (data, st, t)) :
    data = (dec P (D.pending ++ vs.flatten) Token).1 ∧ st = streamStatus (dec P (D.pending ++ vs.flatten) Token).2 ∧
      ∃ F, t.Holds P h F ∧ F.len < 2 ∧ F.fault = st ∧ st ≠ .none := by
  induction ns generalizing s D vs data with
  | nil => cases ht
  | cons n ns ih =>
    obtain ⟨v, r, hv, hr⟩ := exec_of_readUntilStatus ht
    obtain ⟨F, -, hF, -, htx⟩ := decRead_transaction hv hr
    obtain rfl : D = F := Option.some.inj (hs.slot.symm.trans hF)
    obtain ⟨D', u, fill, rfl⟩ := exists_filling hP hs.wf htx
    have hwf := fill.wf hP hs.wf
    obtain ⟨vs', haw', htext, -, -⟩ := fill.awaits (sig := .endOfStream) nofun haw
    have hs' := hs.afterRead (n := n) hP fill
    rw [readUntilStatus_cons hv fill.afterRead_responses] at ht
    rw [← htext]
    split at ht
    · next hst =>
      have hdec := dec_front_of_reply_none hst
      obtain ⟨⟨d, st', t'⟩, hrest, hpair⟩ := Option.map_eq_some_iff.mp ht
      cases hpair
      obtain ⟨rfl, rfl, hend⟩ := ih hs' (by rw [DecSlot.decoded_source]; exact haw'.decoded hwf hdec) hrest
      rw [dec_pending_append hdec]
      exact ⟨rfl, rfl, hend⟩
    · next hst =>
      cases ht
      obtain ⟨hdata, hstatus⟩ := haw'.final_reply hP.2.2.2.1 hwf hst
      obtain ⟨hlen, hfault⟩ := drained_of_surfaced hst
      exact ⟨hdata, hstatus, _, hs', hlen, hfault, hst⟩

/-! ## Reads until the end (R207, R213) -/

/-- An upper bound of the reads a stream still needs: one per delivery and one per pair. -/
def DecSlot.readsLeft (D : DecSlot Token) (vs : List Bytes) : Nat := vs.length + (D.len + vs.flatten.length) / 2

variable {sig : SourceSig Token} {vs : List Bytes}

omit [DecidableEq Token] in
/-- Before its status is surfaced a stream needs a read. -/
theorem DecSlot.Awaits.readsLeft_pos {q : List (SourceAnswer Token)} (hsig : sig ≠ .none) (haw : D.Awaits sig q vs)
    (hphase : D.fault = .none ∨ 2 ≤ D.len) : 0 < D.readsLeft vs := by
  cases haw with
  | idle hf hq =>
    have : 0 < vs.length := by cases hq <;> exact Nat.succ_pos _
    rw [DecSlot.readsLeft]
    omega
  | ended hf =>
    have := hphase.resolve_left (hf ▸ fillVerdict_ne_none _ hsig)
    rw [DecSlot.readsLeft]
    omega

omit [DecidableEq Token] in
/-- A read is never turned away and never waits while its Source keeps its contract (R57). -/
theorem DecSlot.Awaits.exists_filling (hsig : sig ≠ .none) (haw : D.Awaits sig (answersOf D.source s.sourceAnswers) vs)
    (hcap : ∀ v ∈ vs, v.length ≤ P.decCap - 1) : ∃ D' u, Filling P D s D' u := by
  by_cases hst : D.Starved
  · obtain ⟨a, q, hq, ha⟩ : ∃ a q, answersOf D.source s.sourceAnswers = a :: q ∧ a.v ∈ vs := by
      cases haw with
      | ended hf => exact absurd (hf.symm.trans hst.2) (fillVerdict_ne_none _ hsig)
      | idle hf hq =>
        generalize answersOf D.source s.sourceAnswers = q at hq
        cases hq <;> exact ⟨_, _, rfl, List.mem_cons_self⟩
    obtain ⟨rest, hpop⟩ := popAnswer_of_answersOf hq
    have := hcap _ ha
    have := hst.1
    exact ⟨_, _, .filled a rest hst hpop (by omega)⟩
  · exact ⟨_, _, .fed hst⟩

/-- A read that answers no status brings the end nearer: it took a delivery or decoded a pair. -/
theorem Filling.readsLeft_lt {vs' : List Bytes} (fill : Filling P D s D' u) (hP : P.Valid) (hwf : D.Wf P)
    (htext : D'.pending ++ vs'.flatten = D.pending ++ vs.flatten) (hvs : vs' <:+ vs)
    (hcall : D.Starved → vs'.length < vs.length) (hphase : D.fault = .none ∨ 2 ≤ D.len) (hn : 1 ≤ n)
    (hst : (D'.reply P n).status = .none) : (D'.decoded P n).readsLeft vs' < D.readsLeft vs := by
  have hbytes := congrArg List.length htext
  rw [List.length_append, List.length_append, (fill.wf hP hwf).pending_length, hwf.pending_length] at hbytes
  have hlen : (D'.decoded P n).len = D'.len - 2 * min n (D'.len / 2) := by
    rw [DecSlot.decoded_of_none (dec_front_of_reply_none hst)]
  have hle := hvs.length_le
  rw [DecSlot.readsLeft, DecSlot.readsLeft, hlen, ← hbytes]
  by_cases hstarved : D.Starved
  · have := hcall hstarved
    omega
  · have hpair : 2 ≤ D.len := by
      by_contra hlt
      exact hstarved ⟨by omega, hphase.resolve_right hlt⟩
    have := fill.len_le hwf
    omega

/-- As many reads as a stream needs come to a status. -/
theorem reads_end {ns : List Nat} (hP : P.Valid) (hs : s.Holds P h D) (hsig : sig ≠ .none)
    (haw : D.Awaits sig (answersOf D.source s.sourceAnswers) vs) (hcap : ∀ v ∈ vs, v.length ≤ P.decCap - 1)
    (hphase : D.fault = .none ∨ 2 ≤ D.len) (hns : ∀ n ∈ ns, 1 ≤ n) (hleft : D.readsLeft vs ≤ ns.length) :
    ∃ x, readUntilStatus P h ns s = some x := by
  induction ns generalizing s D vs with
  | nil => exact absurd hleft (Nat.not_le.mpr (haw.readsLeft_pos hsig hphase))
  | cons n ns ih =>
    obtain ⟨hn, hns⟩ := List.forall_mem_cons.mp hns
    obtain ⟨D', u, fill⟩ := haw.exists_filling hsig hcap
    obtain ⟨vs', haw', htext, hvs, hcall⟩ := fill.awaits hsig haw
    rw [readUntilStatus_cons (hs.read hP fill) fill.afterRead_responses]
    split
    · next hst =>
      have hlt := fill.readsLeft_lt hP hs.wf htext hvs hcall hphase hn hst
      rw [List.length_cons] at hleft
      obtain ⟨x, hx⟩ := ih (hs.afterRead hP fill)
        (by rw [DecSlot.decoded_source]; exact haw'.decoded (fill.wf hP hs.wf) (dec_front_of_reply_none hst))
        (fun v hv => hcap v (hvs.subset hv)) (not_faulted_of_surfaced hst) hns (by omega)
      rw [hx]
      exact ⟨_, rfl⟩
    · exact ⟨_, rfl⟩

end

/-! ## A Source's answers up to an end of stream -/

section

variable {Token : Type} {last : SourceAnswer Token}

/-- Answers that signal nothing, and the first one that does. -/
theorem delivers_append {init : List (SourceAnswer Token)} (hinit : ∀ a ∈ init, a.sig = .none)
    (more : List (SourceAnswer Token)) :
    Delivers last.sig (init ++ last :: more) ((init ++ [last]).map SourceAnswer.v) := by
  induction init with
  | nil => exact .last last more rfl
  | cons a init ih =>
    obtain ⟨ha, hinit⟩ := List.forall_mem_cons.mp hinit
    exact .next a _ _ ha (ih hinit)

/-- Answers that come to a signal deliver up to the first one. -/
theorem exists_delivers (init : List (SourceAnswer Token)) (hlast : last.sig ≠ .none)
    (more : List (SourceAnswer Token)) :
    ∃ sig vs, sig ≠ .none ∧ Delivers sig (init ++ last :: more) vs ∧ vs <+: (init ++ [last]).map SourceAnswer.v := by
  induction init with
  | nil => exact ⟨_, _, hlast, .last last more rfl, List.prefix_rfl⟩
  | cons a init ih =>
    by_cases ha : a.sig = .none
    · obtain ⟨sig, vs, hsig, hdel, hvs⟩ := ih
      exact ⟨sig, _, hsig, .next a _ _ ha hdel, (List.prefix_cons_inj a.v).mpr hvs⟩
    · exact ⟨_, _, ha, .last a _ rfl, (List.prefix_cons_inj a.v).mpr List.nil_prefix⟩

theorem flatten_map_v_concat (init : List (SourceAnswer Token)) :
    ((init ++ [last]).map SourceAnswer.v).flatten = (init.map SourceAnswer.v).flatten ++ last.v := by simp

end

end Sys2Proof.Machine

/-! ## The statements -/

namespace Sys2Proof.Machine

/-- Settles O58: each read answers a front of the one-shot decode and leaves the decode of the rest. -/
theorem streamDecodesLikeTheWholeText : Obligations.StreamDecodesLikeTheWholeText := by
  intro Token _ P h D s t ns init more last data st hP hs hD ha hf hlen hq hinit hlast _ ht S
  have haw : D.Awaits .endOfStream (answersOf D.source s.sourceAnswers) ((init ++ [last]).map SourceAnswer.v) :=
    .idle hf (by rw [hq, ← hlast]; exact delivers_append hinit more)
  have hpending : D.pending = [] := by rw [DecSlot.pending, hlen, List.take_zero]
  obtain ⟨hdata, hst, F, hF, hdrained, hfault, hne⟩ := reads_decode hP ⟨hs, hD, ha⟩ haw ht
  rw [hpending, List.nil_append, flatten_map_v_concat] at hdata hst
  refine ⟨hdata, hst, fun n => ?_⟩
  rw [execWith_decRead hF.handle_lt hF.slot hF.alloc,
    decTransaction_faulted hF.slot (hfault ▸ hne) hdrained hF.inside, hfault]
  rfl

/-- Settles O59: a read that answers no status took a delivery or decoded a pair, and the bound counts both. -/
theorem readingReachesTheEnd : Obligations.ReadingReachesTheEnd := by
  intro Token _ P h D s ns init more last hP hs hD ha hf hlen hq hlast hcap hns hbound
  obtain ⟨sig, vs, hsig, hdel, hvs⟩ := exists_delivers (last := last) init (by rw [hlast]; nofun) more
  obtain ⟨w, hw⟩ := hvs
  have hleft : D.readsLeft vs ≤ ns.length := by
    have hlength := congrArg List.length hw
    have hbytes := congrArg (fun l => l.flatten.length) hw
    simp only [flatten_map_v_concat, List.flatten_append, List.length_append, List.length_map, List.length_singleton]
      at hlength hbytes hbound
    rw [DecSlot.readsLeft]
    omega
  obtain ⟨⟨data, st, t⟩, hx⟩ := reads_end hP ⟨hs, hD, ha⟩ hsig (.idle hf (hq ▸ hdel))
    (fun v hv => by
      obtain ⟨a, ha, rfl⟩ := List.mem_map.mp (hw ▸ List.mem_append_left w hv)
      exact hcap a ha)
    (.inl hf) hns hleft
  exact ⟨data, st, t, hx⟩

/-- Settles O52: with nothing to fill, DECODING runs on the record as it is. -/
theorem decReadDecodesWhatIsPending : Obligations.DecReadDecodesWhatIsPending := by
  intro h n D s hh hD ha hor harr hoff m out st
  have hfed : ¬ D.Starved := fun hst => hor.elim (Nat.not_le.mpr hst.1) (absurd hst.2)
  rw [exec_default, execWith_decRead hh hD ha, decTransaction_fed hfed (hoff.trans_eq harr.symm), DecSlot.reply]
  by_cases hst : st = .none
  · rw [DecSlot.decoded_of_none hst, if_pos hst, if_neg (not_not.mpr hst)]
    rfl
  · rw [DecSlot.decoded_of_error hst, if_neg hst, if_pos hst]
    rfl

/-- Settles O54, by the two paths of a transaction that is done. -/
theorem decReadCallsItsSourceExactlyWhenStarved : Obligations.DecReadCallsItsSourceExactlyWhenStarved := by
  intro h n D s t r hs hD ht hr
  rw [exec_default] at ht
  obtain ⟨F, -, hF, -, htx⟩ := decRead_transaction ht hr
  obtain rfl : D = F := Option.some.inj (hD.symm.trans hF)
  obtain ⟨_, _, u, -, -, -, -, -, hcalls, rfl⟩ := decTransaction_done (inv_dec_wf hs hD) (by decide) htx
  rcases hcalls with ⟨hlen, hf, hcall⟩ | ⟨hfed, rfl⟩
  · exact ⟨fun _ => hcall, fun hfed => absurd ⟨hlen, hf⟩ hfed⟩
  · exact ⟨fun hst => absurd hst hfed, fun _ => rfl⟩

/-- Settles O56, by the output and the record of a transaction that is done. -/
theorem decReadOutputIsBounded : Obligations.DecReadOutputIsBounded := by
  intro h n s t r hs ht hr
  rw [exec_default] at ht
  obtain ⟨D, -, hD, -, htx⟩ := decRead_transaction ht hr
  obtain ⟨F, out, u, hF, -, -, ⟨hn, hcap⟩, hu, -, rfl⟩ := decTransaction_done (inv_dec_wf hs hD) (by decide) htx
  rw [hu] at hr
  obtain rfl := (List.append_singleton_inj.mp hr).2
  exact ⟨rfl, hn, hcap, hF.surfaced_ne_oddLength⟩

/-- Settles O57, by the cases of `Effect`: only DEC_READ on the slot reaches the record, and it only answers. -/
theorem faultedDecoderIsTerminal : Obligations.FaultedDecoderIsTerminal := by
  intro i h D s t hs hD hphase hi ht
  rw [exec_default] at ht
  obtain ⟨harr, hoff, -⟩ := inv_dec_wf hs hD
  obtain ⟨hf, hlen⟩ := DecSlot.phase_eq_faulted.mp hphase
  exact (execWith_effect ht).faulted_decoder hD hf hlen (hoff.trans_eq harr.symm) hi

/-- Settles O50, by the two equations of DEC_NEW. -/
theorem decNewConstructsAnIdleDecoder : Obligations.DecNewConstructsAnIdleDecoder := by
  refine ⟨fun h o hh => decode_decNew hh o, fun h k s => ⟨fun hh hl => ?_, fun hh => ?_⟩,
    fun Token _ P h k s _ => ⟨fun hh hl => ?_, execWith_decNew_badHandle k⟩⟩
  · exact ⟨_, _, freeBytes_length .., (exec_default _ s).trans (execWith_decNew k hh hl)⟩
  · exact (exec_default _ s).trans (execWith_decNew_badHandle k hh)
  · exact ⟨_, _, freeBytes_length .., execWith_decNew k hh hl⟩

/-- Settles O53: a FAULTED decoder's transaction only answers. -/
theorem decReadOnAFaultedDecoderDoesNothing : Obligations.DecReadOnAFaultedDecoderDoesNothing := by
  intro h n D s hh hD ha hf hlen harr hoff
  rw [exec_default, execWith_decRead hh hD ha, decTransaction_faulted hD hf hlen (hoff.trans_eq harr.symm)]
  rfl

end Sys2Proof.Machine

/-! The statements of 60_exceptions.md: the status word and its fields, and when a command raises a model fault. -/

namespace Sys2Proof.Machine

/-! ## The status word (R240) -/

section

variable {Token : Type} (st : Status Token)

/-- The status word is laid out as a command word is (R74): the code in bits 7:0 and the character in bits 15:8. -/
theorem Status.word_eq_cmdWord : st.word = cmdWord st.code st.chr.toNat := by
  rw [Status.word, cmdWord, BitVec.ofNat_toNat]

theorem Status.cmdOp_word : cmdOp st.word = st.code := by
  rw [st.word_eq_cmdWord, (Laws.OpcodeByte.cmdWord_fields _ _).1]

theorem Status.cmdHandle_word : cmdHandle st.word = st.chr := by
  rw [st.word_eq_cmdWord, (Laws.OpcodeByte.cmdWord_fields _ _).2, BitVec.ofNat_toNat, BitVec.setWidth_eq]

/-- Codes 6..255 are never produced. -/
theorem Status.code_le : st.code.toNat ≤ 5 := by
  cases st <;> simp [Status.code]

/-- A status is read back from its own word and token: each has a code of its own, and its payload stands in `chr` or
in `io`. -/
theorem statusOfWord_word : statusOfWord st.word st.io = some st := by
  have hcode : st.word.extractLsb' 0 8 = st.code := st.cmdOp_word
  have hchr : st.word.extractLsb' 8 8 = st.chr := st.cmdHandle_word
  unfold statusOfWord
  rw [hcode, hchr]
  cases st <;> rfl

end

/-! ## Which outcomes are a model fault (R250) -/

section

variable {Token : Type} {s t : State Token} {m m' : ModelFault}

theorem State.raiseFault_eq_iff : s.raiseFault m' = s.raiseFault m ↔ m = m' := by
  simp [State.raiseFault, eq_comm (a := m)]

/-- A next state with the fault record of `s` is no model fault raised in `s`. -/
theorem next_ne_raiseFault (hmf : t.mf = s.mf) :
    (.next t : Host.Outcome (State Token) Fault Refusal) ≠ .next (s.raiseFault m) := by
  rintro ⟨⟩
  simp at hmf

/-- A transaction that leaves the fault record as it was raises no model fault; nor does one that waits. -/
theorem conclude_ne_raiseFault {x : Txn (State Token)} (hx : ∀ t, x = .done t → t.mf = s.mf) :
    conclude s x ≠ .next (s.raiseFault m) := by
  cases x with
  | done t => exact next_ne_raiseFault (hx t rfl)
  | waits => exact next_ne_raiseFault rfl
  | fault | refuse => exact nofun

/-- An outcome that is the fault `m'` where `bad` holds and no fault elsewhere is a fault exactly where `bad` holds. -/
theorem raises_iff {bad : Prop} {o : Host.Outcome (State Token) Fault Refusal} (hbad : bad → o = .next (s.raiseFault m'))
    (hgood : ¬bad → o ≠ .next (s.raiseFault m)) : o = .next (s.raiseFault m) ↔ m = m' ∧ bad := by
  by_cases hb : bad
  · rw [hbad hb, Host.Outcome.next.injEq, State.raiseFault_eq_iff, and_iff_left hb]
  · exact iff_of_false (hgood hb) (hb ·.2)

end

/-! ## The model fault table (R251), command by command -/

section

variable {Token : Type} [DecidableEq Token] {P : Params} {s t : State Token} {m : ModelFault} {h n : Nat} {p : Bytes}

theorem encTransaction_mf {E : EncSlot Token} (ht : encTransaction P h p E s = .done t) : t.mf = s.mf := by
  obtain ⟨n, E', u, hloop, rfl⟩ := encTransaction_eq_done.mp ht
  rw [encLoop_frame hloop]
  rfl

theorem decTransaction_mf {D : DecSlot Token} (ht : decTransaction P h n D s = .done t) : t.mf = s.mf := by
  obtain ⟨D', r, hframe⟩ := decTransaction_frame ht
  rw [hframe]

/-- ENC_WRITE past the slots or on an unallocated slot is the model fault. -/
theorem execWith_encWrite_badHandle (hbad : P.numEncSlots ≤ h ∨ ∃ E, s.enc[h]? = some E ∧ E.alloc = false) :
    execWith P (.encWrite h p) s = .next (s.raiseFault .badHandle) := by
  rw [execWith, encWriteWith]
  split
  · rfl
  · next hh =>
    obtain ⟨E, hE, ha⟩ := hbad.resolve_left hh
    simp [hE, ha]

/-- DEC_READ past the slots or on an unallocated slot is the model fault. -/
theorem execWith_decRead_badHandle (hbad : P.numDecSlots ≤ h ∨ ∃ D, s.dec[h]? = some D ∧ D.alloc = false) :
    execWith P (.decRead h n) s = .next (s.raiseFault .badHandle) := by
  rw [execWith, decReadWith]
  split
  · rfl
  · next hh =>
    obtain ⟨D, hD, ha⟩ := hbad.resolve_left hh
    simp [hD, ha]

theorem encode_raises_iff {dst src : Bytes} :
    execWith P (.encode dst src) s = .next (s.raiseFault m) ↔ m = .dstTooSmall ∧ dst.length < 2 * src.length :=
  raises_iff (fun hd => if_pos hd) fun hd => (if_neg hd).trans_ne (next_ne_raiseFault rfl)

theorem decode_raises_iff {dst src : Bytes} :
    execWith P (.decode dst src) s = .next (s.raiseFault m) ↔ m = .dstTooSmall ∧ dst.length < src.length / 2 :=
  raises_iff (fun hd => if_pos hd) fun hd => (if_neg hd).trans_ne (next_ne_raiseFault rfl)

section

variable (hs : s.Inv P)
include hs

theorem encNew_raises_iff {k : SinkId} :
    execWith P (.encNew h k) s = .next (s.raiseFault m) ↔ m = .badHandle ∧ P.numEncSlots ≤ h :=
  raises_iff (execWith_encNew_badHandle k) fun hh =>
    (execWith_encNew k (Nat.lt_of_not_le hh) hs.1).trans_ne (next_ne_raiseFault rfl)

theorem decNew_raises_iff {k : SourceId} :
    execWith P (.decNew h k) s = .next (s.raiseFault m) ↔ m = .badHandle ∧ P.numDecSlots ≤ h :=
  raises_iff (execWith_decNew_badHandle k) fun hh =>
    (execWith_decNew k (Nat.lt_of_not_le hh) hs.2.1).trans_ne (next_ne_raiseFault rfl)

/-- ENC_WRITE's transaction raises nothing, and only an allocated slot has one. -/
theorem encWrite_raises_iff :
    execWith P (.encWrite h p) s = .next (s.raiseFault m) ↔
      m = .badHandle ∧ (P.numEncSlots ≤ h ∨ ∃ E, s.enc[h]? = some E ∧ E.alloc = false) := by
  refine raises_iff execWith_encWrite_badHandle fun hgood => ?_
  obtain ⟨hh, hslot⟩ := not_or.mp hgood
  have hE := List.getElem?_eq_getElem (Nat.lt_of_not_le (hs.1 ▸ hh))
  have ha := Bool.eq_true_of_not_eq_false fun ha => hslot ⟨_, hE, ha⟩
  rw [execWith_encWrite (Nat.lt_of_not_le hh) hE ha]
  exact conclude_ne_raiseFault fun _ => encTransaction_mf

/-- DEC_READ's transaction raises nothing, and only an allocated slot has one. -/
theorem decRead_raises_iff :
    execWith P (.decRead h n) s = .next (s.raiseFault m) ↔
      m = .badHandle ∧ (P.numDecSlots ≤ h ∨ ∃ D, s.dec[h]? = some D ∧ D.alloc = false) := by
  refine raises_iff execWith_decRead_badHandle fun hgood => ?_
  obtain ⟨hh, hslot⟩ := not_or.mp hgood
  have hD := List.getElem?_eq_getElem (Nat.lt_of_not_le (hs.2.1 ▸ hh))
  have ha := Bool.eq_true_of_not_eq_false fun ha => hslot ⟨_, hD, ha⟩
  rw [execWith_decRead (Nat.lt_of_not_le hh) hD ha]
  exact conclude_ne_raiseFault fun _ => decTransaction_mf

end

/-- The commands of R251's table under BAD_HANDLE: a handle past the slots, or the handle of an unallocated slot. -/
def BadHandle (P : Params) (s : State Token) (i : Instr) : Prop :=
  (∃ h k, i = .encNew h k ∧ P.numEncSlots ≤ h) ∨ (∃ h k, i = .decNew h k ∧ P.numDecSlots ≤ h) ∨
  (∃ h p, i = .encWrite h p ∧ (P.numEncSlots ≤ h ∨ ∃ E, s.enc[h]? = some E ∧ E.alloc = false)) ∨
  (∃ h n, i = .decRead h n ∧ (P.numDecSlots ≤ h ∨ ∃ D, s.dec[h]? = some D ∧ D.alloc = false))

/-- The commands of R251's table under DST_TOO_SMALL. -/
def DstTooSmall (i : Instr) : Prop :=
  (∃ dst src, i = .encode dst src ∧ dst.length < 2 * src.length) ∨
  (∃ dst src, i = .decode dst src ∧ dst.length < src.length / 2)

/-- A command raises a model fault exactly when it stands in the table under that fault. -/
theorem execWith_raises_iff {i : Instr} (hs : s.Inv P) :
    execWith P i s = .next (s.raiseFault m) ↔
      (m = .badHandle ∧ BadHandle P s i) ∨ (m = .dstTooSmall ∧ DstTooSmall i) := by
  cases i with
  | encode dst src => simp [encode_raises_iff, BadHandle, DstTooSmall]
  | decode dst src => simp [decode_raises_iff, BadHandle, DstTooSmall]
  | encNew h k => simp [encNew_raises_iff hs, BadHandle, DstTooSmall]
  | decNew h k => simp [decNew_raises_iff hs, BadHandle, DstTooSmall]
  | encWrite h p => simp [encWrite_raises_iff hs, BadHandle, DstTooSmall]
  | decRead h n => simp [decRead_raises_iff hs, BadHandle, DstTooSmall]
  | _ => exact iff_of_false (next_ne_raiseFault rfl) (by simp [BadHandle, DstTooSmall])

end

end Sys2Proof.Machine

/-! ## The statements -/

namespace Sys2Proof.Machine

/-- Settles O15: each clause is `execWith_raises_iff` at one fault. -/
theorem modelFaultsAreRaisedExactlyAsTheTableSays : Obligations.ModelFaultsAreRaisedExactlyAsTheTableSays := by
  intro Token _ P i s _ hs
  exact ⟨(execWith_raises_iff hs).trans (by simp [BadHandle]), (execWith_raises_iff hs).trans (by simp [DstTooSmall])⟩

/-- Settles O6: the word's two bytes are the fields `code` and `chr`. -/
theorem statusWordLosesNothing : Obligations.StatusWordLosesNothing := by
  intro Token st
  refine ⟨statusOfWord_word st, st.code_le, ?_, ?_⟩
  · rw [← cmdOp_toNat, st.cmdOp_word]
  · rw [← cmdHandle_toNat, st.cmdHandle_word]

end Sys2Proof.Machine

/-! The statements of 70_reset_and_hazards.md about the agents' answers: which commands wait for one, and which are
refused by one outside its agent's contract. -/

namespace Sys2Proof.Machine

/-! ## An agent that has not answered (R287, R288; log 8) -/

section

variable {Token : Type} [DecidableEq Token] {P : Params} {h n : Nat} {p : Bytes} {s : State Token}

/-- ENC_WRITE's transaction with a byte to write waits at its first Sink call when the Sink has no answer to come. -/
theorem encTransaction_waits {E : EncSlot Token} (hp : p ≠ []) (hf : E.fault = .none) (hout : E.out.length = P.encCap)
    (hnone : ∀ x ∈ s.sinkAnswers, x.1 ≠ E.sink) : encTransaction P h p E s = .waits := by
  obtain ⟨fuel, hfuel⟩ := Nat.exists_eq_succ_of_ne_zero (mt List.length_eq_zero_iff.mp hp)
  rw [encTransaction, hfuel, encLoop_pass fuel 0 s hp hf hout, sinkWrite_eq_waits.mpr (popAnswer_eq_none.mpr hnone),
    Txn.waits_andThen, Txn.waits_andThen]

/-- DEC_READ's transaction on a starved decoder waits at its Source call when the Source has no answer to come. -/
theorem decTransaction_waits {D : DecSlot Token} (hst : D.Starved) (hnone : ∀ x ∈ s.sourceAnswers, x.1 ≠ D.source) :
    decTransaction P h n D s = .waits := by
  rw [decTransaction_eq, if_pos hst, sourceRead_eq_waits.mpr (popAnswer_eq_none.mpr hnone), Txn.waits_andThen]

end

/-! ## A Sink's answer outside its contract (R287, I12; log 9) -/

section

variable {Token : Type}

/-- A Sink that gives the answers `as` to the chunks of at most `c` bytes of a payload of `len` bytes breaks its
contract at chunk `j`: its answer `a` there accepts more than that chunk's text has, and each answer before it lets the
loop go on. -/
def BreaksAt (c len : Nat) (as : List (SinkAnswer Token)) (j : Nat) (a : SinkAnswer Token) : Prop :=
  as[j]? = some a ∧ c * j < len ∧ 2 * min c (len - c * j) < a.w ∧
    ∀ k < j, ∃ b, as[k]? = some b ∧ b.w ≤ 2 * c ∧ b.sig = none

variable {c len j : Nat} {a b : SinkAnswer Token} {as : List (SinkAnswer Token)}

/-- The breach at the first chunk. -/
theorem BreaksAt.first (hlen : 0 < len) (hw : 2 * min c len < a.w) : BreaksAt c len (a :: as) 0 a :=
  ⟨rfl, hlen, hw, nofun⟩

/-- A breach in the rest of the payload, after an answer inside the contract that signals nothing. -/
theorem BreaksAt.later (hw : b.w ≤ 2 * c) (hsig : b.sig = none) (h : BreaksAt c (len - c) as j a) :
    BreaksAt c len (b :: as) (j + 1) a := by
  obtain ⟨ha, hlt, hover, hbefore⟩ := h
  have hrest : len - c * (j + 1) = len - c - c * j := by rw [Nat.mul_succ, Nat.add_comm, Nat.sub_add_eq]
  refine ⟨ha, ?_, hrest ▸ hover, fun k hk => ?_⟩
  · rw [Nat.mul_succ]
    omega
  · cases k with
    | zero => exact ⟨b, rfl, hw, hsig⟩
    | succ k => exact hbefore k (Nat.lt_of_succ_lt_succ hk)

/-- A Sink's answer stores no fault exactly when it signals none, in an encoder with none stored (R173). -/
theorem sinkFault_eq_none {sig : Option Token} : sinkFault sig .none = .none ↔ sig = none := by
  cases sig <;> simp [sinkFault]

variable [DecidableEq Token] {P : Params}

/-- A loop is refused only at a pass that runs, by a breach of its Sink at some chunk: the passes before that one were
answered inside the contract and stored no fault. -/
theorem encLoop_refused {fuel n : Nat} {p : Bytes} {E : EncSlot Token} {s : State Token} {r : Refusal}
    (hout : E.out.length = P.encCap) (h : encLoop P fuel n p E s = .refuse r) :
    r = .sinkAnswerOutsideContract ∧ E.fault = .none ∧
      ∃ j a, BreaksAt P.encChunk p.length (answersOf E.sink s.sinkAnswers) j a := by
  induction fuel generalizing n p E s with
  | zero => cases h
  | succ fuel ih =>
    by_cases hstop : p = [] ∨ E.fault ≠ .none
    · rw [encLoop_stop P _ n p E s hstop] at h
      cases h
    obtain ⟨hp, hf⟩ := not_or.mp hstop
    have hf := not_not.mp hf
    rw [encLoop_pass fuel n s hp hf hout] at h
    rcases Txn.andThen_eq_refuse.mp h with hcall | ⟨⟨a, t⟩, hcall, hrest⟩
    · obtain ⟨hr, a, rest, hpop, hw⟩ := sinkWrite_eq_refuse.mp hcall
      rw [enc_length, List.length_take] at hw
      rw [answersOf_of_popAnswer hpop]
      exact ⟨hr, hf, 0, a, .first (List.length_pos_iff.mpr hp) hw⟩
    · obtain ⟨rest, hpop, hw, rfl⟩ := sinkWrite_eq_done.mp hcall
      obtain ⟨hr, hfault, j, b, hbreak⟩ := ih (EncSlot.afterPass_out_length hout p a) hrest
      rw [EncSlot.afterPass_fault, hf, sinkFault_eq_none] at hfault
      rw [List.length_drop, EncSlot.afterPass_sink] at hbreak
      rw [enc_length, List.length_take] at hw
      rw [answersOf_of_popAnswer hpop]
      exact ⟨hr, hf, j + 1, b, .later (by omega) hfault hbreak⟩

/-- ENC_WRITE's transaction is refused only where its loop is. -/
theorem encTransaction_refused {h : Nat} {p : Bytes} {E : EncSlot Token} {s : State Token} {r : Refusal}
    (hx : encTransaction P h p E s = .refuse r) : encLoop P p.length 0 p E s = .refuse r :=
  (Txn.andThen_eq_refuse.mp hx).resolve_right fun ⟨_, _, hdone⟩ => nomatch hdone

end

/-! ## A Source's answer outside its contract (R288, I12; log 9) -/

section

variable {Token : Type} [DecidableEq Token] {P : Params} {s : State Token} {r : Refusal}

/-- DEC_READ's transaction is refused only at its one Source call, which a starved decoder makes: FILLING and DECODING
are done on a well-formed decoder. -/
theorem decTransaction_refused {h n : Nat} {D : DecSlot Token} (hP : P.Valid) (hD : D.Wf P)
    (hx : decTransaction P h n D s = .refuse r) :
    D.Starved ∧ sourceRead D.source (P.decCap - D.len) s = .refuse r := by
  by_cases hst : D.Starved
  · obtain ⟨hlen, hf⟩ := hst
    refine ⟨⟨hlen, hf⟩, ?_⟩
    rw [decTransaction_eq, if_pos ⟨hlen, hf⟩] at hx
    refine (Txn.andThen_eq_refuse.mp hx).resolve_right ?_
    rintro ⟨⟨a, t⟩, hcall, hrest⟩
    obtain ⟨-, -, ha, -⟩ := sourceRead_eq_done.mp hcall
    obtain ⟨D', out, hdec⟩ := decodeStep_done n (DecSlot.filled_wf hP hD hf hlen ha)
    simp only [fillStep_filled hP hD hf hlen ha, Txn.done_andThen, hdec] at hrest
    cases hrest
  · rw [decTransaction_fed hst (hD.2.1.trans_eq hD.1.symm)] at hx
    cases hx

/-! ## The refused commands -/

/-- A refused command is an ENC_WRITE or a DEC_READ on a constructed instance whose transaction is refused. -/
theorem execWith_refused {i : Instr} (h : execWith P i s = .refused r) :
    (∃ k p E, i = .encWrite k p ∧ s.enc[k]? = some E ∧ E.alloc = true ∧ encTransaction P k p E s = .refuse r) ∨
    (∃ k n D, i = .decRead k n ∧ s.dec[k]? = some D ∧ D.alloc = true ∧ decTransaction P k n D s = .refuse r) := by
  cases i with
  | encWrite k p =>
    simp only [execWith, encWriteWith] at h
    split at h
    · cases h
    · split at h
      · cases h
      · next E hE =>
        split at h
        · next ha => exact .inl ⟨k, p, E, rfl, hE, ha, conclude_eq_refused.mp h⟩
        · cases h
  | decRead k n =>
    simp only [execWith, decReadWith] at h
    split at h
    · cases h
    · split at h
      · cases h
      · next D hD =>
        split at h
        · next ha => exact .inr ⟨k, n, D, rfl, hD, ha, conclude_eq_refused.mp h⟩
        · cases h
  | encode | decode =>
    simp only [execWith, encodeWith, decodeWith] at h
    split at h <;> cases h
  | encNew | decNew =>
    simp only [execWith, encNewWith, decNewWith] at h
    split at h
    · cases h
    · split at h <;> cases h
  | _ => cases h

end

end Sys2Proof.Machine

/-! ## The statements -/

namespace Sys2Proof.Machine

/-- Settles O16: a refused command's transaction is refused, the encoder's at a chunk of its payload (by induction over
the passes of the loop) and the decoder's at its one Source call. -/
theorem onlyContractBreachesAreRefused : Obligations.OnlyContractBreachesAreRefused := by
  intro i s r hs h
  rw [exec_default] at h
  rcases execWith_refused h with ⟨k, p, E, hi, hE, ha, hx⟩ | ⟨k, n, D, hi, hD, ha, hx⟩
  · obtain ⟨hr, hf, j, a, hanswer, hlt, hover, hbefore⟩ :=
      encLoop_refused (inv_enc_wf hs hE).1 (encTransaction_refused hx)
    exact .inl ⟨hr, k, p, E, a, j, hi, hE, ha, hf, hanswer, hlt, hover, hbefore⟩
  · obtain ⟨⟨hlen, hf⟩, hcall⟩ := decTransaction_refused (by decide) (inv_dec_wf hs hD) hx
    obtain ⟨hr, a, rest, hpop, hover⟩ := sourceRead_eq_refuse.mp hcall
    exact .inr ⟨hr, k, n, D, a, _, hi, hD, ha, hf, hlen, answersOf_of_popAnswer hpop, hover⟩

/-- Settles O49: the transaction waits at the first chunk, and a waiting transaction leaves the state as it was. -/
theorem encWriteWaitsForItsSink : Obligations.EncWriteWaitsForItsSink := by
  intro h p E s hh hE ha hf hout hp hnone
  rw [exec_default, execWith_encWrite hh hE ha, encTransaction_waits hp hf hout hnone, conclude]

/-- Settles O55: the starved decoder's transaction waits at its Source call. -/
theorem decReadWaitsForItsSource : Obligations.DecReadWaitsForItsSource := by
  intro h n D s hh hD ha hlen hf hnone
  rw [exec_default, execWith_decRead hh hD ha, decTransaction_waits ⟨hlen, hf⟩ hnone, conclude]

end Sys2Proof.Machine
